-- ==== Sys2Proof/Word.lean ====
section
/-! DEFINITION. The word types of the data-onion block (00_scope.md R9: every byte has 8 bits, the VM's wide
registers and the host registers have 32; R14: the widths u64 and u128 of the unwrap and counter-mode rules). -/

namespace Sys2Proof

/-- One byte (R9). -/
abbrev Byte := BitVec 8

/-- A 32-bit host register (R31) or VM 32-bit register (R41). -/
abbrev Word := BitVec 32

/-- The integrity block A of the key unwrap (44_key_unwrap_ctr.md R262). -/
abbrev U64 := BitVec 64

/-- The counter block of counter mode (44_key_unwrap_ctr.md R264). -/
abbrev U128 := BitVec 128

end Sys2Proof
end

