-- ==== Sys2Proof/Config.lean ====
section
/-! DEFINITION. The implementation parameters of 00_scope.md R8, as one record of plain data, and the one free
value of the model. A machine carries its parameters in `State.params`, which no step changes (70 R412), so a
statement about every state is a statement about every choice of parameters (log 4). -/

namespace Sys2Proof

/-- `IP_CSUM_MODE`: how the IPv4 header checksum is verified (R8, 43_packet_extractor.md R224). -/
inductive IpCsumMode
  | compare
  | sumFFFF
  deriving DecidableEq, Repr

/-- `A85_WS_IN_GROUP`: what white space inside a run of alphabet characters does (R8, 40_ascii85.md R151, R152). -/
inductive A85Ws
  | split
  | skip
  deriving DecidableEq, Repr

/-- `CTR_INC_WIDTH`: the width of the counter part that CTR increments. The spec defines one value, 128
(R8, 92_eei_decisions.md D31, U30), so the type has one value (log 9). -/
inductive CtrIncWidth
  | full128
  deriving DecidableEq, Repr

/-- The parameters of R8. -/
structure Params where
  /-- `IN_CAP`, OPEN. -/
  inCap : Nat
  /-- `OUT_CAP`, OPEN. -/
  outCap : Nat
  /-- `AUTH_SRC`. -/
  authSrc : BitVec 32
  /-- `AUTH_DST`. -/
  authDst : BitVec 32
  /-- `AUTH_DPORT`. -/
  authDport : BitVec 16
  /-- `IP_CSUM_MODE`. -/
  ipCsumMode : IpCsumMode
  /-- `UNWRAP_CHECK_IV`. -/
  unwrapCheckIv : Bool
  /-- `CTR_INC_WIDTH`. -/
  ctrIncWidth : CtrIncWidth
  /-- `A85_WS_IN_GROUP`. -/
  a85Ws : A85Ws
  deriving DecidableEq, Repr

/-- The ranges R8 gives the two capacities: 1 to 2^32 − 1. -/
def Params.ok (p : Params) : Bool :=
  decide (1 ≤ p.inCap ∧ p.inCap ≤ 4294967295 ∧ 1 ≤ p.outCap ∧ p.outCap ≤ 4294967295)

/-- The defaults of R8. `IN_CAP` and `OUT_CAP` have none: DESIGN CHOICE (log 4), the largest value of their range. -/
def Params.default : Params where
  inCap := 4294967295
  outCap := 4294967295
  authSrc := 0x0A01010A#32
  authDst := 0x0A0101C8#32
  authDport := 0xA455#16
  ipCsumMode := .compare
  unwrapCheckIv := false
  ctrIncWidth := .full128
  a85Ws := .split

/-- The free value of the model: the byte that the n-th draw of an unspecified byte gives (20_memory.md R81,
93_implementation_defined.md U1, U2, U3 "any value, a fresh draw each time"; log 3). It has no body: nothing can be
proved of its values. -/
opaque Config.freeByte : Nat → Byte

end Sys2Proof
end

