-- ==== Sys2Proof/Syntax.lean ====
section
/-! DEFINITION. The syntax: the instructions (one constructor per row of spec/opcode_table.json: thirteen VM
instructions and six job commands) and the actions of the host (20_memory.md R95). -/

namespace Sys2Proof

/-- The VM 8-bit registers (10_state.md R40); f is the comparison flag (R42). -/
inductive Reg8
  | a | b | c | d | e | f
  deriving DecidableEq, Repr

/-- An operand of an 8-bit move (R40, codes 1 to 7): a register or the memory operand `(ptr+c)`. -/
inductive Opnd8
  | reg (r : Reg8)
  | ptrC
  deriving DecidableEq, Repr

/-- The VM 32-bit registers (10_state.md R41, codes 1 to 6). -/
inductive Reg32
  | la | lb | lc | ld | ptr | pc
  deriving DecidableEq, Repr

/-- The instructions of the block: the VM ISA (46_bytecode_vm.md R330–R342) and the job commands, host writes of
CTRL with START = 1 and a FUNC that names a unit (30_encoding.md R110). -/
inductive Instr
  | halt
  | out
  | cmp
  | add
  | sub
  | xor
  | aptr (imm8 : Byte)
  | jez (imm32 : Word)
  | jnz (imm32 : Word)
  | mv (dst src : Opnd8)
  | mvi (dst : Opnd8) (imm8 : Byte)
  | mv32 (dst src : Reg32)
  | mvi32 (dst : Reg32) (imm32 : Word)
  | jobAscii85
  | jobBitflip
  | jobParity
  | jobPacket
  | jobUnwrap
  | jobVm
  deriving DecidableEq, Repr

/-- What the host can do to the block (20_memory.md R95, 70_reset_and_hazards.md R410), and `turn`: the host does
nothing and the block moves (log 1). A register access carries its width in bits and its byte offset, a buffer
access its byte index. -/
inductive HostMove
  | turn
  | readReg (width offset : Nat)
  | writeReg (width offset : Nat) (value : Word)
  | readIn (i : Nat)
  | writeIn (i : Nat) (value : Byte)
  | readOut (i : Nat)
  | writeOut (i : Nat) (value : Byte)
  | reset
  deriving DecidableEq, Repr

end Sys2Proof
end

