-- ==== Sys2Proof/Machine/State.lean ====
section
/-! DEFINITION. The state of the block as plain data (10_state.md R30–R50), the reasons a step can stop, and the
state after reset (10_state.md R48, 70_reset_and_hazards.md R410). -/

namespace Sys2Proof.Machine

/-- The error codes of STATUS.ERR (30_encoding.md R112). A reserved code cannot be held: R112 says none is ever
produced. The numbers are `errByte` of Machine/Ops.lean. -/
inductive ErrCode
  | none
  | badFunc
  | badLength
  | outOverflow
  | a85InvalidCharacter
  | a85ParseError
  | a85Overflow
  | pktMalformed
  | unwrapShortInput
  | unwrapIntegrity
  | vmInvalidOpcode
  | vmFetchOob
  | vmMemOob
  | vmPtrOverflow
  deriving DecidableEq, Repr

/-- STATUS.STATE (10_state.md R33). -/
inductive JobState
  | idle
  | busy
  | done
  | error
  deriving DecidableEq, Repr

/-- The units whose job is one transition from BUSY to DONE or ERROR (00_scope.md R2, 92_eei_decisions.md D2): every
unit but the VM. -/
inductive UnitFn
  | ascii85
  | bitflip
  | parity
  | packet
  | unwrap
  deriving DecidableEq, Repr

/-- The result of a unit (00_scope.md R13): its output, or an error code with the ERR_INFO value as a number. -/
inductive UnitResult
  | ok (out : List Byte)
  | err (code : ErrCode) (info : Nat)
  deriving DecidableEq, Repr

/-- A byte memory: its listed bytes, addresses strictly rising (`Memory.wf` in Machine/Ops.lean). An unlisted address
holds no value: in IN and OUT its contents are unspecified (20_memory.md R81), in VM memory there is no such byte (R88)
(log 3, log 12). -/
abbrev Memory := List Host.Cell

/-- The VM state (10_state.md R40–R45). -/
structure VmState where
  a : Byte
  b : Byte
  c : Byte
  d : Byte
  e : Byte
  /-- The comparison flag (R42). -/
  f : Byte
  la : Word
  lb : Word
  lc : Word
  ld : Word
  ptr : Word
  pc : Word
  /-- memory[0 .. L) (R44). -/
  mem : Memory
  /-- The output string, first byte first (R45). -/
  out : List Byte
  deriving DecidableEq, Repr

/-- The job that runs (10_state.md R34, R46, R47): none, a unit with its input snapshot, or a VM run. -/
inductive Job
  | none
  | unit (u : UnitFn) (input : List Byte)
  | vm (v : VmState)
  deriving DecidableEq, Repr

/-- The state of the block. CTRL.START and the reserved bits and offsets read 0 and store nothing (R32, R38). -/
structure State where
  /-- The implementation parameters (00_scope.md R8); no step changes them (log 4). -/
  params : Params
  /-- CTRL.FUNC (R32). -/
  func : BitVec 3
  /-- STATUS.STATE (R33). -/
  state : JobState
  /-- STATUS.ERR (R33). -/
  err : ErrCode
  /-- IN_LEN (R35). -/
  inLen : Word
  /-- OUT_LEN (R36). -/
  outLen : Word
  /-- ERR_INFO (R37). -/
  errInfo : Word
  /-- The IN buffer (20_memory.md R80, R81). -/
  inBuf : Memory
  /-- The OUT buffer (20_memory.md R80, R81). -/
  outBuf : Memory
  /-- The running job with its working state (R34, R46, R47). -/
  job : Job
  /-- The host's pending actions, next first: the model's input (log 1). -/
  host : List HostMove
  /-- What the last host read returned: the model's own field (log 5). -/
  readData : Word
  /-- How many free bytes have been drawn: the model's own counter (log 3). -/
  draws : Nat
  deriving DecidableEq, Repr

/-- Why the machine stops. -/
inductive Fault
  /-- Raised by a VM instruction's meaning where no VM run exists: the VM state "does not exist" there (10_state.md R46,
  R48). `step` never raises it, because an instruction is fetched inside a VM run only. Safe (log 6). -/
  | noVmRun
  /-- Raised by a host register access at an offset past 0xFF, an address the register space does not have
  (20_memory.md R80). Safe (log 8). -/
  | noSuchRegister
  deriving DecidableEq, Repr

/-- What the model gives no meaning. -/
inductive Refusal
  /-- Raised by `exec` for an instruction whose meaning is not written yet. Safe. -/
  | notModelled (mnemonic : String)
  /-- Raised by a host register access that is not 32 bits wide (10_state.md R39, 93 U11). Safe (log 7). -/
  | accessWidth
  /-- Raised by a host register access at an offset that is no multiple of 4 (10_state.md R39, 93 U11). Safe (log 7). -/
  | unalignedOffset
  /-- Raised by a host access of IN at or past IN_CAP (20_memory.md R95, 93 U12). Safe (log 7). -/
  | inIndex
  /-- Raised by a host access of OUT at or past OUT_CAP (20_memory.md R95, 93 U12). Safe (log 7). -/
  | outIndex
  deriving DecidableEq, Repr

/-- The outcome of a step of this machine. -/
abbrev Outcome := Host.Outcome State Fault Refusal

/-- The state after reset (R48): every register 0, IDLE, no job, nothing known of IN and OUT. The values of `params`
(log 4), `host` (log 1), `readData` (log 5) and `draws` (log 3) are the model's. -/
def State.reset : State where
  params := Params.default
  func := 0
  state := .idle
  err := .none
  inLen := 0
  outLen := 0
  errInfo := 0
  inBuf := []
  outBuf := []
  job := .none
  host := []
  readData := 0
  draws := 0

end Sys2Proof.Machine
end

