-- ==== Sys2Proof/Machine/Ops.lean ====
section
/-! DEFINITION. The shared operations over memory and the job engine: reading and writing a byte, the start of a job,
the end of a job, and taking a job fault. -/

namespace Sys2Proof.Machine

/-- The canonical form: addresses strictly rising. -/
def Memory.wf : Memory → Bool
  | [] => true
  | [_] => true
  | (a, _) :: (b, y) :: m => decide (a < b) && Memory.wf ((b, y) :: m)

/-- The byte listed at an address. -/
def Memory.get? : Memory → Nat → Option Byte
  | [], _ => none
  | (a, x) :: m, i => if i = a then some x else Memory.get? m i

/-- Store one byte: replace the entry of the address or insert one in its place. -/
def Memory.set : Memory → Nat → Byte → Memory
  | [], i, v => [(i, v)]
  | (a, x) :: m, i, v =>
    if i < a then (i, v) :: (a, x) :: m
    else if i = a then (i, v) :: m
    else (a, x) :: Memory.set m i v

/-- The bytes of a string at consecutive addresses from `base`. -/
def Memory.ofBytesAt (base : Nat) : List Byte → Memory
  | [] => []
  | b :: t => (base, b) :: Memory.ofBytesAt (base + 1) t

/-- A string as a memory that starts at address 0. -/
def Memory.ofBytes (bytes : List Byte) : Memory :=
  Memory.ofBytesAt 0 bytes

/-- The bytes listed at consecutive addresses from `a`, at most n of them, up to the first unlisted one. -/
def Memory.run (m : Memory) (a : Nat) : Nat → List Byte
  | 0 => []
  | n + 1 => match Memory.get? m a with
    | some b => b :: Memory.run m (a + 1) n
    | none => []

/-- L = len(memory) of a VM memory (10_state.md R44). -/
def Memory.size (m : Memory) : Nat :=
  m.length

/-- The numbers of the error codes (30_encoding.md R112). -/
def errByte : ErrCode → Byte
  | .none => 0x00
  | .badFunc => 0x01
  | .badLength => 0x02
  | .outOverflow => 0x03
  | .a85InvalidCharacter => 0x10
  | .a85ParseError => 0x11
  | .a85Overflow => 0x12
  | .pktMalformed => 0x20
  | .unwrapShortInput => 0x30
  | .unwrapIntegrity => 0x31
  | .vmInvalidOpcode => 0x40
  | .vmFetchOob => 0x41
  | .vmMemOob => 0x42
  | .vmPtrOverflow => 0x43

/-- The numbers of STATUS.STATE (10_state.md R33). -/
def stateBits : JobState → BitVec 2
  | .idle => 0
  | .busy => 1
  | .done => 2
  | .error => 3

/-- Taking a job fault (60_exceptions.md R380), the one exception of this block: STATE, ERR, ERR_INFO and OUT_LEN are
written, the working state is discarded, OUT becomes unspecified, and so does IN, because the job has ended
(20_memory.md R81; log 11). FUNC and IN_LEN keep their values. There is no return from it (R385). -/
def jobFault (s : State) (code : ErrCode) (info : Word) : State :=
  { s with
    state := .error
    err := code
    errInfo := info
    outLen := 0
    job := .none
    inBuf := []
    outBuf := [] }

/-- A job that ends with output (10_state.md R34): OUT holds it, the rest of OUT and all of IN are unspecified
(20_memory.md R81). -/
def jobDone (s : State) (out : List Byte) : State :=
  { s with
    state := .done
    err := .none
    errInfo := 0
    outLen := BitVec.ofNat 32 out.length
    job := .none
    inBuf := []
    outBuf := Memory.ofBytes out }

/-- The job engine at the result of a unit (10_state.md R34, "case result of"; log 16 for the width of the info). -/
def finishJob (s : State) : UnitResult → State
  | .ok out =>
    if out.length > s.params.outCap then jobFault s .outOverflow (BitVec.ofNat 32 s.params.outCap)
    else jobDone s out
  | .err code info => jobFault s code (BitVec.ofNat 32 info)

/-- The job input IN[0 .. IN_LEN) (10_state.md R34). A byte the host has not written is unspecified: byte i is the
free value of draw `draws + i` (20_memory.md R81; log 3). -/
def inputSnapshot (s : State) : List Byte :=
  (List.range s.inLen.toNat).map fun i =>
    match Memory.get? s.inBuf i with
    | some b => b
    | none => Config.freeByte (s.draws + i)

/-- The start of a job whose FUNC names a unit (10_state.md R34): a write while BUSY is ignored; a length above IN_CAP
is BAD_LENGTH; otherwise the block is BUSY with the job that `mk` makes of the input. -/
def startJob (code : BitVec 3) (mk : List Byte → Job) (s : State) : State :=
  if s.state = .busy then s
  else if s.inLen.toNat > s.params.inCap then jobFault { s with func := code } .badLength s.inLen
  else
    { s with
      func := code
      state := .busy
      err := .none
      outLen := 0
      errInfo := 0
      inBuf := []
      outBuf := []
      job := mk (inputSnapshot s)
      draws := s.draws + s.inLen.toNat }

/-- The VM state at the start of a VM job (10_state.md R49). -/
def vmInit (image : List Byte) : VmState where
  a := 0
  b := 0
  c := 0
  d := 0
  e := 0
  f := 0
  la := 0
  lb := 0
  lc := 0
  ld := 0
  ptr := 0
  pc := 0
  mem := Memory.ofBytes image
  out := []

/-- One VM instruction of `len` bytes inside a VM run (46_bytecode_vm.md R320, R324): pc is advanced, then `body` runs;
its effects land together, or it raises one error and the job faults with ERR_INFO = pc0, the address of its opcode
byte (R343) (log 15). -/
def vmInstr (len : Nat) (body : VmState → Except ErrCode VmState) (s : State) : Outcome :=
  match s.job with
  | .vm v =>
    match body { v with pc := v.pc + BitVec.ofNat 32 len } with
    | .ok v' => .next { s with job := .vm v' }
    | .error code => .next (jobFault s code v.pc)
  | .none => .fault .noVmRun
  | .unit _ _ => .fault .noVmRun

/-- The lengths of the three formats (30_encoding.md R120). -/
def lenN : Nat := 1

/-- Format I8. -/
def lenI8 : Nat := 2

/-- Format I32. -/
def lenI32 : Nat := 5

end Sys2Proof.Machine
end

