-- ==== Sys2Proof/Machine/Jobs.lean ====
section
/-! DEFINITION. The job commands: a host write of CTRL with START = 1 and a FUNC that names a unit (30_encoding.md
R110, 10_state.md R34). The command makes the block BUSY; the unit's result comes at the block's own turn
(Machine/Turn.lean; log 2). -/

namespace Sys2Proof.Machine

/-- FUNC 0: ASCII85 (40_ascii85.md R155). -/
def execJobAscii85 (s : State) : Outcome :=
  .next (startJob 0 (.unit .ascii85) s)

/-- FUNC 1: BITFLIP (41_bit_transposer.md R191). -/
def execJobBitflip (s : State) : Outcome :=
  .next (startJob 1 (.unit .bitflip) s)

/-- FUNC 2: PARITY (42_parity_repacker.md R203). -/
def execJobParity (s : State) : Outcome :=
  .next (startJob 2 (.unit .parity) s)

/-- FUNC 4: PACKET (43_packet_extractor.md R229). -/
def execJobPacket (s : State) : Outcome :=
  .next (startJob 4 (.unit .packet) s)

/-- FUNC 5: UNWRAP (44_key_unwrap_ctr.md R265). -/
def execJobUnwrap (s : State) : Outcome :=
  .next (startJob 5 (.unit .unwrap) s)

/-- FUNC 6: VM (46_bytecode_vm.md R320): the VM state is created with the input as its image (10_state.md R46, R49). -/
def execJobVm (s : State) : Outcome :=
  .next (startJob 6 (fun image => .vm (vmInit image)) s)

end Sys2Proof.Machine
end

