-- ==== Sys2Proof/Machine/Flags.lean ====
section
/-! DEFINITION. The VM's one flag, register f (10_state.md R42). -/

namespace Sys2Proof.Machine

/-- What CMP writes to f (46_bytecode_vm.md R332): 0 when a = b, else 1. -/
def cmpFlag (a b : Byte) : Byte :=
  if a = b then 0 else 1

/-- The condition of JEZ (R336); JNZ takes its branch where it fails (R337). -/
def flagZero (v : VmState) : Bool :=
  decide (v.f = 0)

end Sys2Proof.Machine
end

