-- ==== Sys2Proof/Machine/Operands.lean ====
section
/-! DEFINITION. The operand forms of the VM moves (46_bytecode_vm.md R322, R323). -/

namespace Sys2Proof.Machine

/-- x8[r] (00_scope.md R12). -/
def VmState.get8 (v : VmState) : Reg8 → Byte
  | .a => v.a
  | .b => v.b
  | .c => v.c
  | .d => v.d
  | .e => v.e
  | .f => v.f

/-- x8[r] <- x (00_scope.md R12). -/
def VmState.set8 (v : VmState) (r : Reg8) (x : Byte) : VmState :=
  match r with
  | .a => { v with a := x }
  | .b => { v with b := x }
  | .c => { v with c := x }
  | .d => { v with d := x }
  | .e => { v with e := x }
  | .f => { v with f := x }

/-- x32[r] (R323 `read32`): pc reads its value after the fetch advance. -/
def VmState.get32 (v : VmState) : Reg32 → Word
  | .la => v.la
  | .lb => v.lb
  | .lc => v.lc
  | .ld => v.ld
  | .ptr => v.ptr
  | .pc => v.pc

/-- x32[r] <- x (R323 `write32`): writing pc is a jump. -/
def VmState.set32 (v : VmState) (r : Reg32) (x : Word) : VmState :=
  match r with
  | .la => { v with la := x }
  | .lb => { v with lb := x }
  | .lc => { v with lc := x }
  | .ld => { v with ld := x }
  | .ptr => { v with ptr := x }
  | .pc => { v with pc := x }

/-- The address of `(ptr+c)` (R322): exact, with no wrap at 2^32. -/
def VmState.ea (v : VmState) : Nat :=
  v.ptr.toNat + v.c.toNat

/-- MemRead (R322): a byte that VM memory does not have is VM_MEM_OOB. -/
def VmState.memRead (v : VmState) (addr : Nat) : Except ErrCode Byte :=
  match Memory.get? v.mem addr with
  | some b => .ok b
  | none => .error .vmMemOob

/-- MemWrite (R322): outside memory it is VM_MEM_OOB and memory is unchanged. -/
def VmState.memWrite (v : VmState) (addr : Nat) (x : Byte) : Except ErrCode VmState :=
  match Memory.get? v.mem addr with
  | some _ => .ok { v with mem := Memory.set v.mem addr x }
  | none => .error .vmMemOob

/-- read8 (R323). -/
def VmState.read8 (v : VmState) : Opnd8 → Except ErrCode Byte
  | .reg r => .ok (v.get8 r)
  | .ptrC => v.memRead v.ea

/-- write8 (R323). -/
def VmState.write8 (v : VmState) (o : Opnd8) (x : Byte) : Except ErrCode VmState :=
  match o with
  | .reg r => .ok (v.set8 r x)
  | .ptrC => v.memWrite v.ea x

end Sys2Proof.Machine
end

