-- ==== Sys2Proof/Machine/VmArith.lean ====
section
/-! DEFINITION. The VM's arithmetic and compare instructions (46_bytecode_vm.md R332–R335, R338). -/

namespace Sys2Proof.Machine

/-- CMP (R332): f <- 0 if a == b else 1. -/
def execCmp (s : State) : Outcome :=
  vmInstr lenN (fun v => .ok { v with f := cmpFlag v.a v.b }) s

/-- ADD (R333): a <- (a + b) mod 256. -/
def execAdd (s : State) : Outcome :=
  vmInstr lenN (fun v => .ok { v with a := v.a + v.b }) s

/-- SUB (R334): a <- (a − b) mod 256. -/
def execSub (s : State) : Outcome :=
  vmInstr lenN (fun v => .ok { v with a := v.a - v.b }) s

/-- XOR (R335): a <- a ^ b. -/
def execXor (s : State) : Outcome :=
  vmInstr lenN (fun v => .ok { v with a := v.a ^^^ v.b }) s

/-- The pointer advance of APTR (R338), exact; past 2^32 − 1 it is VM_PTR_OVERFLOW. -/
def advancePtr (v : VmState) (imm8 : Byte) : Except ErrCode VmState :=
  if v.ptr.toNat + imm8.toNat > 0xFFFFFFFF then .error .vmPtrOverflow
  else .ok { v with ptr := BitVec.ofNat 32 (v.ptr.toNat + imm8.toNat) }

/-- APTR (R338): ptr <- ptr + zext_32(imm8). -/
def execAptr (imm8 : Byte) (s : State) : Outcome :=
  vmInstr lenI8 (fun v => advancePtr v imm8) s

end Sys2Proof.Machine
end

