-- ==== Sys2Proof/Machine/VmControl.lean ====
section
/-! DEFINITION. The VM's control and output instructions (46_bytecode_vm.md R330, R331, R336, R337). -/

namespace Sys2Proof.Machine

/-- HALT (R330): the run returns Ok(out), and the job engine ends the job with it (10_state.md R34). -/
def execHalt (s : State) : Outcome :=
  match s.job with
  | .vm v => .next (finishJob s (.ok v.out))
  | .none => .fault .noVmRun
  | .unit _ _ => .fault .noVmRun

/-- The output append of OUT (R331), with OUT_CAP = cap. -/
def appendOut (cap : Nat) (v : VmState) : Except ErrCode VmState :=
  if v.out.length = cap then .error .outOverflow
  else .ok { v with out := v.out ++ [v.a] }

/-- OUT a (R331). -/
def execOut (s : State) : Outcome :=
  vmInstr lenN (appendOut s.params.outCap) s

/-- JEZ imm32 (R336): if f == 0: pc <- imm32. -/
def execJez (imm32 : Word) (s : State) : Outcome :=
  vmInstr lenI32 (fun v => .ok (if flagZero v then { v with pc := imm32 } else v)) s

/-- JNZ imm32 (R337): if f != 0: pc <- imm32. -/
def execJnz (imm32 : Word) (s : State) : Outcome :=
  vmInstr lenI32 (fun v => .ok (if flagZero v then v else { v with pc := imm32 })) s

end Sys2Proof.Machine
end

