-- ==== Sys2Proof/Machine/VmMove.lean ====
section
/-! DEFINITION. The VM's move family (46_bytecode_vm.md R339–R342). -/

namespace Sys2Proof.Machine

/-- Read the source, then write the destination: the address of a memory destination uses the registers as they were
before the write (R339). -/
def moveOpnd8 (v : VmState) (dst src : Opnd8) : Except ErrCode VmState :=
  match v.read8 src with
  | .ok x => v.write8 dst x
  | .error code => .error code

/-- MV dest <- src (R339). -/
def execMv (dst src : Opnd8) (s : State) : Outcome :=
  vmInstr lenN (fun v => moveOpnd8 v dst src) s

/-- MVI dest <- imm8 (R340). -/
def execMvi (dst : Opnd8) (imm8 : Byte) (s : State) : Outcome :=
  vmInstr lenI8 (fun v => v.write8 dst imm8) s

/-- MV32 dest <- src (R341). -/
def execMv32 (dst src : Reg32) (s : State) : Outcome :=
  vmInstr lenN (fun v => .ok (v.set32 dst (v.get32 src))) s

/-- MVI32 dest <- imm32 (R342). -/
def execMvi32 (dst : Reg32) (imm32 : Word) (s : State) : Outcome :=
  vmInstr lenI32 (fun v => .ok (v.set32 dst imm32)) s

end Sys2Proof.Machine
end

