-- ==== Sys2Proof/Machine/Dispatch.lean ====
section
/-! DEFINITION. The dispatch: one arm per instruction. -/

namespace Sys2Proof.Machine

def exec (i : Instr) (s : State) : Host.Outcome State Fault Refusal :=
  match i with
  | .halt => Sys2Proof.Machine.execHalt s
  | .out => Sys2Proof.Machine.execOut s
  | .cmp => Sys2Proof.Machine.execCmp s
  | .add => Sys2Proof.Machine.execAdd s
  | .sub => Sys2Proof.Machine.execSub s
  | .xor => Sys2Proof.Machine.execXor s
  | .aptr imm8 => Sys2Proof.Machine.execAptr imm8 s
  | .jez imm32 => Sys2Proof.Machine.execJez imm32 s
  | .jnz imm32 => Sys2Proof.Machine.execJnz imm32 s
  | .mv dst src => Sys2Proof.Machine.execMv dst src s
  | .mvi dst imm8 => Sys2Proof.Machine.execMvi dst imm8 s
  | .mv32 dst src => Sys2Proof.Machine.execMv32 dst src s
  | .mvi32 dst imm32 => Sys2Proof.Machine.execMvi32 dst imm32 s
  | .jobAscii85 => Sys2Proof.Machine.execJobAscii85 s
  | .jobBitflip => Sys2Proof.Machine.execJobBitflip s
  | .jobParity => Sys2Proof.Machine.execJobParity s
  | .jobPacket => Sys2Proof.Machine.execJobPacket s
  | .jobUnwrap => Sys2Proof.Machine.execJobUnwrap s
  | .jobVm => Sys2Proof.Machine.execJobVm s

end Sys2Proof.Machine
end

