-- ==== Sys2Proof/WellFormed.lean ====
section
/-! DEFINITION. Well-formed instructions and host actions. -/

namespace Sys2Proof

/-- An instruction of the VM ISA, as against a job command. -/
def Instr.isVm : Instr → Bool
  | .halt => true
  | .out => true
  | .cmp => true
  | .add => true
  | .sub => true
  | .xor => true
  | .aptr _ => true
  | .jez _ => true
  | .jnz _ => true
  | .mv _ _ => true
  | .mvi _ _ => true
  | .mv32 _ _ => true
  | .mvi32 _ _ => true
  | .jobAscii85 => false
  | .jobBitflip => false
  | .jobParity => false
  | .jobPacket => false
  | .jobUnwrap => false
  | .jobVm => false

/-- Every term of `Instr` is well formed: the operand types hold exactly the operands that 10_state.md R40 and R41
give a code other than the invalid ones, and "every immediate value is legal" (30_encoding.md R124). -/
def Instr.wellFormed : Instr → Bool
  | .halt => true
  | .out => true
  | .cmp => true
  | .add => true
  | .sub => true
  | .xor => true
  | .aptr _ => true
  | .jez _ => true
  | .jnz _ => true
  | .mv _ _ => true
  | .mvi _ _ => true
  | .mv32 _ _ => true
  | .mvi32 _ _ => true
  | .jobAscii85 => true
  | .jobBitflip => true
  | .jobParity => true
  | .jobPacket => true
  | .jobUnwrap => true
  | .jobVm => true

/-- A register access the host may make: 32 bits wide, at a multiple of 4 in the register space (10_state.md R39,
20_memory.md R80). -/
def regAccessOk (width offset : Nat) : Bool :=
  decide (width = 32 ∧ offset % 4 = 0 ∧ offset ≤ 0xFF)

/-- The host actions that break no host duty of 20_memory.md R95. -/
def HostMove.wellFormed (p : Params) : HostMove → Bool
  | .turn => true
  | .readReg width offset => regAccessOk width offset
  | .writeReg width offset _ => regAccessOk width offset
  | .readIn i => decide (i < p.inCap)
  | .writeIn i _ => decide (i < p.inCap)
  | .readOut i => decide (i < p.outCap)
  | .writeOut i _ => decide (i < p.outCap)
  | .reset => true

end Sys2Proof
end

