-- ==== Sys2Proof/Decode.lean ====
section
/-! DEFINITION. Decoding and encoding (30_encoding.md R110, R120–R127). The block has two encodings: VM instructions
are bytes in VM memory, job commands are 32-bit words written to CTRL. -/

namespace Sys2Proof

/-- The 32-bit value of four bytes, lowest address first (R84, 00_scope.md R11 `le32`). -/
def le32 (b0 b1 b2 b3 : Byte) : Word :=
  b3 ++ b2 ++ b1 ++ b0

/-- Byte k of a word, byte 0 the least significant. -/
def wordByte (w : Word) (k : Nat) : Byte :=
  w.extractLsb' (8 * k) 8

/-- The four bytes of an immediate in memory order (R84). -/
def le32Bytes (w : Word) : List Byte :=
  [wordByte w 0, wordByte w 1, wordByte w 2, wordByte w 3]

/-- Why bytes are no instruction: there is no opcode byte, the opcode byte is invalid (R124), or its immediate is cut
short (46_bytecode_vm.md R321). -/
inductive DecodeError
  | noByte
  | invalidOpcode
  | truncated
  deriving DecidableEq, Repr

/-- Operand codes of the 8-bit moves (10_state.md R40); code 0 is no operand. -/
def opnd8OfCode (code : BitVec 3) : Option Opnd8 :=
  match code.toNat with
  | 1 => some (.reg .a)
  | 2 => some (.reg .b)
  | 3 => some (.reg .c)
  | 4 => some (.reg .d)
  | 5 => some (.reg .e)
  | 6 => some (.reg .f)
  | 7 => some .ptrC
  | _ => none

/-- Operand codes of the 32-bit moves (10_state.md R41); codes 0 and 7 are no operand. -/
def reg32OfCode (code : BitVec 3) : Option Reg32 :=
  match code.toNat with
  | 1 => some .la
  | 2 => some .lb
  | 3 => some .lc
  | 4 => some .ld
  | 5 => some .ptr
  | 6 => some .pc
  | _ => none

/-- Format I8 (R120): the immediate is the byte after the opcode. -/
def takeImm8 (rest : List Byte) (mk : Byte → Instr) : Except DecodeError (Instr × List Byte) :=
  match rest with
  | b :: t => .ok (mk b, t)
  | _ => .error .truncated

/-- Format I32 (R120): the immediate is the four bytes after the opcode, little-endian. -/
def takeImm32 (rest : List Byte) (mk : Word → Instr) : Except DecodeError (Instr × List Byte) :=
  match rest with
  | b0 :: b1 :: b2 :: b3 :: t => .ok (mk (le32 b0 b1 b2 b3), t)
  | _ => .error .truncated

/-- The move family (R121): kk = op[7:6], ddd = op[5:3], sss = op[2:0]. -/
def decodeMove (op : Byte) (rest : List Byte) : Except DecodeError (Instr × List Byte) :=
  let kk := op.extractLsb' 6 2
  let ddd := op.extractLsb' 3 3
  let sss := op.extractLsb' 0 3
  if kk = 1 then
    match opnd8OfCode ddd, opnd8OfCode sss with
    | none, _ => .error .invalidOpcode
    | some d, none => takeImm8 rest (.mvi d)
    | some d, some s => .ok (.mv d s, rest)
  else if kk = 2 then
    match reg32OfCode ddd, reg32OfCode sss with
    | none, _ => .error .invalidOpcode
    | some d, some s => .ok (.mv32 d s, rest)
    | some d, none => if sss = 0 then takeImm32 rest (.mvi32 d) else .error .invalidOpcode
  else .error .invalidOpcode

/-- The opcode map (R123) and the decoding relation (R127): the instruction at the head of the bytes and the bytes
after it. -/
def decodeBytes : List Byte → Except DecodeError (Instr × List Byte)
  | [] => .error .noByte
  | op :: rest =>
    match op.toNat with
    | 0x01 => .ok (.halt, rest)
    | 0x02 => .ok (.out, rest)
    | 0x21 => takeImm32 rest .jez
    | 0x22 => takeImm32 rest .jnz
    | 0xC1 => .ok (.cmp, rest)
    | 0xC2 => .ok (.add, rest)
    | 0xC3 => .ok (.sub, rest)
    | 0xC4 => .ok (.xor, rest)
    | 0xE1 => takeImm8 rest .aptr
    | _ => decodeMove op rest

/-- CTRL.START of a word written to CTRL (10_state.md R32). -/
def ctrlStart (w : Word) : Bool :=
  w.getLsbD 8

/-- CTRL.FUNC of a word written to CTRL (10_state.md R32). -/
def ctrlFunc (w : Word) : BitVec 3 :=
  w.extractLsb' 0 3

/-- The job command that a word written to CTRL is: START = 1 and a FUNC that names a unit (R110). The reserved bits
are not read (10_state.md R32, R38). -/
def decodeCtrl (w : Word) : Option Instr :=
  if ctrlStart w then
    match (ctrlFunc w).toNat with
    | 0 => some .jobAscii85
    | 1 => some .jobBitflip
    | 2 => some .jobParity
    | 4 => some .jobPacket
    | 5 => some .jobUnwrap
    | 6 => some .jobVm
    | _ => none
  else none

/-- An encoded instruction: the bytes of a VM instruction or a word for CTRL. -/
inductive Encoded
  | vmBytes (bytes : List Byte)
  | ctrlWord (w : Word)
  deriving DecidableEq, Repr

/-- The decoder over both encodings. -/
def decode : Encoded → Option Instr
  | .vmBytes bytes => match decodeBytes bytes with
    | .ok (i, _) => some i
    | .error _ => none
  | .ctrlWord w => decodeCtrl w

/-- The code of an 8-bit register (R40). -/
def codeOfReg8 : Reg8 → BitVec 3
  | .a => 1
  | .b => 2
  | .c => 3
  | .d => 4
  | .e => 5
  | .f => 6

/-- The code of an operand of an 8-bit move (R40). -/
def codeOfOpnd8 : Opnd8 → BitVec 3
  | .reg r => codeOfReg8 r
  | .ptrC => 7

/-- The code of a 32-bit register (R41). -/
def codeOfReg32 : Reg32 → BitVec 3
  | .la => 1
  | .lb => 2
  | .lc => 3
  | .ld => 4
  | .ptr => 5
  | .pc => 6

/-- The opcode byte of the move family (R121). -/
def moveOpcode (kk : BitVec 2) (ddd sss : BitVec 3) : Byte :=
  kk ++ ddd ++ sss

/-- The bytes of a VM instruction (R120, R121, R123); a job command has none. -/
def encodeBytes : Instr → List Byte
  | .halt => [0x01]
  | .out => [0x02]
  | .cmp => [0xC1]
  | .add => [0xC2]
  | .sub => [0xC3]
  | .xor => [0xC4]
  | .aptr imm8 => [0xE1, imm8]
  | .jez imm32 => 0x21 :: le32Bytes imm32
  | .jnz imm32 => 0x22 :: le32Bytes imm32
  | .mv dst src => [moveOpcode 1 (codeOfOpnd8 dst) (codeOfOpnd8 src)]
  | .mvi dst imm8 => [moveOpcode 1 (codeOfOpnd8 dst) 0, imm8]
  | .mv32 dst src => [moveOpcode 2 (codeOfReg32 dst) (codeOfReg32 src)]
  | .mvi32 dst imm32 => moveOpcode 2 (codeOfReg32 dst) 0 :: le32Bytes imm32
  | .jobAscii85 => []
  | .jobBitflip => []
  | .jobParity => []
  | .jobPacket => []
  | .jobUnwrap => []
  | .jobVm => []

/-- The word that starts a job when written to CTRL: FUNC | (1 << 8) (70_reset_and_hazards.md R416). -/
def startWord (func : BitVec 3) : Word :=
  0x100 ||| func.zeroExtend 32

/-- The encoding of an instruction. -/
def encode : Instr → Encoded
  | .jobAscii85 => .ctrlWord (startWord 0)
  | .jobBitflip => .ctrlWord (startWord 1)
  | .jobParity => .ctrlWord (startWord 2)
  | .jobPacket => .ctrlWord (startWord 4)
  | .jobUnwrap => .ctrlWord (startWord 5)
  | .jobVm => .ctrlWord (startWord 6)
  | .halt => .vmBytes (encodeBytes .halt)
  | .out => .vmBytes (encodeBytes .out)
  | .cmp => .vmBytes (encodeBytes .cmp)
  | .add => .vmBytes (encodeBytes .add)
  | .sub => .vmBytes (encodeBytes .sub)
  | .xor => .vmBytes (encodeBytes .xor)
  | .aptr imm8 => .vmBytes (encodeBytes (.aptr imm8))
  | .jez imm32 => .vmBytes (encodeBytes (.jez imm32))
  | .jnz imm32 => .vmBytes (encodeBytes (.jnz imm32))
  | .mv dst src => .vmBytes (encodeBytes (.mv dst src))
  | .mvi dst imm8 => .vmBytes (encodeBytes (.mvi dst imm8))
  | .mv32 dst src => .vmBytes (encodeBytes (.mv32 dst src))
  | .mvi32 dst imm32 => .vmBytes (encodeBytes (.mvi32 dst imm32))

/-- Whether a table word is a word for CTRL: the rows of more than one byte with START set are the job commands, every
VM row has one byte of bits (spec/opcode_table.json; log 13). -/
def isCtrlTableWord (nbits w : Nat) : Bool :=
  decide (8 < nbits) && decide (nbits ≤ 32) && w.testBit 8

/-- The five bytes of a table word, the first byte in its low bits: five is the longest instruction (R120). -/
def tableBytes (w : Nat) : List Byte :=
  [BitVec.ofNat 8 w, BitVec.ofNat 8 (w >>> 8), BitVec.ofNat 8 (w >>> 16), BitVec.ofNat 8 (w >>> 24),
   BitVec.ofNat 8 (w >>> 32)]

/-- A table word as the hardware is given it: a word for CTRL, or bytes in VM memory with the operand bytes zero. -/
def tableEncoded (nbits w : Nat) : Encoded :=
  if isCtrlTableWord nbits w then .ctrlWord (BitVec.ofNat 32 (w % 2 ^ nbits))
  else .vmBytes (tableBytes (w % 2 ^ nbits))

/-- The instruction the decoder reads from a word numbered as spec/opcode_table.json numbers it (log 13). -/
def decodeTableWord (nbits w : Nat) : Option Instr :=
  decode (tableEncoded nbits w)

end Sys2Proof
end

