-- ==== Sys2Proof/Machine/Bytes.lean ====
section
/-! DEFINITION. Byte strings (00_scope.md R11): elements, slices, big-endian values. -/

namespace Sys2Proof.Machine

/-- s[i]; the units read inside their input only (log 17). -/
def byteAt (s : List Byte) (i : Nat) : Byte :=
  s.getD i 0

/-- s[i .. j). -/
def slice (s : List Byte) (i j : Nat) : List Byte :=
  (s.drop i).take (j - i)

/-- The big-endian value of a byte string. -/
def beVal : List Byte → Nat
  | [] => 0
  | b :: t => b.toNat * 256 ^ t.length + beVal t

/-- be16(s, i). -/
def be16 (s : List Byte) (i : Nat) : Nat :=
  (byteAt s i).toNat * 256 + (byteAt s (i + 1)).toNat

/-- be32(s, i). -/
def be32 (s : List Byte) (i : Nat) : Nat :=
  be16 s i * 65536 + be16 s (i + 2)

/-- to_be(v, n): the n-byte big-endian string of v. -/
def toBe (v : Nat) : Nat → List Byte
  | 0 => []
  | n + 1 => BitVec.ofNat 8 (v / 256 ^ n) :: toBe v n

/-- The bytewise XOR of two strings, as long as the shorter. -/
def xorBytes (s t : List Byte) : List Byte :=
  List.zipWith (· ^^^ ·) s t

end Sys2Proof.Machine
end

