-- ==== Sys2Proof/Machine/Ascii85.lean ====
section
/-! DEFINITION. The ASCII85 unit (40_ascii85.md R150–R158). -/

namespace Sys2Proof.Machine

/-- The character classes of R150. -/
inductive CharClass
  | alpha
  | zero
  | tilde
  | ws
  | other
  deriving DecidableEq, Repr

/-- The class of an input byte (R150). -/
def charClass (v : Byte) : CharClass :=
  let n := v.toNat
  if 0x21 ≤ n ∧ n ≤ 0x75 then .alpha
  else if n = 0x7A then .zero
  else if n = 0x7E then .tilde
  else if n = 0x09 ∨ n = 0x0A ∨ n = 0x0D ∨ n = 0x20 then .ws
  else .other

/-- The digit value of a group character (R150, R153). -/
def a85Digit (v : Byte) : Nat :=
  v.toNat - 33

/-- Digit k of a group, padded with 84, the digit of `u` (R153). -/
def groupDigit (g : List Byte) (k : Nat) : Nat :=
  if k < g.length then a85Digit (byteAt g k) else 84

/-- The value of a padded group (R153). -/
def groupValue (g : List Byte) : Nat :=
  groupDigit g 0 * 85 ^ 4 + groupDigit g 1 * 85 ^ 3 + groupDigit g 2 * 85 ^ 2 + groupDigit g 3 * 85 + groupDigit g 4

/-- GROUP DECODE (R153) of a group of 1 to 5 characters that starts at input offset p. -/
def decodeGroup (g : List Byte) (p : Nat) : UnitResult :=
  if groupValue g > 0xFFFFFFFF then .err .a85Overflow p
  else .ok ((toBe (groupValue g) 4).take (g.length - 1))

/-- The end of a group in progress: nothing when no character has been collected. -/
def closeGroup (g : List Byte) (p : Nat) : UnitResult :=
  if g = [] then .ok [] else decodeGroup g p

/-- After the end marker only white space is allowed (R155); i is the input offset of the rest. -/
def a85Trailing : List Byte → Nat → List Byte → UnitResult
  | [], _, out => .ok out
  | b :: t, i, out => if charClass b = .ws then a85Trailing t (i + 1) out else .err .a85ParseError i

/-- What one byte does to the scan: it ends it, or it goes on with a group in progress, the offset of that group's first
byte and the output so far. -/
inductive ScanStep
  | stop (r : UnitResult)
  | go (g : List Byte) (p : Nat) (out : List Byte)
  deriving DecidableEq, Repr

/-- The scan goes on with a group's bytes, or stops with its error (R155 "if r is Err: return r"). -/
def afterGroup (r : UnitResult) (k : List Byte → ScanStep) : ScanStep :=
  match r with
  | .err code info => .stop (.err code info)
  | .ok bytes => k bytes

/-- The end marker: a `~` at offset i must be followed by `>`, and only white space may come after (R155). -/
def a85EndMarker (i : Nat) (out : List Byte) : List Byte → UnitResult
  | [] => .err .a85ParseError i
  | e :: u => if e = 0x3E then a85Trailing u (i + 2) out else .err .a85ParseError i

/-- One byte `b` at input offset `i`, with the bytes `t` after it (R155, R151, R152). A group ends at its fifth
character or at the first byte that is not ALPHA; with SKIP white space inside it is passed over. -/
def a85Step (mode : A85Ws) (b : Byte) (t : List Byte) (i : Nat) (g : List Byte) (p : Nat) (out : List Byte) :
    ScanStep :=
  let start := if g = [] then i else p
  match charClass b with
  | .alpha =>
    if g.length = 4 then afterGroup (decodeGroup (g ++ [b]) start) fun bytes => .go [] i (out ++ bytes)
    else .go (g ++ [b]) start out
  | .zero => afterGroup (closeGroup g p) fun bytes => .go [] i (out ++ bytes ++ [0, 0, 0, 0])
  | .ws =>
    if mode = .skip ∧ g ≠ [] then .go g p out
    else afterGroup (closeGroup g p) fun bytes => .go [] i (out ++ bytes)
  | .tilde => afterGroup (closeGroup g p) fun bytes => .stop (a85EndMarker i (out ++ bytes) t)
  | .other => afterGroup (closeGroup g p) fun _ => .stop (.err .a85InvalidCharacter i)

/-- The input ends at offset i with no end marker: a group in progress is decoded first, then it is a parse error
(R155). -/
def a85NoEnd (g : List Byte) (p i : Nat) : UnitResult :=
  match closeGroup g p with
  | .err code info => .err code info
  | .ok _ => .err .a85ParseError i

/-- The loop of R155 as one pass over the rest of the input: `i` is the offset of its first byte, `g` the group in
progress, `p` the offset of that group's first byte, `out` the output so far. -/
def a85Scan (mode : A85Ws) : List Byte → Nat → List Byte → Nat → List Byte → UnitResult
  | [], i, g, p, _ => a85NoEnd g p i
  | b :: t, i, g, p, out =>
    match a85Step mode b t i g p out with
    | .stop r => r
    | .go g' p' out' => a85Scan mode t (i + 1) g' p' out'

/-- F_ASCII85 (R155): the input begins with the start marker `<~`. -/
def fAscii85 (mode : A85Ws) : List Byte → UnitResult
  | c0 :: c1 :: t => if c0 = 0x3C ∧ c1 = 0x7E then a85Scan mode t 2 [] 2 [] else .err .a85ParseError 0
  | _ => .err .a85ParseError 0

end Sys2Proof.Machine
end

