-- ==== Sys2Proof/Machine/Bitflip.lean ====
section
/-! DEFINITION. The BITFLIP unit (41_bit_transposer.md R190–R192). -/

namespace Sys2Proof.Machine

/-- FLIP-ROTATE (R190): XOR with 0x55, then rotate right by one. -/
def flipRotate (x : Byte) : Byte :=
  (x ^^^ 0x55).rotateRight 1

/-- F_BITFLIP (R191). -/
def fBitflip (s : List Byte) : UnitResult :=
  .ok (s.map flipRotate)

end Sys2Proof.Machine
end

