-- ==== Sys2Proof/Machine/Packet.lean ====
section
/-! DEFINITION. The PACKET unit (43_packet_extractor.md R220–R232). -/

namespace Sys2Proof.Machine

/-- The fold of the running sum (R222): past 0xFFFF, subtract 0xFFFF. -/
def foldCarry (sum : Nat) : Nat :=
  if sum > 0xFFFF then sum - 0xFFFF else sum

/-- The loop of R222 from a running sum; an odd last byte is the high byte of a word. -/
def csumFrom (sum : Nat) : List Byte → Nat
  | [] => sum
  | [x] => foldCarry (sum + x.toNat * 256)
  | x :: y :: t => csumFrom (foldCarry (sum + (x.toNat * 256 + y.toNat))) t

/-- ONE'S-COMPLEMENT SUM (R222). -/
def csum16 (d : List Byte) : Nat :=
  csumFrom 0 d

/-- (~v) & 0xFFFF of a 16-bit value. -/
def not16 (v : Nat) : Nat :=
  0xFFFF - v

/-- p with the two bytes at i set to 0. -/
def zeroed2 (p : List Byte) (i : Nat) : List Byte :=
  (p.set i 0).set (i + 1) 0

/-- CHECK 1 (R224): the IPv4 header checksum, field `ipck` at offset 10 (R223). -/
def ipOk (mode : IpCsumMode) (p : List Byte) : Bool :=
  match mode with
  | .compare => decide (not16 (csum16 (zeroed2 (slice p 0 20) 10)) = be16 p 10)
  | .sumFFFF => decide (csum16 (slice p 0 20) = 0xFFFF)

/-- CHECK 2 (R225): the source address. -/
def srcOk (prm : Params) (p : List Byte) : Bool :=
  decide (be32 p 12 = prm.authSrc.toNat)

/-- CHECK 3 (R225): the destination address. -/
def dstOk (prm : Params) (p : List Byte) : Bool :=
  decide (be32 p 16 = prm.authDst.toNat)

/-- The pseudo-header of R226 for a datagram of L bytes: both addresses from the packet, 0, 17, L. -/
def pseudoHeader (p : List Byte) (len : Nat) : List Byte :=
  slice p 12 16 ++ slice p 16 20 ++ [0x00, 0x11] ++ toBe len 2

/-- CHECK 4 (R226): the UDP checksum over the pseudo-header and the datagram p[20 .. tl) with its checksum field
excluded; `udpck` is at offset 26 (R223). -/
def udpOk (p : List Byte) : Bool :=
  decide (not16 (csum16 (pseudoHeader p (p.length - 20) ++ zeroed2 (slice p 20 p.length) 6)) = be16 p 26)

/-- CHECK 5 (R227): the destination port. -/
def portOk (prm : Params) (p : List Byte) : Bool :=
  decide (be16 p 22 = prm.authDport.toNat)

/-- ACCEPTANCE (R228) of a packet of tl = len(p) bytes. -/
def acceptPacket (prm : Params) (p : List Byte) : Bool :=
  ipOk prm.ipCsumMode p && srcOk prm p && dstOk prm p && udpOk p && portOk prm p

/-- What a packet contributes to the output (R228): its payload p[28 .. tl), or nothing. -/
def contribution (prm : Params) (p : List Byte) : List Byte :=
  if acceptPacket prm p then slice p 28 p.length else []

/-- The scan of R229 over the rest of the input at offset `off`. Each packet takes at least 28 bytes, so as much fuel
as the input has bytes is never used up. -/
def packetScan (prm : Params) : Nat → Nat → List Byte → List Byte → UnitResult
  | 0, _, _, out => .ok out
  | fuel + 1, off, rest, out =>
    if rest.length < 20 then .ok out
    else
      let tl := be16 rest 2
      if tl < 28 ∨ tl > rest.length then .err .pktMalformed off
      else packetScan prm fuel (off + tl) (rest.drop tl) (out ++ contribution prm (rest.take tl))

/-- F_PACKET (R229). -/
def fPacket (prm : Params) (s : List Byte) : UnitResult :=
  packetScan prm s.length 0 s []

end Sys2Proof.Machine
end

