-- ==== Sys2Proof/Machine/Parity.lean ====
section
/-! DEFINITION. The PARITY unit (42_parity_repacker.md R200–R204). -/

namespace Sys2Proof.Machine

/-- The data bits of a byte, x[7] first, x[1] last (R201). -/
def dataBits (x : Byte) : List Bool :=
  [x.getLsbD 7, x.getLsbD 6, x.getLsbD 5, x.getLsbD 4, x.getLsbD 3, x.getLsbD 2, x.getLsbD 1]

/-- PARITY CHECK (R200): the number of 1 bits among x[7:1], modulo 2, is x[0]. -/
def parityValid (x : Byte) : Bool :=
  decide (((dataBits x).count true) % 2 = (x.getLsbD 0).toNat)

/-- The bit stream of all valid bytes in order (R201, R203). -/
def parityBits (s : List Byte) : List Bool :=
  (s.filter parityValid).flatMap dataBits

/-- The byte of eight bits, the first the most significant (R202). -/
def byteOfBits (b7 b6 b5 b4 b3 b2 b1 b0 : Bool) : Byte :=
  BitVec.ofNat 8 (b7.toNat * 128 + b6.toNat * 64 + b5.toNat * 32 + b4.toNat * 16 + b3.toNat * 8 + b2.toNat * 4
    + b1.toNat * 2 + b0.toNat)

/-- PACKING (R202): whole groups of eight bits; fewer than eight trailing bits are dropped. -/
def packBits : List Bool → List Byte
  | b7 :: b6 :: b5 :: b4 :: b3 :: b2 :: b1 :: b0 :: t => byteOfBits b7 b6 b5 b4 b3 b2 b1 b0 :: packBits t
  | _ => []

/-- F_PARITY (R203). -/
def fParity (s : List Byte) : UnitResult :=
  .ok (packBits (parityBits s))

end Sys2Proof.Machine
end

