-- ==== Sys2Proof/Machine/Aes.lean ====
section
/-! DEFINITION. The AES-256 block cipher (45_aes_block_cipher.md R290–R299). -/

namespace Sys2Proof.Machine

/-- One column of the cipher state, or one four-byte word of the key schedule: row 0 first (R291, R296). -/
structure Col where
  s0 : Byte
  s1 : Byte
  s2 : Byte
  s3 : Byte
  deriving DecidableEq, Repr

/-- The 4 × 4 cipher state, column 0 first (R291), or a round key (R295). -/
structure Block where
  c0 : Col
  c1 : Col
  c2 : Col
  c3 : Col
  deriving DecidableEq, Repr

/-- Four bytes as a column. -/
def colOf (b : List Byte) (i : Nat) : Col :=
  ⟨byteAt b i, byteAt b (i + 1), byteAt b (i + 2), byteAt b (i + 3)⟩

/-- The bytes of a column. -/
def Col.bytes (w : Col) : List Byte :=
  [w.s0, w.s1, w.s2, w.s3]

/-- Load a 16-byte block: st[r][c] = b[r + 4c] (R291). -/
def loadBlock (b : List Byte) : Block :=
  ⟨colOf b 0, colOf b 4, colOf b 8, colOf b 12⟩

/-- Read the block back (R291). -/
def Block.bytes (st : Block) : List Byte :=
  st.c0.bytes ++ st.c1.bytes ++ st.c2.bytes ++ st.c3.bytes

/-- xtime (R292): times 2 in GF(2^8), reduced by 0x11B. -/
def xtime (x : Byte) : Byte :=
  if x.getLsbD 7 then (x <<< 1) ^^^ 0x1B else x <<< 1

/-- The field product (R292): the XOR of xtime^k(x) over the bits k set in y. -/
def gmul (x y : Byte) : Byte :=
  let term (k : Nat) (p : Byte) : Byte := if y.getLsbD k then p else 0
  let p1 := xtime x
  let p2 := xtime p1
  let p3 := xtime p2
  let p4 := xtime p3
  let p5 := xtime p4
  let p6 := xtime p5
  let p7 := xtime p6
  term 0 x ^^^ term 1 p1 ^^^ term 2 p2 ^^^ term 3 p3 ^^^ term 4 p4 ^^^ term 5 p5 ^^^ term 6 p6 ^^^ term 7 p7

/-- The rows of the S-box table (R293), each the sixteen bytes of the row in reading order as one number. -/
def sboxRow : Nat → Nat
  | 0x0 => 0x637C777BF26B6FC53001672BFED7AB76
  | 0x1 => 0xCA82C97DFA5947F0ADD4A2AF9CA472C0
  | 0x2 => 0xB7FD9326363FF7CC34A5E5F171D83115
  | 0x3 => 0x04C723C31896059A071280E2EB27B275
  | 0x4 => 0x09832C1A1B6E5AA0523BD6B329E32F84
  | 0x5 => 0x53D100ED20FCB15B6ACBBE394A4C58CF
  | 0x6 => 0xD0EFAAFB434D338545F9027F503C9FA8
  | 0x7 => 0x51A3408F929D38F5BCB6DA2110FFF3D2
  | 0x8 => 0xCD0C13EC5F974417C4A77E3D645D1973
  | 0x9 => 0x60814FDC222A908846EEB814DE5E0BDB
  | 0xA => 0xE0323A0A4906245CC2D3AC629195E479
  | 0xB => 0xE7C8376D8DD54EA96C56F4EA657AAE08
  | 0xC => 0xBA78252E1CA6B4C6E8DD741F4BBD8B8A
  | 0xD => 0x703EB5664803F60E613557B986C11D9E
  | 0xE => 0xE1F8981169D98E949B1E87E9CE5528DF
  | _ => 0x8CA1890DBFE6426841992D0FB054BB16

/-- The rows of the inverse S-box table (R294). -/
def invSboxRow : Nat → Nat
  | 0x0 => 0x52096AD53036A538BF40A39E81F3D7FB
  | 0x1 => 0x7CE339829B2FFF87348E4344C4DEE9CB
  | 0x2 => 0x547B9432A6C2233DEE4C950B42FAC34E
  | 0x3 => 0x082EA16628D924B2765BA2496D8BD125
  | 0x4 => 0x72F8F66486689816D4A45CCC5D65B692
  | 0x5 => 0x6C704850FDEDB9DA5E154657A78D9D84
  | 0x6 => 0x90D8AB008CBCD30AF7E45805B8B34506
  | 0x7 => 0xD02C1E8FCA3F0F02C1AFBD0301138A6B
  | 0x8 => 0x3A9111414F67DCEA97F2CFCEF0B4E673
  | 0x9 => 0x96AC7422E7AD3585E2F937E81C75DF6E
  | 0xA => 0x47F11A711D29C5896FB7620EAA18BE1B
  | 0xB => 0xFC563E4BC6D279209ADBC0FE78CD5AF4
  | 0xC => 0x1FDDA8338807C731B11210592780EC5F
  | 0xD => 0x60517FA919B54A0D2DE57A9F93C99CEF
  | 0xE => 0xA0E03B4DAE2AF5B0C8EBBB3C83539961
  | _ => 0x172B047EBA77D626E169146355210C7D

/-- Entry `lo` of a table row: the leftmost is entry 0. -/
def rowEntry (row lo : Nat) : Byte :=
  BitVec.ofNat 8 (row >>> (8 * (15 - lo)))

/-- SBOX[x] (R293). -/
def sbox (x : Byte) : Byte :=
  rowEntry (sboxRow (x.toNat / 16)) (x.toNat % 16)

/-- INV_SBOX[x] (R294). -/
def invSbox (x : Byte) : Byte :=
  rowEntry (invSboxRow (x.toNat / 16)) (x.toNat % 16)

/-- A byte function on every byte of a column. -/
def Col.map (g : Byte → Byte) (w : Col) : Col :=
  ⟨g w.s0, g w.s1, g w.s2, g w.s3⟩

/-- Bytewise XOR of two columns. -/
def Col.xor (w u : Col) : Col :=
  ⟨w.s0 ^^^ u.s0, w.s1 ^^^ u.s1, w.s2 ^^^ u.s2, w.s3 ^^^ u.s3⟩

/-- A column function on every column of a block. -/
def Block.mapCols (g : Col → Col) (st : Block) : Block :=
  ⟨g st.c0, g st.c1, g st.c2, g st.c3⟩

/-- SubBytes (R295). -/
def subBytes (st : Block) : Block :=
  st.mapCols (Col.map sbox)

/-- InvSubBytes (R295). -/
def invSubBytes (st : Block) : Block :=
  st.mapCols (Col.map invSbox)

/-- ShiftRows (R295): st'[r][c] = st[r][(c + r) mod 4]. -/
def shiftRows (st : Block) : Block :=
  ⟨⟨st.c0.s0, st.c1.s1, st.c2.s2, st.c3.s3⟩,
   ⟨st.c1.s0, st.c2.s1, st.c3.s2, st.c0.s3⟩,
   ⟨st.c2.s0, st.c3.s1, st.c0.s2, st.c1.s3⟩,
   ⟨st.c3.s0, st.c0.s1, st.c1.s2, st.c2.s3⟩⟩

/-- InvShiftRows (R295): st'[r][c] = st[r][(c − r) mod 4]. -/
def invShiftRows (st : Block) : Block :=
  ⟨⟨st.c0.s0, st.c3.s1, st.c2.s2, st.c1.s3⟩,
   ⟨st.c1.s0, st.c0.s1, st.c3.s2, st.c2.s3⟩,
   ⟨st.c2.s0, st.c1.s1, st.c0.s2, st.c3.s3⟩,
   ⟨st.c3.s0, st.c2.s1, st.c1.s2, st.c0.s3⟩⟩

/-- MixColumns on one column (R295). -/
def mixCol (w : Col) : Col :=
  ⟨gmul w.s0 2 ^^^ gmul w.s1 3 ^^^ w.s2 ^^^ w.s3,
   w.s0 ^^^ gmul w.s1 2 ^^^ gmul w.s2 3 ^^^ w.s3,
   w.s0 ^^^ w.s1 ^^^ gmul w.s2 2 ^^^ gmul w.s3 3,
   gmul w.s0 3 ^^^ w.s1 ^^^ w.s2 ^^^ gmul w.s3 2⟩

/-- InvMixColumns on one column (R295). -/
def invMixCol (w : Col) : Col :=
  ⟨gmul w.s0 14 ^^^ gmul w.s1 11 ^^^ gmul w.s2 13 ^^^ gmul w.s3 9,
   gmul w.s0 9 ^^^ gmul w.s1 14 ^^^ gmul w.s2 11 ^^^ gmul w.s3 13,
   gmul w.s0 13 ^^^ gmul w.s1 9 ^^^ gmul w.s2 14 ^^^ gmul w.s3 11,
   gmul w.s0 11 ^^^ gmul w.s1 13 ^^^ gmul w.s2 9 ^^^ gmul w.s3 14⟩

/-- MixColumns (R295). -/
def mixColumns (st : Block) : Block :=
  st.mapCols mixCol

/-- InvMixColumns (R295). -/
def invMixColumns (st : Block) : Block :=
  st.mapCols invMixCol

/-- AddRoundKey (R295): rk[4c + r] is row r of column c. -/
def addRoundKey (rk st : Block) : Block :=
  ⟨st.c0.xor rk.c0, st.c1.xor rk.c1, st.c2.xor rk.c2, st.c3.xor rk.c3⟩

/-- RotWord (R296). -/
def rotWord (w : Col) : Col :=
  ⟨w.s1, w.s2, w.s3, w.s0⟩

/-- SubWord (R296). -/
def subWord (w : Col) : Col :=
  w.map sbox

/-- The last eight words of the key schedule, oldest first. -/
structure KeyWindow where
  w0 : Col
  w1 : Col
  w2 : Col
  w3 : Col
  w4 : Col
  w5 : Col
  w6 : Col
  w7 : Col
  deriving DecidableEq, Repr

/-- The next word of the schedule (R296): w[i] = w[i − 8] ^ temp, temp made of w[i − 1]. -/
def nextKeyWord (k : KeyWindow) (i : Nat) (rc : Byte) : Col :=
  if i % 8 = 0 then k.w0.xor ((subWord (rotWord k.w7)).xor ⟨rc, 0, 0, 0⟩)
  else if i % 8 = 4 then k.w0.xor (subWord k.w7)
  else k.w0.xor k.w7

/-- The words w[i], w[i + 1], …, n of them (R296); `rc` is the round constant of the next i divisible by 8. -/
def keyWordsFrom : Nat → KeyWindow → Nat → Byte → List Col
  | 0, _, _, _ => []
  | n + 1, k, i, rc =>
    let w := nextKeyWord k i rc
    w :: keyWordsFrom n ⟨k.w1, k.w2, k.w3, k.w4, k.w5, k.w6, k.w7, w⟩ (i + 1) (if i % 8 = 0 then xtime rc else rc)

/-- Words in fours are round keys (R296). -/
def groupWords : List Col → List Block
  | w0 :: w1 :: w2 :: w3 :: t => ⟨w0, w1, w2, w3⟩ :: groupWords t
  | _ => []

/-- RoundKey(0) to RoundKey(14) of a 32-byte key (R296). -/
def roundKeys (key : List Byte) : List Block :=
  groupWords
    ([colOf key 0, colOf key 4, colOf key 8, colOf key 12, colOf key 16, colOf key 20, colOf key 24, colOf key 28]
      ++ keyWordsFrom 52
        ⟨colOf key 0, colOf key 4, colOf key 8, colOf key 12, colOf key 16, colOf key 20, colOf key 24, colOf key 28⟩
        8 1)

/-- The rounds of AES256_Encrypt after the first key (R297): the last key in the list ends the cipher. -/
def encryptRounds : List Block → Block → Block
  | [], st => st
  | [rk], st => addRoundKey rk (shiftRows (subBytes st))
  | rk :: rks, st => encryptRounds rks (addRoundKey rk (mixColumns (shiftRows (subBytes st))))

/-- AES256_Encrypt on the round keys in the order 0 to 14 (R297). -/
def encryptWith (rks : List Block) (st : Block) : Block :=
  match rks with
  | [] => st
  | rk :: rest => encryptRounds rest (addRoundKey rk st)

/-- The rounds of AES256_Decrypt after the first key (R297). -/
def decryptRounds : List Block → Block → Block
  | [], st => st
  | [rk], st => addRoundKey rk (invSubBytes (invShiftRows st))
  | rk :: rks, st => decryptRounds rks (invMixColumns (addRoundKey rk (invSubBytes (invShiftRows st))))

/-- AES256_Decrypt on the round keys in the order 14 to 0 (R297). -/
def decryptWith (rks : List Block) (st : Block) : Block :=
  match rks with
  | [] => st
  | rk :: rest => decryptRounds rest (addRoundKey rk st)

/-- AES256_Encrypt (R290, R297). -/
def aesEncrypt (key : List Byte) (block : List Byte) : List Byte :=
  (encryptWith (roundKeys key) (loadBlock block)).bytes

/-- AES256_Decrypt (R290, R297). -/
def aesDecrypt (key : List Byte) (block : List Byte) : List Byte :=
  (decryptWith (roundKeys key).reverse (loadBlock block)).bytes

end Sys2Proof.Machine
end

