-- ==== Sys2Proof/Machine/Unwrap.lean ====
section
/-! DEFINITION. The UNWRAP unit: key unwrap, integrity check, counter mode (44_key_unwrap_ctr.md R260–R266). -/

namespace Sys2Proof.Machine

/-- The working state of the unwrap: A and the four key blocks (R262). -/
structure WrapState where
  a : U64
  r0 : List Byte
  r1 : List Byte
  r2 : List Byte
  r3 : List Byte
  deriving DecidableEq, Repr

/-- R[k]. -/
def WrapState.getR (w : WrapState) (k : Nat) : List Byte :=
  match k with
  | 0 => w.r0
  | 1 => w.r1
  | 2 => w.r2
  | _ => w.r3

/-- R[k] <- x. -/
def WrapState.setR (w : WrapState) (k : Nat) (x : List Byte) : WrapState :=
  match k with
  | 0 => { w with r0 := x }
  | 1 => { w with r1 := x }
  | 2 => { w with r2 := x }
  | _ => { w with r3 := x }

/-- be64 of a byte string (R262). -/
def be64 (b : List Byte) : U64 :=
  BitVec.ofNat 64 (beVal b)

/-- One round of the unwrap with loop variables j and i (R262): t = 4j + i, a 64-bit big-endian number. -/
def unwrapRound (kek : List Byte) (j i : Nat) (w : WrapState) : WrapState :=
  let t : U64 := BitVec.ofNat 64 (4 * j + i)
  let b := aesDecrypt kek (toBe (w.a ^^^ t).toNat 8 ++ w.getR (i - 1))
  { w.setR (i - 1) (slice b 8 16) with a := be64 (slice b 0 8) }

/-- The four rounds i = 4, 3, 2, 1 of one j (R262). -/
def unwrapPass (kek : List Byte) (j : Nat) (w : WrapState) : WrapState :=
  unwrapRound kek j 1 (unwrapRound kek j 2 (unwrapRound kek j 3 (unwrapRound kek j 4 w)))

/-- All 24 rounds, j = 5 down to 0 (R262). -/
def unwrapKey (kek : List Byte) (w : WrapState) : WrapState :=
  unwrapPass kek 0 (unwrapPass kek 1 (unwrapPass kek 2 (unwrapPass kek 3 (unwrapPass kek 4 (unwrapPass kek 5 w)))))

/-- CEK = R0 ‖ R1 ‖ R2 ‖ R3 (R262). -/
def WrapState.cek (w : WrapState) : List Byte :=
  w.r0 ++ w.r1 ++ w.r2 ++ w.r3

/-- The next counter block (R264): the spec defines the increment of the whole 128 bits, wrapping at 2^128. -/
def nextCounter (width : CtrIncWidth) (ctr : U128) : U128 :=
  match width with
  | .full128 => ctr + 1

/-- The keystream block of a counter (R264). -/
def keystream (cek : List Byte) (ctr : U128) : List Byte :=
  aesEncrypt cek (toBe ctr.toNat 16)

/-- n blocks of counter mode from counter `ctr` (R264); a last block shorter than 16 bytes uses the first keystream
bytes. -/
def ctrBlocks (width : CtrIncWidth) (cek : List Byte) : Nat → U128 → List Byte → List Byte
  | 0, _, _ => []
  | n + 1, ctr, p =>
    xorBytes (p.take 16) (keystream cek ctr) ++ ctrBlocks width cek n (nextCounter width ctr) (p.drop 16)

/-- COUNTER-MODE DECRYPTION (R264): ceil(len(P)/16) blocks. -/
def ctrDecrypt (width : CtrIncWidth) (cek : List Byte) (nonce : U128) (p : List Byte) : List Byte :=
  ctrBlocks width cek ((p.length + 15) / 16) nonce p

/-- The wrapped key of an input (R260): A at 40, R0 to R3 at 48. -/
def wrappedKey (s : List Byte) : WrapState where
  a := be64 (slice s 40 48)
  r0 := slice s 48 56
  r1 := slice s 56 64
  r2 := slice s 64 72
  r3 := slice s 72 80

/-- The key unwrap of an input: its KEK is bytes 0 to 31 (R260, R265). -/
def unwrapInput (s : List Byte) : WrapState :=
  unwrapKey (slice s 0 32) (wrappedKey s)

/-- F_UNWRAP (R265). -/
def fUnwrap (prm : Params) (s : List Byte) : UnitResult :=
  if s.length < 96 then .err .unwrapShortInput s.length
  else
    let w := unwrapInput s
    if prm.unwrapCheckIv && decide (w.a ≠ be64 (slice s 32 40)) then .err .unwrapIntegrity 0
    else .ok (ctrDecrypt prm.ctrIncWidth w.cek (BitVec.ofNat 128 (beVal (slice s 80 96))) (slice s 96 s.length))

end Sys2Proof.Machine
end

