-- ==== Sys2Proof/Machine/Turn.lean ====
section
/-! DEFINITION. Whose turn it is and what happens in it: the host's actions (20_memory.md R95), the VM's fetch
(46_bytecode_vm.md R321) and the end of a unit's job (10_state.md R34). -/

namespace Sys2Proof.Machine

/-- F_unit of the five units whose job is one transition (10_state.md R34). -/
def unitResult (prm : Params) : UnitFn → List Byte → UnitResult
  | .ascii85, input => fAscii85 prm.a85Ws input
  | .bitflip, input => fBitflip input
  | .parity, input => fParity input
  | .packet, input => fPacket prm input
  | .unwrap, input => fUnwrap prm input

/-- The bytes fetch can see at pc: at most five, the longest instruction (30_encoding.md R120). -/
def fetchWindow (v : VmState) : List Byte :=
  Memory.run v.mem v.pc.toNat 5

/-- Fetch (R321) from the current memory bytes: outside memory or cut short is VM_FETCH_OOB, an invalid opcode byte
VM_INVALID_OPCODE. -/
def vmFetch (v : VmState) : Except ErrCode Instr :=
  match decodeBytes (fetchWindow v) with
  | .ok (i, _) => .ok i
  | .error .noByte => .error .vmFetchOob
  | .error .invalidOpcode => .error .vmInvalidOpcode
  | .error .truncated => .error .vmFetchOob

/-- What a step does: run an instruction at a state, or something with an outcome of its own. -/
inductive Turn
  | run (i : Instr) (s : State)
  | other (o : Outcome)

/-- The block's own turn: with no job it does nothing (60_exceptions.md R392; log 14), a unit's job ends with its
result (R34; log 2), a VM run fetches and executes one instruction (R320). -/
def blockTurn (s : State) : Turn :=
  match s.job with
  | .none => .other (.next s)
  | .unit u input => .other (.next (finishJob s (unitResult s.params u input)))
  | .vm v => match vmFetch v with
    | .ok i => .run i s
    | .error code => .other (.next (jobFault s code v.pc))

/-- The value of a host register (10_state.md R31–R38); reserved bits and offsets read 0. -/
def regRead (s : State) (offset : Nat) : Word :=
  match offset with
  | 0x00 => s.func.zeroExtend 32
  | 0x04 => (0 : BitVec 16) ++ errByte s.err ++ (0 : BitVec 6) ++ stateBits s.state
  | 0x08 => s.inLen
  | 0x0C => s.outLen
  | 0x10 => s.errInfo
  | _ => 0

/-- A host write of CTRL that names no unit (10_state.md R34): ignored while BUSY; FUNC is stored; with START = 1 the
job ends at once with BAD_FUNC (30_encoding.md R111). -/
def ctrlWriteNoUnit (w : Word) (s : State) : State :=
  if s.state = .busy then s
  else if ctrlStart w then jobFault { s with func := ctrlFunc w } .badFunc ((ctrlFunc w).zeroExtend 32)
  else { s with func := ctrlFunc w }

/-- A host write of a register other than a job command (10_state.md R32, R33, R35–R38): read-only registers and
reserved offsets ignore it, and while BUSY so does every register. -/
def regWrite (s : State) (offset : Nat) (value : Word) : State :=
  match offset with
  | 0x00 => ctrlWriteNoUnit value s
  | 0x08 => if s.state = .busy then s else { s with inLen := value }
  | _ => s

/-- A host read of one byte of a buffer (20_memory.md R81, R95): while BUSY, and where the contents are unspecified, a
free value, a fresh draw (log 3). -/
def bufRead (s : State) (buf : Memory) (i : Nat) : State :=
  match s.state, Memory.get? buf i with
  | .busy, _ => { s with readData := (Config.freeByte s.draws).zeroExtend 32, draws := s.draws + 1 }
  | _, none => { s with readData := (Config.freeByte s.draws).zeroExtend 32, draws := s.draws + 1 }
  | _, some b => { s with readData := b.zeroExtend 32 }

/-- A host write of one byte of IN (20_memory.md R95): stored, or ignored while BUSY. -/
def inWrite (s : State) (i : Nat) (value : Byte) : State :=
  if s.state = .busy then s else { s with inBuf := Memory.set s.inBuf i value }

/-- Reset as a host action (70_reset_and_hazards.md R410, R412): everything takes its reset value but the parameters
and the model's own fields (log 10). -/
def resetBlock (s : State) : State :=
  { State.reset with params := s.params, host := s.host, readData := s.readData, draws := s.draws }

/-- A register access the host never makes is stopped by name (10_state.md R39, 20_memory.md R80, R95; log 7, log 8);
any other has the state `t` as its effect. -/
def regAccess (width offset : Nat) (t : State) : Outcome :=
  if width ≠ 32 then .refused .accessWidth
  else if offset % 4 ≠ 0 then .refused .unalignedOffset
  else if offset > 0xFF then .fault .noSuchRegister
  else .next t

/-- The job command that a host action is: a 32-bit write at offset 0 of a word that starts a unit. -/
def hostInstr : HostMove → Option Instr
  | .writeReg width offset value => if width = 32 ∧ offset = 0 then decodeCtrl value else none
  | .turn => none
  | .readReg _ _ => none
  | .readIn _ => none
  | .writeIn _ _ => none
  | .readOut _ => none
  | .writeOut _ _ => none
  | .reset => none

/-- A host action that is no job command (20_memory.md R95). A host write of OUT is ignored (R80). -/
def hostAccess (move : HostMove) (s : State) : Outcome :=
  match move with
  | .turn => .next s
  | .readReg width offset => regAccess width offset { s with readData := regRead s offset }
  | .writeReg width offset value => regAccess width offset (regWrite s offset value)
  | .readIn i => if i < s.params.inCap then .next (bufRead s s.inBuf i) else .refused .inIndex
  | .writeIn i value => if i < s.params.inCap then .next (inWrite s i value) else .refused .inIndex
  | .readOut i => if i < s.params.outCap then .next (bufRead s s.outBuf i) else .refused .outIndex
  | .writeOut i _ => if i < s.params.outCap then .next s else .refused .outIndex
  | .reset => .next (resetBlock s)

/-- The host's turn: a job command runs as an instruction, `turn` passes the turn to the block. -/
def hostTurn (move : HostMove) (s : State) : Turn :=
  match move with
  | .turn => blockTurn s
  | .readReg width offset => .other (hostAccess (.readReg width offset) s)
  | .writeReg width offset value =>
    match hostInstr (.writeReg width offset value) with
    | some i => .run i s
    | none => .other (hostAccess (.writeReg width offset value) s)
  | .readIn i => .other (hostAccess (.readIn i) s)
  | .writeIn i value => .other (hostAccess (.writeIn i value) s)
  | .readOut i => .other (hostAccess (.readOut i) s)
  | .writeOut i value => .other (hostAccess (.writeOut i value) s)
  | .reset => .other (hostAccess .reset s)

/-- The head of the host's list moves next; an empty list lets the block move (log 1). -/
def turn (s : State) : Turn :=
  match s.host with
  | [] => blockTurn s
  | move :: rest => hostTurn move { s with host := rest }

/-- Bytes stored at consecutive addresses of a memory. -/
def Memory.setBytes (m : Memory) (a : Nat) : List Byte → Memory
  | [] => m
  | b :: t => Memory.setBytes (Memory.set m a b) (a + 1) t

/-- The VM run that a VM instruction is placed in: the one that runs, or one that has just started on no image. -/
def vmOrInit (s : State) : VmState :=
  match s.job with
  | .vm v => v
  | .none => vmInit []
  | .unit _ _ => vmInit []

/-- Place an encoded instruction where the next step takes it (log 13): a word for CTRL as the host's next action; the
bytes of a VM instruction in the memory of a VM run at its pc, in a BUSY block whose host has nothing pending and whose
IN_LEN is the length of that memory. -/
def placeEncoded (s : State) : Encoded → State
  | .ctrlWord w => { s with host := .writeReg 32 0 w :: s.host }
  | .vmBytes bytes =>
    let v := vmOrInit s
    let mem := Memory.setBytes v.mem v.pc.toNat bytes
    { s with
      host := []
      func := 6
      state := .busy
      err := .none
      outLen := 0
      errInfo := 0
      inLen := BitVec.ofNat 32 (Memory.size mem)
      job := .vm { v with mem := mem } }

end Sys2Proof.Machine
end

