-- ==== Sys2Proof/Machine/Step.lean ====
section
/-! DEFINITION. One step of the block, and the placing of an instruction where the next step runs it. -/

namespace Sys2Proof.Machine

/-- One step: whoever's turn it is moves (Machine/Turn.lean). -/
def step (s : State) : Host.Outcome State Fault Refusal :=
  match turn s with
  | .run i t => exec i t
  | .other o => o

/-- `s` with the instruction of a table word placed so that `step` runs it next (log 13). -/
def State.withFetchWord (s : State) (nbits w : Nat) : State :=
  placeEncoded s (tableEncoded nbits w)

end Sys2Proof.Machine
end

