-- ==== Sys2Proof/Safety.lean ====
section
/-! DEFINITION. What the claims speak of: the invariant of the block, what an instruction may write, the shape of the
opcode map, and independent descriptions of what the units compute (the ASCII85 grammar, an ASCII85 encoder, the
keystream by position). -/

namespace Sys2Proof.Safety

open Sys2Proof.Machine

/-- A VM memory as the spec lays it out: exactly the addresses 0 to L − 1 (10_state.md R44, 20_memory.md R88). -/
def dense (m : Memory) : Bool :=
  decide (m.map Prod.fst = List.range m.length)

/-- Every listed address is below n. -/
def below (m : Memory) (n : Nat) : Bool :=
  m.all fun cell => decide (cell.1 < n)

/-- The FUNC code of a unit (30_encoding.md R110). -/
def unitCode : UnitFn → BitVec 3
  | .ascii85 => 0
  | .bitflip => 1
  | .parity => 2
  | .packet => 4
  | .unwrap => 5

/-- The job command of a unit (30_encoding.md R110). -/
def unitCommand : UnitFn → Instr
  | .ascii85 => .jobAscii85
  | .bitflip => .jobBitflip
  | .parity => .jobParity
  | .packet => .jobPacket
  | .unwrap => .jobUnwrap

/-- The FUNC code of a job command; a VM instruction has none. -/
def commandCode : Instr → Option (BitVec 3)
  | .jobAscii85 => some 0
  | .jobBitflip => some 1
  | .jobParity => some 2
  | .jobPacket => some 4
  | .jobUnwrap => some 5
  | .jobVm => some 6
  | .halt => none
  | .out => none
  | .cmp => none
  | .add => none
  | .sub => none
  | .xor => none
  | .aptr _ => none
  | .jez _ => none
  | .jnz _ => none
  | .mv _ _ => none
  | .mvi _ _ => none
  | .mv32 _ _ => none
  | .mvi32 _ _ => none

/-- What holds of the running job (10_state.md R34, R44, R45): its length is IN_LEN, which START found to be at most
IN_CAP, FUNC names its unit, and a VM run has a dense memory and an output of at most OUT_CAP bytes. -/
def jobOk (s : State) : Job → Prop
  | .none => True
  | .unit u input => input.length = s.inLen.toNat ∧ s.inLen.toNat ≤ s.params.inCap ∧ s.func = unitCode u
  | .vm v => dense v.mem = true ∧ Memory.size v.mem = s.inLen.toNat ∧ s.inLen.toNat ≤ s.params.inCap ∧
      v.out.length ≤ s.params.outCap ∧ s.func = 6

/-- The invariant of the block. -/
structure Inv (s : State) : Prop where
  /-- The parameters are in the ranges of 00_scope.md R8. -/
  params : s.params.ok = true
  /-- The buffers keep the canonical form and lie in their address spaces (20_memory.md R80). -/
  inWf : Memory.wf s.inBuf = true ∧ below s.inBuf s.params.inCap = true
  outWf : Memory.wf s.outBuf = true ∧ below s.outBuf s.params.outCap = true
  /-- BUSY is exactly "a job is running" (10_state.md R33). -/
  busy : s.state = .busy ↔ s.job ≠ .none
  /-- ERR and ERR_INFO are 0 unless STATE = ERROR (10_state.md R33, R37), and ERROR has a code. -/
  noErr : s.state ≠ .error → s.err = .none ∧ s.errInfo = 0
  someErr : s.state = .error → s.err ≠ .none
  /-- OUT_LEN is 0 unless STATE = DONE (10_state.md R36), and OUT holds nothing specified then (20_memory.md R81). -/
  noOut : s.state ≠ .done → s.outLen = 0 ∧ s.outBuf = []
  /-- In DONE, OUT_LEN is at most OUT_CAP (10_state.md R36) and OUT[0 .. OUT_LEN) holds the output (20_memory.md R81). -/
  someOut : s.state = .done →
    s.outLen.toNat ≤ s.params.outCap ∧ s.outBuf.map Prod.fst = List.range s.outLen.toNat
  /-- The running job. -/
  job : jobOk s s.job

/-- The next action of the host breaks no host duty (20_memory.md R95). -/
def hostKeepsDuty (s : State) : Bool :=
  match s.host with
  | [] => true
  | move :: _ => move.wellFormed s.params

/-- The state with this VM run as its job and everything else as it was. -/
def withVm (s : State) (v : VmState) : State :=
  { s with job := .vm v }

/-- The VM state with pc past an instruction of n bytes (10_state.md R43). -/
def past (v : VmState) (n : Word) : VmState :=
  { v with pc := v.pc + n }

/-- The 8-bit registers a VM instruction may write (46_bytecode_vm.md R330–R342). -/
def dest8 : Instr → List Reg8
  | .cmp => [.f]
  | .add => [.a]
  | .sub => [.a]
  | .xor => [.a]
  | .mv (.reg r) _ => [r]
  | .mvi (.reg r) _ => [r]
  | _ => []

/-- The 32-bit registers, pc apart, a VM instruction may write. -/
def dest32 : Instr → List Reg32
  | .aptr _ => [.ptr]
  | .mv32 dst _ => [dst]
  | .mvi32 dst _ => [dst]
  | _ => []

/-- The address a VM instruction stores to: the memory destination `(ptr+c)` (R322, R339, R340). -/
def storeAddr (v : VmState) : Instr → Option Nat
  | .mv .ptrC _ => some v.ea
  | .mvi .ptrC _ => some v.ea
  | _ => none

/-- The error codes a VM instruction can raise when it executes (46_bytecode_vm.md R343). -/
def execErrors : Instr → List ErrCode
  | .out => [.outOverflow]
  | .aptr _ => [.vmPtrOverflow]
  | .mv _ _ => [.vmMemOob]
  | .mvi _ _ => [.vmMemOob]
  | _ => []

/-- The opcode bytes that 30_encoding.md R123 does not mark invalid, as the table lists them. -/
def validOpcode (op : Byte) : Bool :=
  let n := op.toNat
  let kk := n / 64
  let ddd := n / 8 % 8
  let sss := n % 8
  decide (n ∈ [0x01, 0x02, 0x21, 0x22, 0xC1, 0xC2, 0xC3, 0xC4, 0xE1])
    || decide (kk = 1 ∧ 1 ≤ ddd)
    || decide (kk = 2 ∧ 1 ≤ ddd ∧ ddd ≤ 6 ∧ sss ≤ 6)

/-- The length of the format of a VM instruction (30_encoding.md R120). -/
def formatLength : Instr → Nat
  | .aptr _ => 2
  | .mvi _ _ => 2
  | .jez _ => 5
  | .jnz _ => 5
  | .mvi32 _ _ => 5
  | _ => 1

/-- The length that an opcode byte alone fixes (30_encoding.md R125). -/
def opcodeLength (op : Byte) : Nat :=
  let n := op.toNat
  if n = 0x21 ∨ n = 0x22 ∨ (n / 64 = 2 ∧ n % 8 = 0) then 5
  else if n = 0xE1 ∨ (n / 64 = 1 ∧ n % 8 = 0) then 2
  else 1

/-- The bytes IN holds from address 0, all written by the host (70_reset_and_hazards.md R416). -/
def hostWrote (s : State) (input : List Byte) : Prop :=
  s.inLen.toNat = input.length ∧ ∀ i, i < input.length → Memory.get? s.inBuf i = input[i]?

/-- A job that ended DONE with this output (10_state.md R34, R36): what the host can read of it. -/
def doneWith (s : State) (out : List Byte) : Prop :=
  s.state = .done ∧ s.err = .none ∧ s.errInfo = 0 ∧ s.outLen.toNat = out.length ∧
    ∀ i, Memory.get? s.outBuf i = out[i]?

/-- A job that ended ERROR with this code and detail (60_exceptions.md R380): no output, nothing specified in OUT,
no job. -/
def failedWith (s : State) (code : ErrCode) (info : Nat) : Prop :=
  s.state = .error ∧ s.err = code ∧ s.errInfo.toNat = info ∧ s.outLen = 0 ∧ s.outBuf = [] ∧ s.job = .none

/-- A piece of an ASCII85 payload (40_ascii85.md R151). -/
inductive Token
  | ws (b : Byte)
  | z
  | group (g : List Byte)
  deriving DecidableEq, Repr

/-- The bytes of a token. -/
def Token.bytes : Token → List Byte
  | .ws b => [b]
  | .z => [0x7A]
  | .group g => g

/-- A token of the grammar: white space, the zero marker, or 1 to 5 alphabet characters. -/
def Token.ok : Token → Bool
  | .ws b => decide (charClass b = .ws)
  | .z => true
  | .group g => decide (1 ≤ g.length ∧ g.length ≤ 5) && g.all fun b => decide (charClass b = .alpha)

/-- Maximal munch (40_ascii85.md R151): a group that another group follows at once has 5 characters. -/
def munched : List Token → Bool
  | .group g :: .group h :: t => decide (g.length = 5) && munched (.group h :: t)
  | _ :: t => munched t
  | [] => true

/-- What a token decodes to (40_ascii85.md R153, R154); nothing where the group's value is past 2^32 − 1. -/
def Token.output : Token → Option (List Byte)
  | .ws _ => some []
  | .z => some [0, 0, 0, 0]
  | .group g => if groupValue g ≤ 0xFFFFFFFF then some ((toBe (groupValue g) 4).take (g.length - 1)) else none

/-- The outputs of tokens in order, where all decode. -/
def tokensOutput : List Token → Option (List Byte)
  | [] => some []
  | k :: t => match k.output, tokensOutput t with
    | some x, some y => some (x ++ y)
    | _, _ => none

/-- The bytes of an input of the grammar (40_ascii85.md R151): markers, payload tokens, trailing white space. -/
def a85Text (tokens : List Token) (trail : List Byte) : List Byte :=
  [0x3C, 0x7E] ++ tokens.flatMap Token.bytes ++ [0x7E, 0x3E] ++ trail

/-- The ALPHA bytes a group can take from the start of `bytes` (40_ascii85.md R151): a run of ALPHA bytes, in which
with SKIP white space does not count (R152). -/
def groupRun : A85Ws → List Byte → List Byte
  | .split, bytes => bytes.takeWhile fun b => decide (charClass b = .alpha)
  | .skip, bytes =>
    (bytes.takeWhile fun b => decide (charClass b = .alpha ∨ charClass b = .ws)).filter
      fun b => decide (charClass b = .alpha)

/-- A group starts at offset k of the text (40_ascii85.md R151, maximal munch): an ALPHA byte whose run has a whole
number of groups of five between the start marker and k. -/
def startsGroup (mode : A85Ws) (text : List Byte) (k : Nat) : Prop :=
  (text[k]?.map charClass) = some .alpha ∧ (groupRun mode ((text.take k).drop 2).reverse).length % 5 = 0

/-- The group that starts at offset k: the first five characters of its run, or all of them. -/
def groupAt (mode : A85Ws) (text : List Byte) (k : Nat) : List Byte :=
  (groupRun mode (text.drop k)).take 5

/-- The scan finds no fault in the payload before offset k and is still in the payload there (40_ascii85.md R155): no
TILDE and no OTHER byte, and every group that starts there decodes. -/
def scansTo (mode : A85Ws) (text : List Byte) (k : Nat) : Prop :=
  2 ≤ k ∧ k ≤ text.length ∧ ∀ m, 2 ≤ m → m < k →
    charClass (byteAt text m) ≠ .tilde ∧ charClass (byteAt text m) ≠ .other ∧
    (startsGroup mode text m → groupValue (groupAt mode text m) ≤ 0xFFFFFFFF)

/-- Five base-85 digits of a value as characters, most significant first. -/
def a85Chars (value : Nat) : List Byte :=
  [BitVec.ofNat 8 (value / 85 ^ 4 % 85 + 33), BitVec.ofNat 8 (value / 85 ^ 3 % 85 + 33),
   BitVec.ofNat 8 (value / 85 ^ 2 % 85 + 33), BitVec.ofNat 8 (value / 85 % 85 + 33), BitVec.ofNat 8 (value % 85 + 33)]

/-- An encoder for the text the ASCII85 unit decodes ("packing 4 bytes into 5 printable characters", 00_scope.md R16):
four bytes give five characters, a last group of k bytes, padded with zeros, its first k + 1. -/
def a85Encode : List Byte → List Byte
  | b0 :: b1 :: b2 :: b3 :: t => a85Chars (beVal [b0, b1, b2, b3]) ++ a85Encode t
  | [b0, b1, b2] => (a85Chars (beVal [b0, b1, b2, 0])).take 4
  | [b0, b1] => (a85Chars (beVal [b0, b1, 0, 0])).take 3
  | [b0] => (a85Chars (beVal [b0, 0, 0, 0])).take 2
  | [] => []

/-- The sum of the 16-bit big-endian words of a string, an odd tail padded low (43_packet_extractor.md R222), with no
fold. -/
def wordSum : List Byte → Nat
  | [] => 0
  | [x] => x.toNat * 256
  | x :: y :: t => x.toNat * 256 + y.toNat + wordSum t

/-- A packet the scan can read whole: its total length field is its length, at least 28 (43_packet_extractor.md R229,
R230). -/
def readablePacket (p : List Byte) : Bool :=
  decide (28 ≤ p.length ∧ be16 p 2 = p.length)

/-- The end-around-carry sum of words whose plain sum is n (43_packet_extractor.md R222): 0 for 0, else the value from 1
to 0xFFFF that is congruent to n modulo 0xFFFF. -/
def endAround (n : Nat) : Nat :=
  if n = 0 then 0 else (n - 1) % 0xFFFF + 1

/-- The plain sum of the words of the IPv4 header but its checksum (43_packet_extractor.md R220, R224). -/
def headerSum (p : List Byte) : Nat :=
  be16 p 0 + be16 p 2 + be16 p 4 + be16 p 6 + be16 p 8 + be16 p 12 + be16 p 14 + be16 p 16 + be16 p 18

/-- The plain sum of the words the UDP checksum covers (43_packet_extractor.md R226): both addresses, 17, the length of
the datagram, the UDP header but its checksum, and the payload. -/
def datagramSum (p : List Byte) : Nat :=
  be16 p 12 + be16 p 14 + be16 p 16 + be16 p 18 + 17 + (p.length - 20) + be16 p 20 + be16 p 22 + be16 p 24
    + wordSum (p.drop 28)

/-- The five acceptance checks R224–R227 from the bytes of a packet and the parameters, with no fold of a running sum. -/
def passesChecks (prm : Params) (p : List Byte) : Bool :=
  (match prm.ipCsumMode with
    | .compare => decide (0xFFFF - endAround (headerSum p) = be16 p 10)
    | .sumFFFF => decide (endAround (headerSum p + be16 p 10) = 0xFFFF)) &&
  decide (byteAt p 12 ++ byteAt p 13 ++ byteAt p 14 ++ byteAt p 15 = prm.authSrc) &&
  decide (byteAt p 16 ++ byteAt p 17 ++ byteAt p 18 ++ byteAt p 19 = prm.authDst) &&
  decide (0xFFFF - endAround (datagramSum p) = be16 p 26) &&
  decide (byteAt p 22 ++ byteAt p 23 = prm.authDport)

/-- Keystream byte m of counter mode from a nonce (44_key_unwrap_ctr.md R264). -/
def keystreamByte (cek : List Byte) (nonce : U128) (m : Nat) : Byte :=
  byteAt (aesEncrypt cek (toBe ((nonce.toNat + m / 16) % 2 ^ 128) 16)) (m % 16)

/-- One round of a key wrap that undoes one round of the unwrap (44_key_unwrap_ctr.md R262), with t = 4j + i. -/
def wrapRound (kek : List Byte) (j i : Nat) (w : WrapState) : WrapState :=
  let b := aesEncrypt kek (toBe w.a.toNat 8 ++ w.getR (i - 1))
  { w.setR (i - 1) (slice b 8 16) with a := be64 (slice b 0 8) ^^^ BitVec.ofNat 64 (4 * j + i) }

/-- The four rounds of one j, in the order 1 to 4. -/
def wrapPass (kek : List Byte) (j : Nat) (w : WrapState) : WrapState :=
  wrapRound kek j 4 (wrapRound kek j 3 (wrapRound kek j 2 (wrapRound kek j 1 w)))

/-- A key wrap: all 24 rounds, j = 0 to 5. -/
def wrapKey (kek : List Byte) (w : WrapState) : WrapState :=
  wrapPass kek 5 (wrapPass kek 4 (wrapPass kek 3 (wrapPass kek 2 (wrapPass kek 1 (wrapPass kek 0 w)))))

/-- The input of an UNWRAP job that carries the wrapped key `w` (44_key_unwrap_ctr.md R260). -/
def unwrapJobInput (kek iv : List Byte) (w : WrapState) (nonce payload : List Byte) : List Byte :=
  kek ++ iv ++ toBe w.a.toNat 8 ++ w.r0 ++ w.r1 ++ w.r2 ++ w.r3 ++ nonce ++ payload

/-- The multiplicative inverse in GF(2^8), 0 for 0, as x^254 (45_aes_block_cipher.md R293 step 1). -/
def gfInverse (x : Byte) : Byte :=
  let x2 := gmul x x
  let x4 := gmul x2 x2
  let x8 := gmul x4 x4
  let x16 := gmul x8 x8
  let x32 := gmul x16 x16
  let x64 := gmul x32 x32
  let x128 := gmul x64 x64
  gmul x128 (gmul x64 (gmul x32 (gmul x16 (gmul x8 (gmul x4 x2)))))

/-- Bit j of the S-box result (45_aes_block_cipher.md R293 step 2). -/
def sboxBit (i : Byte) (j : Nat) : Bool :=
  i.getLsbD j ^^ i.getLsbD ((j + 4) % 8) ^^ i.getLsbD ((j + 5) % 8) ^^ i.getLsbD ((j + 6) % 8)
    ^^ i.getLsbD ((j + 7) % 8) ^^ (0x63#8).getLsbD j

end Sys2Proof.Safety
end

