-- ==== Sys2Proof/Certificates/Slice0/Obligations.lean ====
section
/-! DEFINITION. The statements for the provers. Each is about every state (and every choice of parameters, which a state
carries) unless a premise says otherwise. -/

open Sys2Proof Sys2Proof.Machine Sys2Proof.Safety

/-! ### Encoding and decoding (30_encoding.md) -/

/-- Decoding the encoding of any instruction gives it back, whatever bytes follow it in memory (R121, R123, R127). -/
def Obligations.DecodeOfEncodeGivesTheInstruction : Prop :=
  ∀ i : Instr, i.wellFormed = true →
    decode (encode i) = some i ∧
    (i.isVm = true → ∀ rest : List Byte, decodeBytes (encodeBytes i ++ rest) = .ok (i, rest))

/-- Bytes that decode are the encoding of what they decode to, so no two byte strings decode to one VM instruction. -/
def Obligations.DecodedBytesAreTheEncoding : Prop :=
  ∀ (bytes : List Byte) (i : Instr) (rest : List Byte), decodeBytes bytes = .ok (i, rest) →
    i.isVm = true ∧ bytes = encodeBytes i ++ rest

/-- R120, R125: the opcode byte alone fixes the length and the format. -/
def Obligations.OpcodeByteFixesTheLength : Prop :=
  (∀ i : Instr, i.isVm = true →
    (encodeBytes i).length = formatLength i ∧ (encodeBytes i).head?.map opcodeLength = some (formatLength i)) ∧
  ∀ (op : Byte) (r1 : List Byte) (i1 : Instr) (t1 : List Byte), decodeBytes (op :: r1) = .ok (i1, t1) →
    formatLength i1 = opcodeLength op ∧
    ∀ r2 : List Byte,
      (r2.length + 1 < opcodeLength op → decodeBytes (op :: r2) = .error .truncated) ∧
      (opcodeLength op ≤ r2.length + 1 →
        ∃ i2, decodeBytes (op :: r2) = .ok (i2, r2.drop (opcodeLength op - 1)) ∧ formatLength i2 = opcodeLength op)

/-- The opcode map R123: exactly the bytes it marks invalid are rejected as invalid, whatever follows them, and 107
bytes are valid. -/
def Obligations.InvalidOpcodeBytesAreThoseOfTheMap : Prop :=
  (∀ (op : Byte) (rest : List Byte), decodeBytes (op :: rest) = .error .invalidOpcode ↔ validOpcode op = false) ∧
  ((List.range 256).filter fun n => validOpcode (BitVec.ofNat 8 n)).length = 107

/-- Words written out from the spec's encodings and worked examples (46 R336–R342, 95 P1). -/
def Obligations.WrittenOutWordsDecode : Prop :=
  decodeBytes [0x50, 0x48] = .ok (.mvi (.reg .b) 72, []) ∧
  decodeBytes [0x4F] = .ok (.mv (.reg .a) .ptrC, []) ∧
  decodeBytes [0xA8, 0x4D, 0x00, 0x00, 0x00] = .ok (.mvi32 .ptr 0x4D, []) ∧
  decodeBytes [0xAA] = .ok (.mv32 .ptr .lb, []) ∧
  decodeBytes [0x22, 0x1D, 0x00, 0x00, 0x00] = .ok (.jnz 0x1D, []) ∧
  decodeBytes [0xE1, 0x01] = .ok (.aptr 1, []) ∧
  decodeBytes [0x88, 0x78, 0x56, 0x34, 0x12] = .ok (.mvi32 .la 0x12345678, []) ∧
  decodeCtrl 0x00000105 = some .jobUnwrap ∧
  decodeCtrl 0x00000103 = none

/-! ### Reset and the host interface (10_state.md, 20_memory.md, 70_reset_and_hazards.md) -/

/-- R48: the value of every piece of state after reset. "Unspecified" contents are bytes of which nothing is held. -/
def Obligations.ResetLeavesTheTabledValues : Prop :=
  State.reset.func = 0 ∧ State.reset.state = .idle ∧ State.reset.err = .none ∧ State.reset.inLen = 0 ∧
  State.reset.outLen = 0 ∧ State.reset.errInfo = 0 ∧ State.reset.job = .none ∧
  (∀ offset, regRead State.reset offset = 0) ∧
  (∀ i, Memory.get? State.reset.inBuf i = none ∧ Memory.get? State.reset.outBuf i = none)

/-- R410: reset has one effect whatever the block is doing: the job is abandoned and every piece of state takes its
reset value, but the parameters stay (R412). -/
def Obligations.HostResetAbandonsAnyJob : Prop :=
  ∀ (s : State) (rest : List HostMove), ∃ t,
    step { s with host := .reset :: rest } = .next t ∧
    t.job = .none ∧ t.state = .idle ∧ t.err = .none ∧ t.func = 0 ∧ t.inLen = 0 ∧ t.outLen = 0 ∧ t.errInfo = 0 ∧
    (∀ i, Memory.get? t.inBuf i = none ∧ Memory.get? t.outBuf i = none) ∧
    t.params = s.params

/-- R38 with R31 and R33: a register read returns the register and changes nothing else; reserved bits and offsets read
0; writes to read-only registers and reserved offsets change nothing, and of a CTRL write no reserved bit is kept. -/
def Obligations.RegisterReadsAndIgnoredWrites : Prop :=
  ∀ (s : State) (rest : List HostMove) (offset : Nat), offset % 4 = 0 → offset ≤ 0xFF →
    (∃ v : Word, step { s with host := .readReg 32 offset :: rest } = .next { s with host := rest, readData := v } ∧
      (offset = 0x00 → v.toNat = s.func.toNat) ∧
      (offset = 0x04 → v.toNat = (stateBits s.state).toNat + 256 * (errByte s.err).toNat) ∧
      (offset = 0x08 → v = s.inLen) ∧
      (offset = 0x0C → v = s.outLen) ∧
      (offset = 0x10 → v = s.errInfo) ∧
      (0x14 ≤ offset → v = 0)) ∧
    (∀ w : Word, offset ≠ 0x00 → offset ≠ 0x08 →
      step { s with host := .writeReg 32 offset w :: rest } = .next { s with host := rest }) ∧
    (∀ (w : Word) (t : State), step { s with host := .writeReg 32 0x00 w :: rest } = .next t →
      (regRead t 0x00).toNat < 8)

/-- R32: a write of CTRL stores FUNC and nothing else of the word; START reads 0; while BUSY it has no effect. -/
def Obligations.CtrlWriteStoresFunc : Prop :=
  ∀ (s : State) (rest : List HostMove) (w : Word),
    (s.state = .busy → step { s with host := .writeReg 32 0x00 w :: rest } = .next { s with host := rest }) ∧
    (s.state ≠ .busy →
      (∃ t, step { s with host := .writeReg 32 0x00 w :: rest } = .next t ∧ t.func.toNat = w.toNat % 8 ∧
        (regRead t 0x00).toNat = w.toNat % 8) ∧
      (w.getLsbD 8 = false →
        step { s with host := .writeReg 32 0x00 w :: rest } =
          .next { s with host := rest, func := BitVec.ofNat 3 w.toNat }))

/-- R110: FUNC selects the unit that a START runs; codes 3 and 7 run none. -/
def Obligations.StartRunsTheUnitOfFunc : Prop :=
  ∀ (s : State) (rest : List HostMove) (w : Word), s.state ≠ .busy → s.inLen.toNat ≤ s.params.inCap →
    w.getLsbD 8 = true → ∃ t, step { s with host := .writeReg 32 0x00 w :: rest } = .next t ∧
      (w.toNat % 8 = 0 → t.job = .unit .ascii85 (inputSnapshot s)) ∧
      (w.toNat % 8 = 1 → t.job = .unit .bitflip (inputSnapshot s)) ∧
      (w.toNat % 8 = 2 → t.job = .unit .parity (inputSnapshot s)) ∧
      (w.toNat % 8 = 3 → t.job = .none) ∧
      (w.toNat % 8 = 4 → t.job = .unit .packet (inputSnapshot s)) ∧
      (w.toNat % 8 = 5 → t.job = .unit .unwrap (inputSnapshot s)) ∧
      (w.toNat % 8 = 6 → t.job = .vm (vmInit (inputSnapshot s))) ∧
      (w.toNat % 8 = 7 → t.job = .none)

/-- R111: a START with a reserved FUNC ends at once in ERROR with BAD_FUNC and ERR_INFO = FUNC, whatever IN_LEN is. -/
def Obligations.ReservedFuncEndsInBadFunc : Prop :=
  ∀ (s : State) (rest : List HostMove) (w : Word), s.state ≠ .busy → w.getLsbD 8 = true →
    (w.toNat % 8 = 3 ∨ w.toNat % 8 = 7) →
    ∃ t, step { s with host := .writeReg 32 0x00 w :: rest } = .next t ∧ failedWith t .badFunc (w.toNat % 8) ∧
      (errByte t.err).toNat = 0x01 ∧ t.func.toNat = w.toNat % 8 ∧ t.inLen = s.inLen

/-- R35: IN_LEN holds any value written, but while BUSY writes are ignored; it is the length of the job input; above
IN_CAP every START of a unit fails with BAD_LENGTH. -/
def Obligations.InLenIsTheInputLength : Prop :=
  ∀ (s : State) (rest : List HostMove),
    (∀ v : Word, s.state ≠ .busy →
      step { s with host := .writeReg 32 0x08 v :: rest } = .next { s with host := rest, inLen := v }) ∧
    (∀ v : Word, s.state = .busy →
      step { s with host := .writeReg 32 0x08 v :: rest } = .next { s with host := rest }) ∧
    (∀ u : UnitFn, s.state ≠ .busy → s.inLen.toNat ≤ s.params.inCap →
      ∃ t input, exec (unitCommand u) s = .next t ∧ t.job = .unit u input ∧ input.length = s.inLen.toNat) ∧
    (∀ (i : Instr) (code : BitVec 3), commandCode i = some code → s.state ≠ .busy →
      s.params.inCap < s.inLen.toNat →
      ∃ t, exec i s = .next t ∧ failedWith t .badLength s.inLen.toNat ∧ t.func = code ∧ t.inLen = s.inLen)

/-- Every job command, outside BUSY and with a length IN_CAP admits, makes the block BUSY with its FUNC and a job, and
clears OUT_LEN, ERR and ERR_INFO (R34); the input is the bytes the host wrote. While BUSY it has no effect (R32). -/
def Obligations.JobCommandMakesTheBlockBusy : Prop :=
  ∀ (i : Instr) (code : BitVec 3) (s : State), commandCode i = some code →
    (s.state = .busy → exec i s = .next s) ∧
    (s.state ≠ .busy → s.inLen.toNat ≤ s.params.inCap →
      ∃ t, exec i s = .next t ∧ t.state = .busy ∧ t.func = code ∧ t.err = .none ∧ t.outLen = 0 ∧ t.errInfo = 0 ∧
        t.inLen = s.inLen ∧ t.params = s.params ∧ t.host = s.host ∧ t.readData = s.readData ∧
        (∀ input, hostWrote s input →
          (∀ u, i = unitCommand u → t.job = .unit u input) ∧ (i = .jobVm → t.job = .vm (vmInit input))))

/-- R49: the VM state at the START of a VM job. -/
def Obligations.VmJobStartsAtAddressZeroWithZeroRegisters : Prop :=
  ∀ (s : State) (image : List Byte), s.state ≠ .busy → s.inLen.toNat ≤ s.params.inCap → hostWrote s image →
    ∃ t v, exec .jobVm s = .next t ∧ t.job = .vm v ∧ (∀ r, v.get8 r = 0) ∧ (∀ r, v.get32 r = 0) ∧
      (∀ i, Memory.get? v.mem i = image[i]?) ∧ Memory.size v.mem = image.length ∧ v.out = []

/-- The block's turn ends the job of a unit with its result (R34, "case result of"): DONE with the output, OUT_OVERFLOW
past OUT_CAP, or the unit's error; FUNC, IN_LEN and the parameters keep their values (R380), and IN is unspecified
(R81; log 11, DEDUCED). The model's own: the error's detail modulo 2^32 (log 16, DEDUCED), and the end at the very next
turn, its form of R430 (log 2, DESIGN CHOICE). -/
def Obligations.UnitJobEndsWithItsResult : Prop :=
  ∀ (s : State) (u : UnitFn) (input : List Byte), s.job = .unit u input → s.host = [] → s.params.ok = true →
    ∃ t, step s = .next t ∧
      (∀ out, unitResult s.params u input = .ok out → out.length ≤ s.params.outCap → doneWith t out) ∧
      (∀ out, unitResult s.params u input = .ok out → s.params.outCap < out.length →
        failedWith t .outOverflow s.params.outCap) ∧
      (∀ code info, unitResult s.params u input = .err code info → failedWith t code (info % 2 ^ 32)) ∧
      t.job = .none ∧ t.func = s.func ∧ t.inLen = s.inLen ∧ t.params = s.params ∧ t.draws = s.draws ∧
      ∀ i, Memory.get? t.inBuf i = none

/-- The ERR_INFO of a unit's error is a place in its input or its length (R381), so it fits the 32-bit register exactly
for every input START admits, and its code is a real one. -/
def Obligations.UnitErrorPointsIntoTheInput : Prop :=
  ∀ (prm : Params) (u : UnitFn) (input : List Byte) (code : ErrCode) (info : Nat),
    unitResult prm u input = .err code info → info ≤ input.length ∧ code ≠ .none

/-- A job that fails while the block is BUSY (R380): no output, no job, nothing held of OUT, and FUNC, IN_LEN and the
parameters unchanged. -/
def Obligations.FaultLeavesNoOutputAndKeepsFuncAndInLen : Prop :=
  ∀ s t : State, s.state = .busy → step s = .next t → t.state = .error →
    t.err ≠ .none ∧ t.outLen = 0 ∧ t.outBuf = [] ∧ t.job = .none ∧ t.func = s.func ∧ t.inLen = s.inLen ∧
      t.params = s.params

/-- The buffers as the host sees them (20_memory.md R80, R95): a byte written to IN is read back and the other bytes
stay; a listed byte of OUT is read; writes of OUT change nothing. All outside BUSY. -/
def Obligations.HostBufferAccesses : Prop :=
  ∀ (s : State) (rest : List HostMove) (i : Nat) (b : Byte), s.state ≠ .busy →
    (i < s.params.inCap → ∃ t u, step { s with host := .writeIn i b :: .readIn i :: rest } = .next t ∧
      (∀ j, j ≠ i → Memory.get? t.inBuf j = Memory.get? s.inBuf j) ∧
      step t = .next u ∧ u = { t with host := rest, readData := b.zeroExtend 32 } ∧
      t = { s with host := .readIn i :: rest, inBuf := t.inBuf }) ∧
    (i < s.params.outCap → Memory.get? s.outBuf i = some b →
      step { s with host := .readOut i :: rest } = .next { s with host := rest, readData := b.zeroExtend 32 }) ∧
    (i < s.params.outCap → step { s with host := .writeOut i b :: rest } = .next { s with host := rest })

/-- While BUSY, writes of IN are ignored (R81) and a read of either buffer returns an unspecified byte, which in this
model is the next free value, whatever it is (the model's form, log 3). -/
def Obligations.BusyBufferAccesses : Prop :=
  ∀ (s : State) (rest : List HostMove) (i : Nat) (b : Byte), s.state = .busy →
    (i < s.params.inCap →
      step { s with host := .writeIn i b :: rest } = .next { s with host := rest } ∧
      step { s with host := .readIn i :: rest } = .next { s with
        host := rest, readData := (Config.freeByte s.draws).zeroExtend 32, draws := s.draws + 1 }) ∧
    (i < s.params.outCap →
      step { s with host := .readOut i :: rest } = .next { s with
        host := rest, readData := (Config.freeByte s.draws).zeroExtend 32, draws := s.draws + 1 })

/-! ### The step -/

/-- A VM run whose bytes at pc decode executes what they decode to, at the very state (pc is advanced by the
instruction's meaning, log 15). -/
def Obligations.StepRunsTheDecodedVmInstruction : Prop :=
  ∀ (s : State) (v : VmState) (i : Instr) (rest : List Byte) (moves : List HostMove), s.job = .vm v →
    decodeBytes (Memory.run v.mem v.pc.toNat 5) = .ok (i, rest) →
    (s.host = [] → step s = exec i s) ∧
    step { s with host := .turn :: moves } = exec i { s with host := moves }

/-- A host write of CTRL that is a job command runs it. -/
def Obligations.StepRunsTheJobCommand : Prop :=
  ∀ (s : State) (i : Instr) (w : Word) (moves : List HostMove), decodeCtrl w = some i →
    step { s with host := .writeReg 32 0x00 w :: moves } = exec i { s with host := moves }

/-- R321: fetch, with L the length of memory: past the end or cut short is VM_FETCH_OOB, an invalid opcode byte is
VM_INVALID_OPCODE, both with ERR_INFO = pc0; otherwise the instruction is decoded from the current bytes and runs. -/
def Obligations.FetchFaultsOrRuns : Prop :=
  ∀ (s : State) (v : VmState), s.job = .vm v → s.host = [] → dense v.mem = true →
    (Memory.size v.mem ≤ v.pc.toNat → ∃ t, step s = .next t ∧ failedWith t .vmFetchOob v.pc.toNat) ∧
    (v.pc.toNat < Memory.size v.mem → ∃ op, Memory.get? v.mem v.pc.toNat = some op ∧
      (validOpcode op = false → ∃ t, step s = .next t ∧ failedWith t .vmInvalidOpcode v.pc.toNat) ∧
      (validOpcode op = true → Memory.size v.mem < v.pc.toNat + opcodeLength op →
        ∃ t, step s = .next t ∧ failedWith t .vmFetchOob v.pc.toNat) ∧
      (validOpcode op = true → v.pc.toNat + opcodeLength op ≤ Memory.size v.mem →
        ∃ i, decodeBytes (Memory.run v.mem v.pc.toNat (opcodeLength op)) = .ok (i, []) ∧ step s = exec i s))

/-- A step answers a next state exactly when the host's next action, if there is one, breaks no host duty: nothing the
program or the input holds ends a run. Where the host breaks one the spec gives the block no move; that the model stops
there is its own choice: a refusal for a broken duty of R39 or R95 (log 7, DEDUCED), a fault for a register access past
0xFF (log 8, DEDUCED). -/
def Obligations.StepStopsOnlyOnBrokenHostDuty : Prop :=
  ∀ s : State, (∃ t, step s = .next t) ↔ hostKeepsDuty s = true

/-! ### The VM instructions (46_bytecode_vm.md) -/

/-- R330: HALT ends the job DONE with the output string. -/
def Obligations.HaltEndsTheJobWithTheOutput : Prop :=
  (∀ rest : List Byte, decodeBytes (0x01 :: rest) = .ok (.halt, rest)) ∧
  ∀ (s : State) (v : VmState), s.job = .vm v → s.params.ok = true → v.out.length ≤ s.params.outCap →
    ∃ t, exec .halt s = .next t ∧ doneWith t v.out ∧ t.job = .none ∧ t.func = s.func ∧ t.inLen = s.inLen ∧
      t.params = s.params ∧ t.host = s.host ∧ t.readData = s.readData ∧ t.draws = s.draws

/-- R331: OUT appends a, or faults with OUT_OVERFLOW when OUT_CAP bytes are already output. -/
def Obligations.OutAppendsA : Prop :=
  (∀ rest : List Byte, decodeBytes (0x02 :: rest) = .ok (.out, rest)) ∧
  ∀ (s : State) (v : VmState), s.job = .vm v →
    (v.out.length ≠ s.params.outCap →
      exec .out s = .next (withVm s { v with pc := v.pc + 1, out := v.out ++ [v.a] })) ∧
    (v.out.length = s.params.outCap → ∃ t, exec .out s = .next t ∧ failedWith t .outOverflow v.pc.toNat)

/-- R332: CMP sets f to 0 when a = b and to 1 otherwise, and nothing else. -/
def Obligations.CmpWritesFOnly : Prop :=
  (∀ rest : List Byte, decodeBytes (0xC1 :: rest) = .ok (.cmp, rest)) ∧
  ∀ (s : State) (v : VmState), s.job = .vm v →
    (v.a.toNat = v.b.toNat → exec .cmp s = .next (withVm s { v with pc := v.pc + 1, f := 0 })) ∧
    (v.a.toNat ≠ v.b.toNat → exec .cmp s = .next (withVm s { v with pc := v.pc + 1, f := 1 }))

/-- R333, R334, R335: ADD, SUB and XOR write a, modulo 256 or bitwise, and nothing else; f keeps its value. -/
def Obligations.AddSubXorWriteAOnly : Prop :=
  (∀ rest : List Byte, decodeBytes (0xC2 :: rest) = .ok (.add, rest) ∧ decodeBytes (0xC3 :: rest) = .ok (.sub, rest) ∧
    decodeBytes (0xC4 :: rest) = .ok (.xor, rest)) ∧
  ∀ (s : State) (v : VmState), s.job = .vm v →
    exec .add s = .next (withVm s { v with
      pc := v.pc + 1, a := BitVec.ofNat 8 ((v.a.toNat + v.b.toNat) % 256) }) ∧
    exec .sub s = .next (withVm s { v with
      pc := v.pc + 1, a := BitVec.ofNat 8 ((v.a.toNat + 256 - v.b.toNat) % 256) }) ∧
    exec .xor s = .next (withVm s { v with
      pc := v.pc + 1, a := BitVec.ofNat 8 (Nat.xor v.a.toNat v.b.toNat) })

/-- R336, R337: JEZ jumps to its absolute target when f = 0, JNZ when f ≠ 0, whatever f is; otherwise pc is past the
instruction. Nothing else changes, and the target is not checked. -/
def Obligations.JezAndJnzTestF : Prop :=
  (∀ (imm32 : Word) (rest : List Byte),
    decodeBytes (0x21 :: le32Bytes imm32 ++ rest) = .ok (.jez imm32, rest) ∧
    decodeBytes (0x22 :: le32Bytes imm32 ++ rest) = .ok (.jnz imm32, rest)) ∧
  ∀ (s : State) (v : VmState) (imm32 : Word), s.job = .vm v →
    (v.f = 0 → exec (.jez imm32) s = .next (withVm s { v with pc := imm32 }) ∧
      exec (.jnz imm32) s = .next (withVm s { v with pc := v.pc + 5 })) ∧
    (v.f ≠ 0 → exec (.jez imm32) s = .next (withVm s { v with pc := v.pc + 5 }) ∧
      exec (.jnz imm32) s = .next (withVm s { v with pc := imm32 }))

/-- R338: APTR advances ptr by its unsigned immediate, or faults with VM_PTR_OVERFLOW past 2^32 − 1. -/
def Obligations.AptrAdvancesPtr : Prop :=
  (∀ (imm8 : Byte) (rest : List Byte), decodeBytes (0xE1 :: imm8 :: rest) = .ok (.aptr imm8, rest)) ∧
  ∀ (s : State) (v : VmState) (imm8 : Byte), s.job = .vm v →
    (v.ptr.toNat + imm8.toNat ≤ 0xFFFFFFFF → exec (.aptr imm8) s = .next (withVm s { v with
      pc := v.pc + 2, ptr := v.ptr + imm8.zeroExtend 32 })) ∧
    (0xFFFFFFFF < v.ptr.toNat + imm8.toNat →
      ∃ t, exec (.aptr imm8) s = .next t ∧ failedWith t .vmPtrOverflow v.pc.toNat)

/-- R339: MV moves a byte between registers and the memory operand `(ptr+c)`; the address uses the old registers and is
exact (R322); at or past the end of memory the job faults with VM_MEM_OOB. -/
def Obligations.MvMovesAByte : Prop :=
  (∀ (dst src : Opnd8) (rest : List Byte),
    decodeBytes (BitVec.ofNat 8 (64 + 8 * (codeOfOpnd8 dst).toNat + (codeOfOpnd8 src).toNat) :: rest)
      = .ok (.mv dst src, rest)) ∧
  ∀ (s : State) (v : VmState) (dst src : Opnd8), s.job = .vm v → dense v.mem = true →
    ((dst = .ptrC ∨ src = .ptrC) → Memory.size v.mem ≤ v.ptr.toNat + v.c.toNat →
      ∃ t, exec (.mv dst src) s = .next t ∧ failedWith t .vmMemOob v.pc.toNat) ∧
    ((dst = .ptrC ∨ src = .ptrC → v.ptr.toNat + v.c.toNat < Memory.size v.mem) →
      ∃ x : Byte, (∀ r, src = .reg r → x = v.get8 r) ∧
        (src = .ptrC → Memory.get? v.mem (v.ptr.toNat + v.c.toNat) = some x) ∧
        (∀ r, dst = .reg r →
          exec (.mv dst src) s = .next (withVm s ((past v 1).set8 r x))) ∧
        (dst = .ptrC → exec (.mv dst src) s = .next (withVm s { v with
          pc := v.pc + 1, mem := Memory.set v.mem (v.ptr.toNat + v.c.toNat) x })))

/-- R340: MVI writes its immediate to a register or to the memory operand, with the same bounds check. -/
def Obligations.MviWritesTheImmediate : Prop :=
  (∀ (dst : Opnd8) (imm8 : Byte) (rest : List Byte),
    decodeBytes (BitVec.ofNat 8 (64 + 8 * (codeOfOpnd8 dst).toNat) :: imm8 :: rest) = .ok (.mvi dst imm8, rest)) ∧
  ∀ (s : State) (v : VmState) (imm8 : Byte), s.job = .vm v → dense v.mem = true →
    (∀ r, exec (.mvi (.reg r) imm8) s = .next (withVm s ((past v 2).set8 r imm8))) ∧
    (v.ptr.toNat + v.c.toNat < Memory.size v.mem → exec (.mvi .ptrC imm8) s = .next (withVm s { v with
      pc := v.pc + 2, mem := Memory.set v.mem (v.ptr.toNat + v.c.toNat) imm8 })) ∧
    (Memory.size v.mem ≤ v.ptr.toNat + v.c.toNat →
      ∃ t, exec (.mvi .ptrC imm8) s = .next t ∧ failedWith t .vmMemOob v.pc.toNat)

/-- R341: MV32 moves a 32-bit register; as a source pc reads pc0 + 1, as a destination it is a jump. -/
def Obligations.Mv32MovesAWord : Prop :=
  (∀ (dst src : Reg32) (rest : List Byte),
    decodeBytes (BitVec.ofNat 8 (128 + 8 * (codeOfReg32 dst).toNat + (codeOfReg32 src).toNat) :: rest)
      = .ok (.mv32 dst src, rest)) ∧
  ∀ (s : State) (v : VmState) (dst src : Reg32), s.job = .vm v →
    (src ≠ .pc → exec (.mv32 dst src) s = .next (withVm s ((past v 1).set32 dst (v.get32 src)))) ∧
    (src = .pc → exec (.mv32 dst src) s = .next (withVm s ((past v 1).set32 dst (v.pc + 1))))

/-- R342: MVI32 writes its little-endian immediate to a 32-bit register; to pc it is a jump. -/
def Obligations.Mvi32WritesTheImmediate : Prop :=
  (∀ (dst : Reg32) (b0 b1 b2 b3 : Byte) (rest : List Byte), ∃ imm32 : Word,
    decodeBytes (BitVec.ofNat 8 (128 + 8 * (codeOfReg32 dst).toNat) :: b0 :: b1 :: b2 :: b3 :: rest)
      = .ok (.mvi32 dst imm32, rest) ∧
    imm32.toNat = b0.toNat + 256 * b1.toNat + 65536 * b2.toNat + 16777216 * b3.toNat) ∧
  ∀ (s : State) (v : VmState) (dst : Reg32) (imm32 : Word), s.job = .vm v →
    exec (.mvi32 dst imm32) s = .next (withVm s ((past v 5).set32 dst imm32))

/-- The frame of the VM instructions that go on: no register but the destinations and pc, no byte of memory but the one
stored to, no output but OUT's, and nothing outside the VM state (R387: a VM program cannot reach the host's side). -/
def Obligations.VmInstructionFrame : Prop :=
  ∀ (i : Instr) (s t : State) (v v' : VmState), i.isVm = true → s.job = .vm v → exec i s = .next t →
    t.job = .vm v' →
    t = (withVm s v') ∧
    (∀ r, r ∉ dest8 i → v'.get8 r = v.get8 r) ∧
    (∀ r, r ∉ dest32 i → r ≠ .pc → v'.get32 r = v.get32 r) ∧
    (i ≠ .out → v'.out = v.out) ∧
    (∀ addr, storeAddr v i = none ∨ storeAddr v i ≠ some addr → Memory.get? v'.mem addr = Memory.get? v.mem addr)

/-- How a VM instruction can end a run (R324, R343): HALT alone ends it DONE or by an output too long; any other
instruction ends it only by an error of its own list, with ERR_INFO = pc0, and the error leaves no effect. -/
def Obligations.VmInstructionEnds : Prop :=
  ∀ (i : Instr) (s : State) (v : VmState), i.isVm = true → s.job = .vm v → ∃ t, exec i s = .next t ∧
    (i ≠ .halt → (∃ v', t.job = .vm v') ∨ ∃ code ∈ execErrors i, failedWith t code v.pc.toNat) ∧
    (i = .halt → t.job = .none ∧ (t.state = .done ∨ t.state = .error))

/-- R94, R85: a store is seen by every later fetch: wherever pc comes to lie, each of the up to five bytes a fetch sees
is the stored byte at the address stored to and the old byte elsewhere. -/
def Obligations.StoreIsSeenByLaterFetches : Prop :=
  ∀ (s : State) (v : VmState) (i : Instr) (t : State) (v' : VmState) (addr : Nat), s.job = .vm v → dense v.mem = true →
    storeAddr v i = some addr → exec i s = .next t → t.job = .vm v' →
    ∃ x : Byte, (∀ dst imm8, i = .mvi dst imm8 → x = imm8) ∧ (∀ dst r, i = .mv dst (.reg r) → x = v.get8 r) ∧
      (∀ dst, i = .mv dst .ptrC → Memory.get? v.mem addr = some x) ∧
      ∀ (pc : Word) (k : Nat), k < 5 →
        (fetchWindow { v' with pc := pc })[k]? =
          if pc.toNat + k = addr then some x else (fetchWindow { v with pc := pc })[k]?

/-- A jump to itself never ends (R320, R424): after any number of steps the block is as it was. -/
def Obligations.JumpToItselfNeverEnds : Prop :=
  ∀ (s : State) (v : VmState) (rest : List Byte), s.job = .vm v → s.host = [] → v.f = 0 →
    decodeBytes (fetchWindow v) = .ok (.jez v.pc, rest) →
    ∀ n : Nat, Host.Core.run Sys2Proof.core n s = .next s

/-- BUSY is left only by HALT, by the result of a unit, by an error, or by reset (R34, R410, R424). -/
def Obligations.OnlyEndErrorOrResetLeavesBusy : Prop :=
  ∀ s t : State, Inv s → s.state = .busy → step s = .next t → t.state ≠ .busy →
    (∃ rest, s.host = .reset :: rest) ∨ t.state = .error ∨
    (t.state = .done ∧ ((∃ u input, s.job = .unit u input) ∨ ∃ v, s.job = .vm v ∧ vmFetch v = .ok .halt))

/-! ### The units -/

/-- R153: a group of 1 to 5 characters, padded with digit 84: the value in base 85 is past 2^32 − 1, an overflow at the
group's offset, or its first n − 1 big-endian bytes are the output. -/
def Obligations.GroupDecodesItsLeadingBytes : Prop :=
  ∀ (g : List Byte) (p : Nat), 1 ≤ g.length → g.length ≤ 5 →
    let digits := g.map (fun x => x.toNat - 33) ++ List.replicate (5 - g.length) 84
    let value := digits.foldl (fun v d => v * 85 + d) 0
    (0xFFFFFFFF < value → decodeGroup g p = .err .a85Overflow p) ∧
    (value ≤ 0xFFFFFFFF → ∃ out, decodeGroup g p = .ok out ∧ out.length = g.length - 1 ∧
      ∀ k, k < g.length - 1 → (byteAt out k).toNat = value / 256 ^ (3 - k) % 256)

/-- R151: with SPLIT the unit accepts exactly the inputs of the grammar whose groups decode, and gives the
concatenation of what the sequences decode to. -/
def Obligations.Ascii85AcceptsExactlyTheGrammar : Prop :=
  ∀ (text out : List Byte), fAscii85 .split text = .ok out ↔
    ∃ (tokens : List Token) (trail : List Byte), text = a85Text tokens trail ∧
      (∀ k ∈ tokens, Token.ok k = true) ∧ munched tokens = true ∧ (∀ b ∈ trail, charClass b = .ws) ∧
      tokensOutput tokens = some out

/-- R152: with SKIP the unit decodes a payload to what SPLIT decodes it to once all white space is taken out of it. -/
def Obligations.SkipModeReadsThroughWhiteSpace : Prop :=
  ∀ (payload trail out : List Byte), (∀ b ∈ trail, charClass b = .ws) →
    (fAscii85 .skip ([0x3C, 0x7E] ++ payload ++ [0x7E, 0x3E] ++ trail) = .ok out ↔
      fAscii85 .split ([0x3C, 0x7E] ++ payload.filter (fun b => decide (charClass b ≠ .ws)) ++ [0x7E, 0x3E] ++ trail)
        = .ok out)

/-- The job ASCII85 on the text an encoder makes of any bytes ends DONE with those bytes, with either setting of
A85_WS_IN_GROUP. That a unit's job ends at the block's very next turn is the model's form of R430 (log 2,
DESIGN CHOICE). -/
def Obligations.Ascii85JobUndoesTheEncoder : Prop :=
  ∀ (s : State) (bytes : List Byte), s.state ≠ .busy → s.host = [] → s.params.ok = true →
    hostWrote s ([0x3C, 0x7E] ++ a85Encode bytes ++ [0x7E, 0x3E]) → s.inLen.toNat ≤ s.params.inCap →
    bytes.length ≤ s.params.outCap →
    ∃ t u, exec .jobAscii85 s = .next t ∧ t.state = .busy ∧ step t = .next u ∧ doneWith u bytes

/-- R157: the output of an input that decodes is at most 4·(len(t) − 4) bytes. -/
def Obligations.Ascii85OutputLengthBound : Prop :=
  ∀ (mode : A85Ws) (text out : List Byte), fAscii85 mode text = .ok out →
    4 ≤ text.length ∧ out.length ≤ 4 * (text.length - 4)

/-- R156: the unit ends with an error exactly in the situations the rule lists, with the code and the offset it gives
them; the first fault of the scan is the one reported. -/
def Obligations.Ascii85ErrorsPointAtTheirCause : Prop :=
  ∀ (mode : A85Ws) (text : List Byte) (code : ErrCode) (info : Nat), fAscii85 mode text = .err code info ↔
    (code = .a85ParseError ∧ info = 0 ∧ text.take 2 ≠ [0x3C, 0x7E]) ∨
    (text.take 2 = [0x3C, 0x7E] ∧
      ((code = .a85ParseError ∧ scansTo mode text info ∧ info = text.length) ∨
       (code = .a85ParseError ∧ scansTo mode text info ∧ text[info]? = some 0x7E ∧ text[info + 1]? ≠ some 0x3E) ∨
       (code = .a85ParseError ∧ ∃ j, scansTo mode text j ∧ text[j]? = some 0x7E ∧ text[j + 1]? = some 0x3E ∧
          j + 2 ≤ info ∧ info < text.length ∧ charClass (byteAt text info) ≠ .ws ∧
          ∀ m, j + 2 ≤ m → m < info → charClass (byteAt text m) = .ws) ∨
       (code = .a85InvalidCharacter ∧ scansTo mode text info ∧ text[info]?.map charClass = some .other) ∨
       (code = .a85Overflow ∧ scansTo mode text info ∧ startsGroup mode text info ∧
          0xFFFFFFFF < groupValue (groupAt mode text info))))

/-- R192: FLIP-ROTATE is a bijection, undone by rotating left and flipping, and no involution; its cycles have lengths
1 (0x33, 0xCC), 2 (0x66, 0x99), 4 (12 values) and 8 (the rest), and the orbit of 0xB4 is the one the rule lists. -/
def Obligations.FlipRotateAlgebra : Prop :=
  (∀ x : Byte, (flipRotate x).rotateLeft 1 ^^^ 0x55 = x) ∧
  (∀ y : Byte, flipRotate (y.rotateLeft 1 ^^^ 0x55) = y) ∧
  (∀ x : Byte, flipRotate x = x ↔ x = 0x33 ∨ x = 0xCC) ∧
  (∀ x : Byte, flipRotate (flipRotate x) = x ↔ x = 0x33 ∨ x = 0xCC ∨ x = 0x66 ∨ x = 0x99) ∧
  ((List.range 256).filter fun n => decide (flipRotate^[4] (BitVec.ofNat 8 n) = BitVec.ofNat 8 n)).length = 16 ∧
  (∀ x : Byte, flipRotate^[8] x = x) ∧
  (List.range 9).map (fun k => flipRotate^[k] 0xB4) = [0xB4, 0xF0, 0xD2, 0xC3, 0x4B, 0x0F, 0x2D, 0x3C, 0xB4]

/-- R190, R191: a BITFLIP job on any input OUT can hold ends DONE with the input's length, and bit j of each output byte
is bit j + 1 (of 8, round) of the input byte XOR 0x55. That it ends at the block's very next turn is the model's
form of R430 (log 2, DESIGN CHOICE). -/
def Obligations.BitflipJobFlipsAndRotatesEachByte : Prop :=
  ∀ (s : State) (input : List Byte), s.state ≠ .busy → s.host = [] → s.params.ok = true → hostWrote s input →
    s.inLen.toNat ≤ s.params.inCap → input.length ≤ s.params.outCap →
    ∃ t u out, exec .jobBitflip s = .next t ∧ t.state = .busy ∧ step t = .next u ∧ doneWith u out ∧
      out.length = input.length ∧
      ∀ k, k < input.length → ∀ j, j < 8 →
        (byteAt out k).getLsbD j = ((byteAt input k) ^^^ 0x55).getLsbD ((j + 1) % 8)

/-- R200–R204: a PARITY job keeps the bytes with an even number of 1 bits, streams their bits 7 down to 1, and ends DONE
with the whole bytes of that stream, first bit most significant; only the output must fit OUT, not the input. That
it ends at the block's very next turn is the model's form of R430 (log 2, DESIGN CHOICE). -/
def Obligations.ParityJobPacksTheDataBits : Prop :=
  ∀ (s : State) (input : List Byte), s.state ≠ .busy → s.host = [] → s.params.ok = true → hostWrote s input →
    s.inLen.toNat ≤ s.params.inCap →
    let valid := input.filter fun x => decide (((List.range 8).filter (x.getLsbD ·)).length % 2 = 0)
    let bits := valid.flatMap fun x => (List.range 7).map fun k => x.getLsbD (7 - k)
    7 * valid.length / 8 ≤ s.params.outCap →
    ∃ t u out, exec .jobParity s = .next t ∧ t.state = .busy ∧ step t = .next u ∧ doneWith u out ∧
      out.length = 7 * valid.length / 8 ∧
      ∀ k, k < out.length → ∀ j, j < 8 → some ((byteAt out k).getLsbD (7 - j)) = bits[8 * k + j]?

/-- R222: the checksum is a 16-bit value, congruent to the plain sum of the words modulo 0xFFFF, and 0 only for a zero
sum: the source's fold is the end-around carry. -/
def Obligations.ChecksumIsTheEndAroundSum : Prop :=
  ∀ d : List Byte, csum16 d ≤ 0xFFFF ∧ csum16 d % 0xFFFF = wordSum d % 0xFFFF ∧ (csum16 d = 0 ↔ wordSum d = 0)

/-- R224: the two ways to verify the IPv4 header checksum differ only where the sum of the header with its checksum
field zeroed is 0xFFFF; there COMPARE accepts 0x0000 only and SUM_FFFF accepts 0x0000 and 0xFFFF. -/
def Obligations.HeaderChecksumModesDifferOnlyAtFFFF : Prop :=
  ∀ p : List Byte, 20 ≤ p.length →
    (csum16 (zeroed2 (slice p 0 20) 10) ≠ 0xFFFF → ipOk .compare p = ipOk .sumFFFF p) ∧
    (csum16 (zeroed2 (slice p 0 20) 10) = 0xFFFF →
      (ipOk .compare p = true ↔ be16 p 10 = 0) ∧
      (ipOk .sumFFFF p = true ↔ be16 p 10 = 0 ∨ be16 p 10 = 0xFFFF))

/-- R224–R229, R232: on packets back to back and a tail shorter than a header, the output is the payloads of the
packets whose bytes pass all five checks, in order; the others contribute nothing. -/
def Obligations.PacketOutputIsTheAcceptedPayloads : Prop :=
  ∀ (prm : Params) (packets : List (List Byte)) (tail : List Byte),
    (∀ p ∈ packets, readablePacket p = true) → tail.length < 20 →
    fPacket prm (packets.flatten ++ tail) =
      .ok (packets.flatMap fun p => if passesChecks prm p = true then p.drop 28 else [])

/-- R230: a packet too short for its headers, or running past the input, ends the job with PKT_MALFORMED at its offset,
whatever came before it. -/
def Obligations.MalformedPacketEndsTheJob : Prop :=
  ∀ (prm : Params) (packets : List (List Byte)) (rest : List Byte),
    (∀ p ∈ packets, readablePacket p = true) → 20 ≤ rest.length → (be16 rest 2 < 28 ∨ rest.length < be16 rest 2) →
    fPacket prm (packets.flatten ++ rest) = .err .pktMalformed packets.flatten.length

/-- R261, R263, R266: a short input is an error with its length; without the check bytes 32–39 do not matter and the
output has len(s) − 96 bytes; with it the result is UNWRAP_INTEGRITY exactly when the final A differs from them. -/
def Obligations.UnwrapErrorsAndOutputLength : Prop :=
  ∀ (prm : Params) (s : List Byte),
    (s.length < 96 → fUnwrap prm s = .err .unwrapShortInput s.length) ∧
    (96 ≤ s.length →
      (prm.unwrapCheckIv = false → (∃ out, fUnwrap prm s = .ok out ∧ out.length = s.length - 96) ∧
        ∀ iv : List Byte, iv.length = 8 → fUnwrap prm (s.take 32 ++ iv ++ s.drop 40) = fUnwrap prm s) ∧
      (prm.unwrapCheckIv = true →
        ((unwrapInput s).a ≠ be64 (slice s 32 40) → fUnwrap prm s = .err .unwrapIntegrity 0) ∧
        ((unwrapInput s).a = be64 (slice s 32 40) →
          ∃ out, fUnwrap prm s = .ok out ∧ out.length = s.length - 96)))

/-- R264: counter mode keeps the length, and byte m of its output is byte m of the payload XOR byte m mod 16 of the
encryption of the counter (N + m div 16) mod 2^128. -/
def Obligations.CounterModeXorsTheKeystream : Prop :=
  ∀ (width : CtrIncWidth) (cek : List Byte) (nonce : U128) (p : List Byte),
    (ctrDecrypt width cek nonce p).length = p.length ∧
    ∀ m, m < p.length → byteAt (ctrDecrypt width cek nonce p) m = byteAt p m ^^^ keystreamByte cek nonce m

/-- R299: decryption and encryption undo each other on every 16-byte block under every key. -/
def Obligations.AesDecryptAndEncryptAreInverse : Prop :=
  ∀ (key block : List Byte), block.length = 16 →
    aesDecrypt key (aesEncrypt key block) = block ∧ aesEncrypt key (aesDecrypt key block) = block

/-- The unit recovers what was wrapped and encrypted (R262, R264, R265): a key wrapped under the KEK and a payload
encrypted by counter mode under that key come back, and the integrity check passes exactly on the right field. -/
def Obligations.UnwrapRecoversTheWrappedPayload : Prop :=
  ∀ (prm : Params) (kek iv nonce payload : List Byte) (w : WrapState), kek.length = 32 → iv.length = 8 →
    nonce.length = 16 → w.r0.length = 8 → w.r1.length = 8 → w.r2.length = 8 → w.r3.length = 8 →
    fUnwrap prm (unwrapJobInput kek iv (wrapKey kek w) nonce
        (ctrDecrypt prm.ctrIncWidth w.cek (BitVec.ofNat 128 (beVal nonce)) payload)) =
      (if prm.unwrapCheckIv = true ∧ be64 iv ≠ w.a then .err .unwrapIntegrity 0 else .ok payload)

/-- R293, R294: the S-box table is the inverse in GF(2^8) followed by the affine map, and the inverse table undoes it. -/
def Obligations.SboxTablesMatchTheirDefinition : Prop :=
  (∀ x : Byte, gfInverse x = 0 ∧ x = 0 ∨ gmul x (gfInverse x) = 1) ∧
  (∀ x : Byte, ∀ j : Fin 8, (sbox x).getLsbD j = sboxBit (gfInverse x) j) ∧
  (∀ x : Byte, invSbox (sbox x) = x)

/-! ### Invariants and whole-machine rules -/

/-- The invariant holds after reset. -/
def Obligations.ResetStateMeetsTheInvariant : Prop :=
  Inv State.reset

/-- Every step keeps the invariant: the registers read 0 where the spec says they do (R33, R36, R37), OUT holds exactly
the output in DONE (R81), the buffers keep their form and their bounds, VM memory keeps its length (R44) and the output
string its bound (R45). -/
def Obligations.StepKeepsTheInvariant : Prop :=
  ∀ s t : State, Inv s → step s = .next t → Inv t

/-- No step changes the parameters (R412). -/
def Obligations.StepKeepsTheParameters : Prop :=
  ∀ s t : State, step s = .next t → t.params = s.params

/-- What a job does depends on the job and the parameters alone (R47, R158, R348): two blocks with the same job and
parameters, whatever their registers and buffers hold, have the same job after the block's turn, and where it has ended
the host sees the same result in both. -/
def Obligations.JobsDependOnNothingButTheirInput : Prop :=
  ∀ s1 s2 t1 t2 : State, s1.job = s2.job → s1.job ≠ .none → s1.params = s2.params → s1.host = [] → s2.host = [] →
    step s1 = .next t1 → step s2 = .next t2 →
    t1.job = t2.job ∧ (t1.job = .none →
      t1.state = t2.state ∧ t1.err = t2.err ∧ t1.errInfo = t2.errInfo ∧ t1.outLen = t2.outLen ∧
        t1.outBuf = t2.outBuf)
end

