-- ==== Sys2Proof/Laws/Ascii85.lean ====
section
/-! SUPPORT. The ASCII85 scan and the run a group takes, one byte at a time: what a step of it can be, so that proofs about the unit need not unfold
the scan. -/

namespace Sys2Proof.Machine

@[simp] theorem a85Scan_nil (mode : A85Ws) (i : Nat) (g : List Byte) (p : Nat) (out : List Byte) :
    a85Scan mode [] i g p out = a85NoEnd g p i := by
  rw [a85Scan]

theorem a85Scan_of_stop {mode : A85Ws} {b : Byte} {t : List Byte} {i : Nat} {g : List Byte} {p : Nat}
    {out : List Byte} {r : UnitResult} (h : a85Step mode b t i g p out = .stop r) :
    a85Scan mode (b :: t) i g p out = r := by
  rw [a85Scan, h]

theorem a85Scan_of_go {mode : A85Ws} {b : Byte} {t : List Byte} {i : Nat} {g : List Byte} {p : Nat}
    {out g' out' : List Byte} {p' : Nat} (h : a85Step mode b t i g p out = .go g' p' out') :
    a85Scan mode (b :: t) i g p out = a85Scan mode t (i + 1) g' p' out' := by
  rw [a85Scan, h]

/-- A step that goes on has decoded its group; one that stops has either failed to, or goes on from its bytes. -/
theorem afterGroup_go {r : UnitResult} {k : List Byte → ScanStep} {g : List Byte} {p : Nat} {out : List Byte}
    (h : afterGroup r k = .go g p out) : ∃ bytes, r = .ok bytes ∧ k bytes = .go g p out := by
  unfold afterGroup at h
  split at h
  · cases h
  · next bytes => exact ⟨bytes, rfl, h⟩

theorem afterGroup_stop {r x : UnitResult} {k : List Byte → ScanStep} (h : afterGroup r k = .stop x) :
    (∃ code info, r = .err code info ∧ x = .err code info) ∨ ∃ bytes, r = .ok bytes ∧ k bytes = .stop x := by
  unfold afterGroup at h
  split at h
  · next code info => exact .inl ⟨code, info, rfl, (ScanStep.stop.inj h).symm⟩
  · next bytes => exact .inr ⟨bytes, rfl, h⟩

theorem decodeGroup_err {g : List Byte} {p : Nat} {code : ErrCode} {info : Nat}
    (h : decodeGroup g p = .err code info) : code = .a85Overflow ∧ info = p ∧ 0xFFFFFFFF < groupValue g := by
  unfold decodeGroup at h
  split at h
  · next hv => cases h; exact ⟨rfl, rfl, hv⟩
  · cases h

theorem decodeGroup_ok {g : List Byte} {p : Nat} {out : List Byte} (h : decodeGroup g p = .ok out) :
    groupValue g ≤ 0xFFFFFFFF ∧ out = (toBe (groupValue g) 4).take (g.length - 1) := by
  unfold decodeGroup at h
  split at h
  · cases h
  · next hv => exact ⟨Nat.le_of_not_lt hv, (UnitResult.ok.inj h).symm⟩

theorem closeGroup_err {g : List Byte} {p : Nat} {code : ErrCode} {info : Nat}
    (h : closeGroup g p = .err code info) : g ≠ [] ∧ decodeGroup g p = .err code info := by
  unfold closeGroup at h
  split at h
  · cases h
  · next hg => exact ⟨hg, h⟩

theorem closeGroup_ok {g : List Byte} {p : Nat} {out : List Byte} (h : closeGroup g p = .ok out) :
    (g = [] ∧ out = []) ∨ (g ≠ [] ∧ decodeGroup g p = .ok out) := by
  unfold closeGroup at h
  split at h
  · next hg => exact .inl ⟨hg, (UnitResult.ok.inj h).symm⟩
  · next hg => exact .inr ⟨hg, h⟩

/-! The run of characters a group takes, one byte at a time (Safety.groupRun). -/

open Sys2Proof.Safety

@[simp] theorem groupRun_nil (mode : A85Ws) : groupRun mode [] = [] := by
  cases mode <;> rfl

theorem groupRun_cons_alpha (mode : A85Ws) {b : Byte} (t : List Byte) (h : charClass b = .alpha) :
    groupRun mode (b :: t) = b :: groupRun mode t := by
  cases mode <;> simp [groupRun, h]

theorem groupRun_skip_cons_ws {b : Byte} (t : List Byte) (h : charClass b = .ws) :
    groupRun .skip (b :: t) = groupRun .skip t := by
  simp [groupRun, h]

/-- Any other byte ends the run; with SPLIT white space does too. -/
theorem groupRun_cons_end {mode : A85Ws} {b : Byte} (t : List Byte) (ha : charClass b ≠ .alpha)
    (hw : mode = .skip → charClass b ≠ .ws) : groupRun mode (b :: t) = [] := by
  cases mode
  · simp [groupRun, ha]
  · simp [groupRun, ha, hw rfl]

end Sys2Proof.Machine
end

