-- ==== Sys2Proof/Laws/Bytes.lean ====
section
/-! SUPPORT. Byte strings as big-endian numbers and back. -/

namespace Sys2Proof.Machine

@[simp] theorem length_toBe (v n : Nat) : (toBe v n).length = n := by
  induction n with
  | zero => rfl
  | succ n ih => simp [toBe, ih]

/-- The n-byte string of a number has the number's value modulo 256^n. -/
theorem beVal_toBe (v n : Nat) : beVal (toBe v n) = v % 256 ^ n := by
  induction n with
  | zero => simp [toBe, beVal, Nat.mod_one]
  | succ n ih =>
    have h : (BitVec.ofNat 8 (v / 256 ^ n)).toNat = v / 256 ^ n % 256 := by simp
    rw [toBe, beVal, h, length_toBe, ih, Nat.pow_succ, Nat.mod_mul, Nat.mul_comm, Nat.add_comm]

/-- A byte string's value is below 256 to its length. -/
theorem beVal_lt (b : List Byte) : beVal b < 256 ^ b.length := by
  induction b with
  | nil => decide
  | cons x t ih =>
    have hx : x.toNat < 256 := x.isLt
    simp only [beVal, List.length_cons, Nat.pow_succ]
    nlinarith [Nat.mul_le_mul_right (256 ^ t.length) (Nat.le_of_lt_succ (show x.toNat < 255 + 1 from hx))]

/-- Writing a string's value out gives the string. -/
theorem toBe_beVal (b : List Byte) : toBe (beVal b) b.length = b := by
  induction b with
  | nil => rfl
  | cons x t ih =>
    have hlt := beVal_lt t
    have hd : beVal (x :: t) / 256 ^ t.length = x.toNat := by
      rw [beVal, Nat.add_comm, Nat.add_mul_div_right _ _ (Nat.pos_of_ne_zero (by positivity)), Nat.div_eq_of_lt hlt,
        Nat.zero_add]
    have hm : ∀ v n : Nat, toBe v n = toBe (v % 256 ^ n) n := by
      intro v n
      induction n generalizing v with
      | zero => rfl
      | succ n ihn =>
        rw [toBe, toBe, ihn v, ihn (v % 256 ^ (n + 1))]
        congr 1
        · apply BitVec.eq_of_toNat_eq
          have h : v % 256 ^ (n + 1) / 256 ^ n = v / 256 ^ n % 256 := Nat.mod_mul_right_div_self v (256 ^ n) 256
          have h8 : 2 ^ 8 = 256 := rfl
          rw [BitVec.toNat_ofNat, BitVec.toNat_ofNat, h8, h, Nat.mod_mod]
        · rw [Nat.mod_mod_of_dvd _ (Nat.pow_dvd_pow 256 (Nat.le_succ n))]
    rw [List.length_cons, toBe, hd, hm, beVal]
    rw [Nat.add_comm, Nat.add_mul_mod_self_right, Nat.mod_eq_of_lt hlt, ih]
    simp

theorem be64_toBe (a : U64) : be64 (toBe a.toNat 8) = a := by
  apply BitVec.eq_of_toNat_eq
  have := a.isLt
  simp only [be64, BitVec.toNat_ofNat, beVal_toBe]
  omega

end Sys2Proof.Machine
end

