-- ==== Sys2Proof/Laws/Memory.lean ====
section
/-! SUPPORT. The laws of byte memory: read after write, and that every operation keeps the canonical form. -/

namespace Sys2Proof.Machine

@[simp] theorem get?_nil (i : Nat) : Memory.get? [] i = none := rfl

theorem get?_set_same (m : Memory) (i : Nat) (v : Byte) : Memory.get? (Memory.set m i v) i = some v := by
  induction m with
  | nil => simp [Memory.set, Memory.get?]
  | cons cell m ih =>
    obtain ⟨a, x⟩ := cell
    simp only [Memory.set]
    split
    · simp [Memory.get?]
    · split
      · simp [Memory.get?]
      · next h => simp [Memory.get?, h, ih]

theorem get?_set_other {m : Memory} {i j : Nat} (v : Byte) (h : j ≠ i) :
    Memory.get? (Memory.set m i v) j = Memory.get? m j := by
  induction m with
  | nil => simp [Memory.set, Memory.get?, h]
  | cons cell m ih =>
    obtain ⟨a, x⟩ := cell
    simp only [Memory.set]
    split
    · simp [Memory.get?, h]
    · split
      · next h2 => subst h2; simp [Memory.get?, h]
      · simp [Memory.get?, ih]

/-- The canonical form as a pairwise order of the addresses. -/
theorem wf_iff_pairwise (m : Memory) : Memory.wf m = true ↔ (m.map Prod.fst).Pairwise (· < ·) := by
  induction m with
  | nil => simp [Memory.wf]
  | cons cell m ih =>
    obtain ⟨a, x⟩ := cell
    cases m with
    | nil => simp [Memory.wf]
    | cons cell' m =>
      obtain ⟨b, y⟩ := cell'
      simp only [Memory.wf, Bool.and_eq_true, decide_eq_true_eq, ih, List.map_cons, List.pairwise_cons]
      constructor
      · rintro ⟨hab, hb, hp⟩
        refine ⟨?_, hb, hp⟩
        intro c hc
        rcases List.mem_cons.mp hc with rfl | hc
        · exact hab
        · exact Nat.lt_trans hab (hb c hc)
      · rintro ⟨ha, hb, hp⟩
        exact ⟨ha b (by simp), hb, hp⟩

theorem mem_map_fst_set {m : Memory} {i k : Nat} {v : Byte} (h : k ∈ (Memory.set m i v).map Prod.fst) :
    k = i ∨ k ∈ m.map Prod.fst := by
  induction m with
  | nil => exact .inl (List.mem_singleton.mp h)
  | cons cell m ih =>
    obtain ⟨a, x⟩ := cell
    simp only [Memory.set] at h
    split at h
    · exact List.mem_cons.mp h
    · split at h
      · rcases List.mem_cons.mp h with rfl | h'
        · exact .inl rfl
        · exact .inr (List.mem_cons_of_mem _ h')
      · rcases List.mem_cons.mp h with rfl | h'
        · exact .inr List.mem_cons_self
        · exact (ih h').imp_right (List.mem_cons_of_mem _)

theorem wf_set {m : Memory} (h : Memory.wf m = true) (i : Nat) (v : Byte) : Memory.wf (Memory.set m i v) = true := by
  rw [wf_iff_pairwise] at h ⊢
  induction m with
  | nil => simp [Memory.set]
  | cons cell m ih =>
    obtain ⟨a, x⟩ := cell
    rw [List.map_cons, List.pairwise_cons] at h
    simp only [Memory.set]
    split
    · next hlt =>
      rw [List.map_cons, List.pairwise_cons, List.map_cons, List.pairwise_cons]
      refine ⟨?_, h⟩
      intro c hc
      rcases List.mem_cons.mp hc with rfl | hc
      · exact hlt
      · exact Nat.lt_trans hlt (h.1 c hc)
    · split
      · next heq => subst heq; rw [List.map_cons, List.pairwise_cons]; exact h
      · next hnlt hne =>
        rw [List.map_cons, List.pairwise_cons]
        refine ⟨?_, ih h.2⟩
        intro c hc
        rcases mem_map_fst_set hc with rfl | hc
        · simp only at hnlt hne ⊢
          omega
        · exact h.1 c hc

theorem wf_setBytes {m : Memory} (h : Memory.wf m = true) (a : Nat) (bytes : List Byte) :
    Memory.wf (Memory.setBytes m a bytes) = true := by
  induction bytes generalizing m a with
  | nil => exact h
  | cons b t ih => exact ih (wf_set h a b) (a + 1)

@[simp] theorem map_fst_ofBytesAt (base : Nat) (bytes : List Byte) :
    (Memory.ofBytesAt base bytes).map Prod.fst = List.range' base bytes.length := by
  induction bytes generalizing base with
  | nil => rfl
  | cons b t ih => simp [Memory.ofBytesAt, ih, List.range'_succ]

@[simp] theorem length_ofBytesAt (base : Nat) (bytes : List Byte) :
    (Memory.ofBytesAt base bytes).length = bytes.length := by
  induction bytes generalizing base with
  | nil => rfl
  | cons b t ih => simp [Memory.ofBytesAt, ih]

@[simp] theorem size_ofBytes (bytes : List Byte) : Memory.size (Memory.ofBytes bytes) = bytes.length :=
  length_ofBytesAt 0 bytes

@[simp] theorem map_fst_ofBytes (bytes : List Byte) :
    (Memory.ofBytes bytes).map Prod.fst = List.range bytes.length := by
  rw [Memory.ofBytes, map_fst_ofBytesAt, List.range_eq_range']

theorem wf_ofBytes (bytes : List Byte) : Memory.wf (Memory.ofBytes bytes) = true := by
  rw [wf_iff_pairwise, map_fst_ofBytes]
  exact List.pairwise_lt_range

theorem get?_ofBytesAt (base : Nat) (bytes : List Byte) (i : Nat) :
    Memory.get? (Memory.ofBytesAt base bytes) (base + i) = bytes[i]? := by
  induction bytes generalizing base i with
  | nil => rfl
  | cons b t ih =>
    cases i with
    | zero => simp [Memory.ofBytesAt, Memory.get?]
    | succ i =>
      have h := ih (base + 1) i
      rw [show base + 1 + i = base + (i + 1) from by omega] at h
      simp [Memory.ofBytesAt, Memory.get?, h]

theorem get?_ofBytes (bytes : List Byte) (i : Nat) : Memory.get? (Memory.ofBytes bytes) i = bytes[i]? := by
  simpa [Memory.ofBytes] using get?_ofBytesAt 0 bytes i

/-- An address is listed exactly when it reads as a byte. -/
theorem get?_isSome_iff (m : Memory) (i : Nat) : (Memory.get? m i).isSome = true ↔ i ∈ m.map Prod.fst := by
  induction m with
  | nil => simp
  | cons cell m ih =>
    obtain ⟨a, x⟩ := cell
    by_cases h : i = a
    · simp [Memory.get?, h]
    · rw [List.map_cons, List.mem_cons]
      simp only [Memory.get?, h, if_false, ih, false_or]

/-- Storing to a listed address keeps the addresses and so the length of a memory. -/
theorem map_fst_set_of_listed {m : Memory} {i : Nat} (v : Byte) (hwf : Memory.wf m = true)
    (h : (Memory.get? m i).isSome = true) : (Memory.set m i v).map Prod.fst = m.map Prod.fst := by
  rw [wf_iff_pairwise] at hwf
  induction m with
  | nil => simp at h
  | cons cell m ih =>
    obtain ⟨a, x⟩ := cell
    rw [List.map_cons, List.pairwise_cons] at hwf
    rw [get?_isSome_iff, List.map_cons, List.mem_cons] at h
    simp only [Memory.set]
    split
    · next hlt =>
      rcases h with rfl | h
      · exact absurd hlt (Nat.lt_irrefl _)
      · exact absurd (hwf.1 i h) (Nat.lt_asymm hlt)
    · split
      · next heq => simp [heq]
      · next hne =>
        rcases h with rfl | h
        · exact absurd rfl hne
        · rw [List.map_cons, List.map_cons, ih hwf.2 ((get?_isSome_iff m i).mpr h)]

/-- The bytes from an address up to a length the memory lists. -/
theorem run_succ_of_get? {m : Memory} {a n : Nat} {b : Byte} (h : Memory.get? m a = some b) :
    Memory.run m a (n + 1) = b :: Memory.run m (a + 1) n := by
  simp [Memory.run, h]

theorem run_succ_of_none {m : Memory} {a n : Nat} (h : Memory.get? m a = none) : Memory.run m a (n + 1) = [] := by
  simp [Memory.run, h]

end Sys2Proof.Machine
end

