-- ==== Sys2Proof/Laws/State.lean ====
section
/-! SUPPORT. One lemma per field per update of the shared state operations. -/

namespace Sys2Proof.Machine

section jobFaultFields
variable (s : State) (code : ErrCode) (info : Word)
@[simp] theorem jobFault_params : (jobFault s code info).params = s.params := rfl
@[simp] theorem jobFault_func : (jobFault s code info).func = s.func := rfl
@[simp] theorem jobFault_state : (jobFault s code info).state = .error := rfl
@[simp] theorem jobFault_err : (jobFault s code info).err = code := rfl
@[simp] theorem jobFault_errInfo : (jobFault s code info).errInfo = info := rfl
@[simp] theorem jobFault_inLen : (jobFault s code info).inLen = s.inLen := rfl
@[simp] theorem jobFault_outLen : (jobFault s code info).outLen = 0 := rfl
@[simp] theorem jobFault_inBuf : (jobFault s code info).inBuf = [] := rfl
@[simp] theorem jobFault_outBuf : (jobFault s code info).outBuf = [] := rfl
@[simp] theorem jobFault_job : (jobFault s code info).job = .none := rfl
@[simp] theorem jobFault_host : (jobFault s code info).host = s.host := rfl
@[simp] theorem jobFault_readData : (jobFault s code info).readData = s.readData := rfl
@[simp] theorem jobFault_draws : (jobFault s code info).draws = s.draws := rfl
end jobFaultFields

section jobDoneFields
variable (s : State) (out : List Byte)
@[simp] theorem jobDone_params : (jobDone s out).params = s.params := rfl
@[simp] theorem jobDone_func : (jobDone s out).func = s.func := rfl
@[simp] theorem jobDone_state : (jobDone s out).state = .done := rfl
@[simp] theorem jobDone_err : (jobDone s out).err = .none := rfl
@[simp] theorem jobDone_errInfo : (jobDone s out).errInfo = 0 := rfl
@[simp] theorem jobDone_inLen : (jobDone s out).inLen = s.inLen := rfl
@[simp] theorem jobDone_outLen : (jobDone s out).outLen = BitVec.ofNat 32 out.length := rfl
@[simp] theorem jobDone_inBuf : (jobDone s out).inBuf = [] := rfl
@[simp] theorem jobDone_outBuf : (jobDone s out).outBuf = Memory.ofBytes out := rfl
@[simp] theorem jobDone_job : (jobDone s out).job = .none := rfl
@[simp] theorem jobDone_host : (jobDone s out).host = s.host := rfl
@[simp] theorem jobDone_readData : (jobDone s out).readData = s.readData := rfl
@[simp] theorem jobDone_draws : (jobDone s out).draws = s.draws := rfl
end jobDoneFields

section vmInitFields
variable (image : List Byte)
@[simp] theorem vmInit_get8 (r : Reg8) : (vmInit image).get8 r = 0 := by cases r <;> rfl
@[simp] theorem vmInit_get32 (r : Reg32) : (vmInit image).get32 r = 0 := by cases r <;> rfl
@[simp] theorem vmInit_mem : (vmInit image).mem = Memory.ofBytes image := rfl
@[simp] theorem vmInit_out : (vmInit image).out = [] := rfl
end vmInitFields

section set8Fields
variable (v : VmState) (r : Reg8) (x : Byte)
@[simp] theorem set8_mem : (v.set8 r x).mem = v.mem := by cases r <;> rfl
@[simp] theorem set8_out : (v.set8 r x).out = v.out := by cases r <;> rfl
@[simp] theorem set8_pc : (v.set8 r x).pc = v.pc := by cases r <;> rfl
@[simp] theorem set8_get32 (q : Reg32) : (v.set8 r x).get32 q = v.get32 q := by cases r <;> cases q <;> rfl
@[simp] theorem set8_get8_same : (v.set8 r x).get8 r = x := by cases r <;> rfl
theorem set8_get8_other {q : Reg8} (h : q ≠ r) : (v.set8 r x).get8 q = v.get8 q := by
  cases r <;> cases q <;> first | rfl | exact absurd rfl h
end set8Fields

section set32Fields
variable (v : VmState) (r : Reg32) (x : Word)
@[simp] theorem set32_mem : (v.set32 r x).mem = v.mem := by cases r <;> rfl
@[simp] theorem set32_out : (v.set32 r x).out = v.out := by cases r <;> rfl
@[simp] theorem set32_get8 (q : Reg8) : (v.set32 r x).get8 q = v.get8 q := by cases r <;> cases q <;> rfl
@[simp] theorem set32_get32_same : (v.set32 r x).get32 r = x := by cases r <;> rfl
theorem set32_get32_other {q : Reg32} (h : q ≠ r) : (v.set32 r x).get32 q = v.get32 q := by
  cases r <;> cases q <;> first | rfl | exact absurd rfl h
end set32Fields

section setPc
variable (v : VmState) (x : Word)
@[simp] theorem setPc_get8 (r : Reg8) : ({ v with pc := x } : VmState).get8 r = v.get8 r := by cases r <;> rfl
theorem setPc_get32 {r : Reg32} (h : r ≠ .pc) : ({ v with pc := x } : VmState).get32 r = v.get32 r := by
  cases r <;> first | rfl | exact absurd rfl h
@[simp] theorem setPc_ea : ({ v with pc := x } : VmState).ea = v.ea := rfl
end setPc

end Sys2Proof.Machine
end

