-- ==== Sys2Proof/Laws/Operands.lean ====
section
/-! SUPPORT. What the operand forms of the VM moves can do, said once: reading and writing a byte of memory, the two
helpers of 46_bytecode_vm.md R323, and the move itself. -/

namespace Sys2Proof.Machine

theorem memRead_cases (v : VmState) (addr : Nat) :
    (∃ b, Memory.get? v.mem addr = some b ∧ v.memRead addr = .ok b) ∨
    (Memory.get? v.mem addr = none ∧ v.memRead addr = .error .vmMemOob) := by
  cases h : Memory.get? v.mem addr with
  | some b => exact .inl ⟨b, rfl, by simp [VmState.memRead, h]⟩
  | none => exact .inr ⟨rfl, by simp [VmState.memRead, h]⟩

theorem memWrite_cases (v : VmState) (addr : Nat) (x : Byte) :
    ((Memory.get? v.mem addr).isSome = true ∧ v.memWrite addr x = .ok { v with mem := Memory.set v.mem addr x }) ∨
    (Memory.get? v.mem addr = none ∧ v.memWrite addr x = .error .vmMemOob) := by
  cases h : Memory.get? v.mem addr with
  | some b => exact .inl ⟨rfl, by simp [VmState.memWrite, h]⟩
  | none => exact .inr ⟨rfl, by simp [VmState.memWrite, h]⟩

/-- Reading an operand that does not fail. -/
theorem read8_ok {v : VmState} {o : Opnd8} {x : Byte} (h : v.read8 o = .ok x) :
    (∃ r, o = .reg r ∧ x = v.get8 r) ∨ (o = .ptrC ∧ Memory.get? v.mem v.ea = some x) := by
  cases o with
  | reg r => exact .inl ⟨r, rfl, (Except.ok.inj h).symm⟩
  | ptrC =>
    rcases memRead_cases v v.ea with ⟨b, hb, e⟩ | ⟨_, e⟩
    · exact .inr ⟨rfl, by rw [VmState.read8, e] at h; rw [hb, Except.ok.inj h]⟩
    · rw [VmState.read8, e] at h; cases h

/-- Writing an operand that does not fail. -/
theorem write8_ok {v w : VmState} {o : Opnd8} {x : Byte} (h : v.write8 o x = .ok w) :
    (∃ r, o = .reg r ∧ w = v.set8 r x) ∨
    (o = .ptrC ∧ (Memory.get? v.mem v.ea).isSome = true ∧ w = { v with mem := Memory.set v.mem v.ea x }) := by
  cases o with
  | reg r => exact .inl ⟨r, rfl, (Except.ok.inj h).symm⟩
  | ptrC =>
    rcases memWrite_cases v v.ea x with ⟨hs, e⟩ | ⟨_, e⟩
    · exact .inr ⟨rfl, hs, by rw [VmState.write8, e] at h; exact (Except.ok.inj h).symm⟩
    · rw [VmState.write8, e] at h; cases h

/-- The one error an operand can raise (46_bytecode_vm.md R322). -/
theorem read8_error {v : VmState} {o : Opnd8} {code : ErrCode} (h : v.read8 o = .error code) :
    o = .ptrC ∧ code = .vmMemOob ∧ Memory.get? v.mem v.ea = none := by
  cases o with
  | reg r => cases h
  | ptrC =>
    rcases memRead_cases v v.ea with ⟨b, _, e⟩ | ⟨hn, e⟩
    · rw [VmState.read8, e] at h; cases h
    · rw [VmState.read8, e] at h; cases h; exact ⟨rfl, rfl, hn⟩

theorem write8_error {v : VmState} {o : Opnd8} {x : Byte} {code : ErrCode} (h : v.write8 o x = .error code) :
    o = .ptrC ∧ code = .vmMemOob ∧ Memory.get? v.mem v.ea = none := by
  cases o with
  | reg r => cases h
  | ptrC =>
    rcases memWrite_cases v v.ea x with ⟨_, e⟩ | ⟨hn, e⟩
    · rw [VmState.write8, e] at h; cases h
    · rw [VmState.write8, e] at h; cases h; exact ⟨rfl, rfl, hn⟩

/-- A move that does not fail reads its source and writes its destination. -/
theorem moveOpnd8_ok {v w : VmState} {dst src : Opnd8} (h : moveOpnd8 v dst src = .ok w) :
    ∃ x, v.read8 src = .ok x ∧ v.write8 dst x = .ok w := by
  unfold moveOpnd8 at h
  split at h
  · next x hx => exact ⟨x, hx, h⟩
  · cases h

theorem moveOpnd8_error {v : VmState} {dst src : Opnd8} {code : ErrCode} (h : moveOpnd8 v dst src = .error code) :
    (dst = .ptrC ∨ src = .ptrC) ∧ code = .vmMemOob ∧ Memory.get? v.mem v.ea = none := by
  unfold moveOpnd8 at h
  split at h
  · have := write8_error h; exact ⟨.inl this.1, this.2⟩
  · next c hc => cases h; have := read8_error hc; exact ⟨.inr this.1, this.2⟩

/-- An operand does not depend on pc. -/
@[simp] theorem setPc_read8 (v : VmState) (pc : Word) (o : Opnd8) :
    ({ v with pc := pc } : VmState).read8 o = v.read8 o := by
  cases o with
  | reg r => simp [VmState.read8]
  | ptrC => rfl

end Sys2Proof.Machine
end

