-- ==== Sys2Proof/Laws/Ops.lean ====
section
/-! SUPPORT. What each shared operation can do, said once: the VM instruction wrapper, the start and the end of a job,
the block's turn, the host's turn. -/

namespace Sys2Proof.Machine

theorem vmInstr_of_ok {len : Nat} {body : VmState → Except ErrCode VmState} {s : State} {v v' : VmState}
    (hj : s.job = .vm v) (hb : body { v with pc := v.pc + BitVec.ofNat 32 len } = .ok v') :
    vmInstr len body s = .next { s with job := .vm v' } := by
  simp [vmInstr, hj, hb]

theorem vmInstr_of_error {len : Nat} {body : VmState → Except ErrCode VmState} {s : State} {v : VmState}
    {code : ErrCode} (hj : s.job = .vm v) (hb : body { v with pc := v.pc + BitVec.ofNat 32 len } = .error code) :
    vmInstr len body s = .next (jobFault s code v.pc) := by
  simp [vmInstr, hj, hb]

/-- All a VM instruction can do: change the VM state alone, or fault the job at its own pc. -/
theorem vmInstr_cases {len : Nat} {body : VmState → Except ErrCode VmState} {s t : State}
    (h : vmInstr len body s = .next t) :
    ∃ v, s.job = .vm v ∧
      ((∃ v', body { v with pc := v.pc + BitVec.ofNat 32 len } = .ok v' ∧ t = { s with job := .vm v' }) ∨
       (∃ code, body { v with pc := v.pc + BitVec.ofNat 32 len } = .error code ∧ t = jobFault s code v.pc)) := by
  unfold vmInstr at h
  split at h
  · next v hj =>
    refine ⟨v, hj, ?_⟩
    split at h
    · next v' hb => exact .inl ⟨v', hb, (Host.Outcome.next.inj h).symm⟩
    · next code hb => exact .inr ⟨code, hb, (Host.Outcome.next.inj h).symm⟩
  · cases h
  · cases h

/-- Outside a VM run a VM instruction has no effect to give. -/
theorem vmInstr_noVmRun {len : Nat} {body : VmState → Except ErrCode VmState} {s : State}
    (h : ∀ v, s.job ≠ .vm v) : vmInstr len body s = .fault .noVmRun := by
  unfold vmInstr
  split
  · next v hj => exact absurd hj (h v)
  · rfl
  · rfl

/-- All the end of a job can do. -/
theorem finishJob_cases (s : State) (r : UnitResult) :
    (∃ out, r = .ok out ∧ out.length ≤ s.params.outCap ∧ finishJob s r = jobDone s out) ∨
    (∃ out, r = .ok out ∧ s.params.outCap < out.length ∧
      finishJob s r = jobFault s .outOverflow (BitVec.ofNat 32 s.params.outCap)) ∨
    (∃ code info, r = .err code info ∧ finishJob s r = jobFault s code (BitVec.ofNat 32 info)) := by
  cases r with
  | ok out =>
    by_cases h : out.length > s.params.outCap
    · exact .inr (.inl ⟨out, rfl, h, by simp [finishJob, h]⟩)
    · exact .inl ⟨out, rfl, by omega, by simp [finishJob, h]⟩
  | err code info => exact .inr (.inr ⟨code, info, rfl, rfl⟩)

/-- All the start of a job can do. -/
theorem startJob_cases (code : BitVec 3) (mk : List Byte → Job) (s : State) :
    (s.state = .busy ∧ startJob code mk s = s) ∨
    (s.state ≠ .busy ∧ s.params.inCap < s.inLen.toNat ∧
      startJob code mk s = jobFault { s with func := code } .badLength s.inLen) ∨
    (s.state ≠ .busy ∧ s.inLen.toNat ≤ s.params.inCap ∧
      startJob code mk s = { s with
        func := code, state := .busy, err := .none, outLen := 0, errInfo := 0, inBuf := [], outBuf := [],
        job := mk (inputSnapshot s), draws := s.draws + s.inLen.toNat }) := by
  unfold startJob
  split
  · next h => exact .inl ⟨h, rfl⟩
  · next h =>
    split
    · next hl => exact .inr (.inl ⟨h, hl, rfl⟩)
    · next hl => exact .inr (.inr ⟨h, by omega, rfl⟩)

@[simp] theorem length_inputSnapshot (s : State) : (inputSnapshot s).length = s.inLen.toNat := by
  simp [inputSnapshot]

/-- Byte i of the snapshot is the byte IN lists at i, or a free value. -/
theorem getElem?_inputSnapshot (s : State) (i : Nat) (h : i < s.inLen.toNat) :
    (inputSnapshot s)[i]? = some ((Memory.get? s.inBuf i).getD (Config.freeByte (s.draws + i))) := by
  simp only [inputSnapshot, List.getElem?_map, List.getElem?_range h, Option.map_some]
  cases Memory.get? s.inBuf i <;> rfl

/-- All the block's own turn can be. -/
theorem blockTurn_cases (s : State) :
    (s.job = .none ∧ blockTurn s = .other (.next s)) ∨
    (∃ u input, s.job = .unit u input ∧
      blockTurn s = .other (.next (finishJob s (unitResult s.params u input)))) ∨
    (∃ v i, s.job = .vm v ∧ vmFetch v = .ok i ∧ blockTurn s = .run i s) ∨
    (∃ v code, s.job = .vm v ∧ vmFetch v = .error code ∧ blockTurn s = .other (.next (jobFault s code v.pc))) := by
  cases hj : s.job with
  | none => exact .inl ⟨rfl, by simp [blockTurn, hj]⟩
  | unit u input => exact .inr (.inl ⟨u, input, rfl, by simp [blockTurn, hj]⟩)
  | vm v =>
    cases hf : vmFetch v with
    | ok i => exact .inr (.inr (.inl ⟨v, i, rfl, hf, by simp [blockTurn, hj, hf]⟩))
    | error code => exact .inr (.inr (.inr ⟨v, code, rfl, hf, by simp [blockTurn, hj, hf]⟩))

/-- All a step can be: an action of the host that is no job command, a job command, or the block's own turn, at the
state `t` with the action taken off the list. -/
theorem turn_cases (s : State) :
    (s.host = [] ∧ turn s = blockTurn s) ∨
    (∃ rest, s.host = .turn :: rest ∧ turn s = blockTurn { s with host := rest }) ∨
    (∃ move rest i, s.host = move :: rest ∧ hostInstr move = some i ∧ turn s = .run i { s with host := rest }) ∨
    (∃ move rest, s.host = move :: rest ∧ move ≠ .turn ∧ hostInstr move = none ∧
      turn s = .other (hostAccess move { s with host := rest })) := by
  cases hh : s.host with
  | nil => exact .inl ⟨rfl, by simp [turn, hh]⟩
  | cons move rest =>
    right
    cases move with
    | turn => exact .inl ⟨rest, rfl, by simp [turn, hh, hostTurn]⟩
    | writeReg width offset value =>
      right
      cases hi : hostInstr (.writeReg width offset value) with
      | some i => exact .inl ⟨_, rest, i, rfl, hi, by simp [turn, hh, hostTurn, hi]⟩
      | none => exact .inr ⟨_, rest, rfl, by simp, hi, by simp [turn, hh, hostTurn, hi]⟩
    | readReg width offset => exact .inr (.inr ⟨_, rest, rfl, by simp, rfl, by simp [turn, hh, hostTurn]⟩)
    | readIn i => exact .inr (.inr ⟨_, rest, rfl, by simp, rfl, by simp [turn, hh, hostTurn]⟩)
    | writeIn i value => exact .inr (.inr ⟨_, rest, rfl, by simp, rfl, by simp [turn, hh, hostTurn]⟩)
    | readOut i => exact .inr (.inr ⟨_, rest, rfl, by simp, rfl, by simp [turn, hh, hostTurn]⟩)
    | writeOut i value => exact .inr (.inr ⟨_, rest, rfl, by simp, rfl, by simp [turn, hh, hostTurn]⟩)
    | reset => exact .inr (.inr ⟨_, rest, rfl, by simp, rfl, by simp [turn, hh, hostTurn]⟩)

theorem step_of_run {s t : State} {i : Instr} (h : turn s = .run i t) : step s = exec i t := by
  simp [step, h]

theorem step_of_other {s : State} {o : Outcome} (h : turn s = .other o) : step s = o := by
  simp [step, h]

/-- A register access that answers a next state answers the state it was given, and was a proper one. -/
theorem regAccess_cases {width offset : Nat} {t u : State} (h : regAccess width offset t = .next u) :
    width = 32 ∧ offset % 4 = 0 ∧ offset ≤ 0xFF ∧ u = t := by
  unfold regAccess at h
  split at h
  · cases h
  · split at h
    · cases h
    · split at h
      · cases h
      · next h1 h2 h3 => exact ⟨by simpa using h1, by simpa using h2, by omega, (Host.Outcome.next.inj h).symm⟩

end Sys2Proof.Machine
end

