-- ==== Sys2Proof/Laws/Packet.lean ====
section
/-! SUPPORT. The end-around-carry value of a plain sum, one word at a time. -/

namespace Sys2Proof.Machine

open Sys2Proof.Safety

@[simp] theorem endAround_zero : endAround 0 = 0 := rfl

theorem endAround_le (n : Nat) : endAround n ≤ 0xFFFF := by
  unfold endAround
  split <;> omega

/-- A sum that fits 16 bits is its own end-around value. -/
theorem endAround_of_le {n : Nat} (h : n ≤ 0xFFFF) : endAround n = n := by
  unfold endAround
  split <;> omega

/-- One word added and folded (43_packet_extractor.md R222): the fold keeps the end-around value. -/
theorem foldCarry_endAround_add (n : Nat) {w : Nat} (h : w ≤ 0xFFFF) :
    foldCarry (endAround n + w) = endAround (n + w) := by
  unfold foldCarry endAround
  split <;> split <;> split <;> omega

end Sys2Proof.Machine
end

