-- ==== Sys2Proof/Laws/PerInstr.lean ====
section
/-! SUPPORT. Laws over all instructions, one lemma per constructor. Family `Length`: the encoding of a VM instruction has
the length of its format (30_encoding.md R120, R125), and a job command has no VM encoding. -/

namespace Sys2Proof.Laws.Length

open Sys2Proof.Safety

/-- The length law of one instruction. -/
def Statement (i : Instr) : Prop :=
  (encodeBytes i).length = if i.isVm then formatLength i else 0

theorem halt : Statement .halt := rfl
theorem out : Statement .out := rfl
theorem cmp : Statement .cmp := rfl
theorem add : Statement .add := rfl
theorem sub : Statement .sub := rfl
theorem xor : Statement .xor := rfl
theorem aptr (imm8 : Byte) : Statement (.aptr imm8) := rfl
theorem jez (imm32 : Word) : Statement (.jez imm32) := rfl
theorem jnz (imm32 : Word) : Statement (.jnz imm32) := rfl
theorem mv (dst src : Opnd8) : Statement (.mv dst src) := rfl
theorem mvi (dst : Opnd8) (imm8 : Byte) : Statement (.mvi dst imm8) := rfl
theorem mv32 (dst src : Reg32) : Statement (.mv32 dst src) := rfl
theorem mvi32 (dst : Reg32) (imm32 : Word) : Statement (.mvi32 dst imm32) := rfl
theorem jobAscii85 : Statement .jobAscii85 := rfl
theorem jobBitflip : Statement .jobBitflip := rfl
theorem jobParity : Statement .jobParity := rfl
theorem jobPacket : Statement .jobPacket := rfl
theorem jobUnwrap : Statement .jobUnwrap := rfl
theorem jobVm : Statement .jobVm := rfl

end Sys2Proof.Laws.Length
end

