-- ==== Sys2Proof/Laws/Vm.lean ====
section
/-! SUPPORT. A VM memory with no holes: which addresses it has, and what a run of bytes from an address is. -/

namespace Sys2Proof.Safety

open Sys2Proof.Machine

theorem dense_ofBytes (bytes : List Byte) : dense (Memory.ofBytes bytes) = true := by
  have hl : (Memory.ofBytes bytes).length = bytes.length := by simp [Memory.ofBytes]
  simp only [dense, hl, decide_eq_true_eq]
  simp [Memory.ofBytes, List.range_eq_range']

theorem get?_isSome_iff_lt {m : Memory} (h : dense m = true) (a : Nat) :
    (Memory.get? m a).isSome = true ↔ a < Memory.size m := by
  simp only [dense, decide_eq_true_eq] at h
  rw [get?_isSome_iff, h]
  simp [Memory.size]

theorem get?_eq_none_of_size_le {m : Memory} (h : dense m = true) {a : Nat} (ha : Memory.size m ≤ a) :
    Memory.get? m a = none := by
  cases hg : Memory.get? m a with
  | none => rfl
  | some x =>
    have := (get?_isSome_iff_lt h a).mp (by rw [hg]; rfl)
    omega

theorem exists_get?_of_lt {m : Memory} (h : dense m = true) {a : Nat} (ha : a < Memory.size m) :
    ∃ x, Memory.get? m a = some x :=
  Option.isSome_iff_exists.mp ((get?_isSome_iff_lt h a).mpr ha)

/-- A run of bytes from an address is as long as asked, or ends with the memory. -/
theorem length_run {m : Memory} (h : dense m = true) (a n : Nat) :
    (Memory.run m a n).length = min n (Memory.size m - a) := by
  induction n generalizing a with
  | zero => simp [Memory.run]
  | succ n ih =>
    by_cases ha : a < Memory.size m
    · obtain ⟨x, hx⟩ := exists_get?_of_lt h ha
      rw [run_succ_of_get? hx, List.length_cons, ih]
      omega
    · rw [run_succ_of_none (get?_eq_none_of_size_le h (by omega)), List.length_nil]
      omega

/-- Byte k of a run is the byte at the address k further on. -/
theorem getElem?_run {m : Memory} (h : dense m = true) (a : Nat) {k n : Nat} (hk : k < n) :
    (Memory.run m a n)[k]? = Memory.get? m (a + k) := by
  induction n generalizing a k with
  | zero => omega
  | succ n ih =>
    by_cases ha : a < Memory.size m
    · obtain ⟨x, hx⟩ := exists_get?_of_lt h ha
      rw [run_succ_of_get? hx]
      cases k with
      | zero => simp [hx]
      | succ k =>
        rw [List.getElem?_cons_succ, ih (a + 1) (by omega)]
        congr 1
        omega
    · rw [run_succ_of_none (get?_eq_none_of_size_le h (by omega)), get?_eq_none_of_size_le h (by omega)]
      rfl

/-- Storing at an address a memory has leaves it with the same addresses. -/
theorem dense_set {m : Memory} (h : dense m = true) {a : Nat} (ha : a < Memory.size m) (x : Byte) :
    dense (Memory.set m a x) = true ∧ Memory.size (Memory.set m a x) = Memory.size m := by
  have hwf : Memory.wf m = true := by
    simp only [dense, decide_eq_true_eq] at h
    rw [wf_iff_pairwise, h]
    exact List.pairwise_lt_range
  have hm := map_fst_set_of_listed x hwf ((get?_isSome_iff_lt h a).mpr ha)
  have hl : (Memory.set m a x).length = m.length := by simpa using congrArg List.length hm
  refine ⟨?_, hl⟩
  simp only [dense, decide_eq_true_eq] at h ⊢
  rw [hm, h, hl]

end Sys2Proof.Safety
end

