-- ==== Sys2Proof/Tests/Slice0.lean ====
section
/-! SUPPORT. The model's own tests: words written out from the spec's encodings, refusals of ill-formed terms, single
steps with the results of the spec's worked examples (the rule or the vector of 95_test_vectors.md is named), and one
witness for the hypotheses of each obligation. -/

namespace Sys2Proof.Tests

open Sys2Proof.Machine Sys2Proof.Safety

/-! ### Helpers -/

/-- The next state of an outcome. -/
def nextOf : Outcome → Option State
  | .next s => some s
  | .fault _ => none
  | .refused _ => none

/-- Whether an outcome is this refusal. -/
def refusedWith (o : Outcome) (r : Refusal) : Bool :=
  match o with
  | .next _ => false
  | .fault _ => false
  | .refused r' => decide (r' = r)

/-- Whether an outcome is this fault. -/
def faultedWith (o : Outcome) (f : Fault) : Bool :=
  match o with
  | .next _ => false
  | .fault f' => decide (f' = f)
  | .refused _ => false

/-- The VM run of an outcome's next state. -/
def vmOf (o : Outcome) : Option VmState :=
  match (nextOf o).map State.job with
  | some (.vm v) => some v
  | some .none => none
  | some (.unit _ _) => none
  | none => none

/-- How an outcome's next state says a job ended: STATE, ERR, ERR_INFO and what OUT holds. -/
def endOf (o : Outcome) : Option (JobState × ErrCode × Nat × List Byte) :=
  (nextOf o).map fun t => (t.state, t.err, t.errInfo.toNat, t.outBuf.map Prod.snd)

/-- The state in which a program image has just been loaded, with some registers set by `setup`. -/
def running (image : List Byte) (setup : VmState → VmState := id) : State :=
  { State.reset with
    func := 6, state := .busy, inLen := BitVec.ofNat 32 image.length, job := .vm (setup (vmInit image)) }

/-- The VM run of `running`. -/
def vmRun (image : List Byte) (setup : VmState → VmState := id) : VmState :=
  setup (vmInit image)

/-- An idle block in which the host has written an input and its length. -/
def loaded (input : List Byte) : State :=
  { State.reset with inBuf := Memory.ofBytes input, inLen := BitVec.ofNat 32 input.length }

/-- A block that runs a unit on an input. -/
def working (u : UnitFn) (input : List Byte) : State :=
  { State.reset with
    func := unitCode u, state := .busy, inLen := BitVec.ofNat 32 input.length, job := .unit u input }

/-- The default block with capacities of 8 bytes. -/
def tiny (s : State) : State :=
  { s with params := { Params.default with inCap := 8, outCap := 8 } }

/-- A block whose host does one thing. -/
def doing (s : State) (move : HostMove) : State :=
  { s with host := [move] }

/-! ### Decoding: one word per constructor, written out from 30_encoding.md R110, R121, R123 -/

theorem test_decode_halt : decode (.vmBytes [0b00000001]) = some .halt := by decide
theorem test_decode_out : decode (.vmBytes [0b00000010]) = some .out := by decide
theorem test_decode_cmp : decode (.vmBytes [0b11000001]) = some .cmp := by decide
theorem test_decode_add : decode (.vmBytes [0b11000010]) = some .add := by decide
theorem test_decode_sub : decode (.vmBytes [0b11000011]) = some .sub := by decide
theorem test_decode_xor : decode (.vmBytes [0b11000100]) = some .xor := by decide
/-- R338: `E1 01`. -/
theorem test_decode_aptr : decode (.vmBytes [0b11100001, 0x01]) = some (.aptr 1) := by decide
/-- R336: `21 3A 00 00 00`; the bytes are little-endian (R84). -/
theorem test_decode_jez : decode (.vmBytes [0b00100001, 0x3A, 0x00, 0x00, 0x01]) = some (.jez 0x0100003A) := by decide
/-- R337: `22 1D 00 00 00`. -/
theorem test_decode_jnz : decode (.vmBytes [0b00100010, 0x1D, 0x00, 0x00, 0x00]) = some (.jnz 0x1D) := by decide
/-- kk = 01, ddd = 111, sss = 011. -/
theorem test_decode_mv : decode (.vmBytes [0b01111011]) = some (.mv .ptrC (.reg .c)) := by decide
/-- kk = 01, ddd = 010, sss = 000; R340: `50 48`. -/
theorem test_decode_mvi : decode (.vmBytes [0b01010000, 0x48]) = some (.mvi (.reg .b) 72) := by decide
/-- kk = 10, ddd = 101, sss = 010; R341: `AA`. -/
theorem test_decode_mv32 : decode (.vmBytes [0b10101010]) = some (.mv32 .ptr .lb) := by decide
/-- kk = 10, ddd = 110, sss = 000; R342: `B0 29 00 00 00`. -/
theorem test_decode_mvi32 : decode (.vmBytes [0b10110000, 0x29, 0x00, 0x00, 0x00]) = some (.mvi32 .pc 0x29) := by
  decide
theorem test_decode_jobAscii85 : decode (.ctrlWord 0b100000000) = some .jobAscii85 := by decide
theorem test_decode_jobBitflip : decode (.ctrlWord 0b100000001) = some .jobBitflip := by decide
theorem test_decode_jobParity : decode (.ctrlWord 0b100000010) = some .jobParity := by decide
theorem test_decode_jobPacket : decode (.ctrlWord 0b100000100) = some .jobPacket := by decide
theorem test_decode_jobUnwrap : decode (.ctrlWord 0b100000101) = some .jobUnwrap := by decide
/-- The reserved bits of CTRL are not read (R32, R38). -/
theorem test_decode_jobVm : decode (.ctrlWord 0xFFFFFFFE) = some .jobVm := by decide
/-- Reserved FUNC codes and a clear START start nothing (R110, R32). -/
theorem test_decode_noJob :
    [0x103, 0x107, 0x006, 0x2FE].map (fun n => decode (.ctrlWord (BitVec.ofNat 32 n))) = [none, none, none, none] := by
  decide
/-- Vectors V3, V28 and V29: invalid opcode bytes. -/
theorem test_decode_invalid :
    ∀ op ∈ ([0x00, 0x40, 0x47, 0x8F, 0xB8, 0x80, 0xC0, 0xC5, 0xE0, 0xE2, 0x03, 0x20, 0x23, 0xFF] : List Byte),
      (decode (.vmBytes [op, 0, 0, 0, 0])) = none := by
  decide
/-- Vectors V5 and V6: a valid opcode whose immediate is cut short is no instruction. -/
theorem test_decode_truncated :
    decode (.vmBytes [0x21, 0x00, 0x00]) = none ∧ decode (.vmBytes [0xE1]) = none ∧ decode (.vmBytes []) = none := by
  decide
/-- The words of spec/opcode_table.json as the host numbers them. -/
theorem test_decodeTableWord :
    decodeTableWord 8 0x01 = some .halt ∧ decodeTableWord 8 0xC3 = some .sub ∧
    decodeTableWord 8 0x7B = some (.mv .ptrC (.reg .c)) ∧ decodeTableWord 8 0xAA = some (.mv32 .ptr .lb) ∧
    decodeTableWord 8 0x21 = some (.jez 0) ∧ decodeTableWord 32 0x102 = some .jobParity ∧
    decodeTableWord 16 0x106 = some .jobVm ∧ decodeTableWord 8 0x40 = none := by
  decide

/-! ### Well-formed terms: every check refuses an ill-formed one (20_memory.md R95) -/

/-- No term of `Instr` is ill formed, so the smoke tests are of the host's actions. -/
theorem test_wellFormed_instr : (Instr.mv .ptrC .ptrC).wellFormed = true := by decide
theorem test_wellFormed_width : (HostMove.readReg 16 0x00).wellFormed Params.default = false := by decide
theorem test_wellFormed_unaligned : (HostMove.writeReg 32 0x02 0).wellFormed Params.default = false := by decide
theorem test_wellFormed_offset : (HostMove.readReg 32 0x100).wellFormed Params.default = false := by decide
theorem test_wellFormed_inIndex :
    (HostMove.writeIn 8 0).wellFormed (tiny State.reset).params = false ∧
    (HostMove.readIn 8).wellFormed (tiny State.reset).params = false ∧
    (HostMove.readIn 7).wellFormed (tiny State.reset).params = true := by decide
theorem test_wellFormed_outIndex :
    (HostMove.readOut 8).wellFormed (tiny State.reset).params = false ∧
    (HostMove.writeOut 8 0).wellFormed (tiny State.reset).params = false ∧
    (HostMove.writeOut 7 0).wellFormed (tiny State.reset).params = true := by decide
/-- The same actions stop the step by name. -/
theorem test_step_refuses :
    refusedWith (step (doing State.reset (.readReg 16 0x00))) .accessWidth = true ∧
    refusedWith (step (doing State.reset (.writeReg 32 0x02 0))) .unalignedOffset = true ∧
    faultedWith (step (doing State.reset (.readReg 32 0x100))) .noSuchRegister = true ∧
    refusedWith (step (doing (tiny State.reset) (.writeIn 8 0))) .inIndex = true ∧
    refusedWith (step (doing (tiny State.reset) (.readOut 8))) .outIndex = true := by
  decide

/-! ### Single VM steps (46_bytecode_vm.md worked examples; vectors V of 95_test_vectors.md) -/

/-- V1: HALT ends the job with no output. -/
theorem test_halt : endOf (step (running [0x01])) = some (.done, .none, 0, []) := by decide
/-- HALT gives the output string, first byte first (R45). -/
theorem test_halt_output :
    endOf (step (running [0x01] fun v => { v with out := [0x48, 0x69] })) = some (.done, .none, 0, [0x48, 0x69]) := by
  decide
/-- R331: a = 0x48 appends `H`. -/
theorem test_out : (vmOf (step (running [0x02] fun v => { v with a := 0x48, out := [0x21] }))).map VmState.out
    = some [0x21, 0x48] := by decide
/-- V25: the second OUT of a block with OUT_CAP = 1 faults at its own address. -/
theorem test_out_overflow :
    endOf (step { running [0x02, 0x02] (fun v => { v with pc := 1, out := [0x00] }) with
      params := { Params.default with outCap := 1 } }) = some (.error, .outOverflow, 1, []) := by decide
/-- R332: a = 2, b = 2 gives f = 0. -/
theorem test_cmp_equal :
    (vmOf (step (running [0xC1] fun v => { v with a := 2, b := 2, f := 5 }))).map (·.f) = some 0 := by decide
/-- R332: a = 111, b = 9 gives f = 1. -/
theorem test_cmp_differs :
    (vmOf (step (running [0xC1] fun v => { v with a := 111, b := 9 }))).map (·.f) = some 1 := by decide
/-- V17: ADD wraps; f is unchanged (R333). -/
theorem test_add_wraps :
    (vmOf (step (running [0xC2] fun v => { v with a := 0xFF, b := 1, f := 7 }))).map (fun v => (v.a, v.b, v.f))
      = some (0, 1, 7) := by decide
/-- V18: SUB wraps. -/
theorem test_sub_wraps :
    (vmOf (step (running [0xC3] fun v => { v with a := 0, b := 1 }))).map (fun v => (v.a, v.b)) = some (0xFF, 1) := by
  decide
/-- R334: a = 44, b = 12 gives a = 32. -/
theorem test_sub : (vmOf (step (running [0xC3] fun v => { v with a := 44, b := 12 }))).map (·.a) = some 32 := by decide
/-- R335: a = 101, b = 9 gives a = 108. -/
theorem test_xor : (vmOf (step (running [0xC4] fun v => { v with a := 101, b := 9 }))).map (·.a) = some 108 := by decide
/-- R338: ptr = 77 with `E1 01` gives ptr = 78. -/
theorem test_aptr :
    (vmOf (step (running [0xE1, 0x01] fun v => { v with ptr := 77 }))).map (fun v => (v.ptr, v.pc)) = some (78, 2) := by
  decide
/-- V10: past 2^32 − 1 APTR faults. -/
theorem test_aptr_overflow :
    endOf (step (running [0xE1, 0x01] fun v => { v with ptr := 0xFFFFFFFF })) = some (.error, .vmPtrOverflow, 0, []) := by
  decide
/-- R336: taken with f = 0. -/
theorem test_jez_taken : (vmOf (step (running [0x21, 0x3A, 0, 0, 0]))).map (·.pc) = some 0x3A := by decide
/-- R336: not taken for an f other than 1. -/
theorem test_jez_not_taken :
    (vmOf (step (running [0x21, 0x3A, 0, 0, 0] fun v => { v with f := 0x80 }))).map (·.pc) = some 5 := by decide
/-- R337: taken with f = 1. -/
theorem test_jnz_taken :
    (vmOf (step (running [0x22, 0x1D, 0, 0, 0] fun v => { v with f := 1 }))).map (·.pc) = some 0x1D := by decide
/-- V14: not taken with f = 0. -/
theorem test_jnz_not_taken : (vmOf (step (running [0x22, 0, 0, 0, 0, 1]))).map (·.pc) = some 5 := by decide
/-- V22: MV c <- (ptr+c) reads with the old c. -/
theorem test_mv_load_old_c :
    (vmOf (step (running [0x5F, 0x01, 0x99] fun v => { v with ptr := 1, c := 1 }))).map (·.c) = some 0x99 := by decide
/-- V9: a store at L faults. -/
theorem test_mv_out_of_bounds :
    endOf (step (running [0x79] fun v => { v with ptr := 1 })) = some (.error, .vmMemOob, 0, []) := by decide
/-- V20: MVI stores into its own opcode byte and still runs whole. -/
theorem test_mvi_stores_into_itself :
    (vmOf (step (running [0x78, 0x07, 0x01]))).map (fun v => (v.mem, v.pc))
      = some ([(0, 0x07), (1, 0x07), (2, 0x01)], 2) := by decide
/-- V16: MVI f <- 5. -/
theorem test_mvi_f : (vmOf (step (running [0x70, 0x05]))).map (·.f) = some 5 := by decide
/-- V15: MV32 pc <- pc reads pc0 + 1. -/
theorem test_mv32_pc : (vmOf (step (running [0x00, 0xB6] fun v => { v with pc := 1 }))).map (·.pc) = some 2 := by decide
/-- V21: MV32 ptr <- la. -/
theorem test_mv32 :
    (vmOf (step (running [0xA9] fun v => { v with la := 0x12345678 }))).map (·.ptr) = some 0x12345678 := by decide
/-- V21: MVI32 la <- 0x12345678. -/
theorem test_mvi32 :
    (vmOf (step (running [0x88, 0x78, 0x56, 0x34, 0x12]))).map (fun v => (v.la, v.pc)) = some (0x12345678, 5) := by decide
/-- V12: MVI32 pc <- 0x100 does not check its target. -/
theorem test_mvi32_pc : (vmOf (step (running [0xB0, 0x00, 0x01, 0x00, 0x00]))).map (·.pc) = some 0x100 := by decide
/-- V2, V3, V5: the three ways a fetch fails. -/
theorem test_fetch_faults :
    endOf (step (running [])) = some (.error, .vmFetchOob, 0, []) ∧
    endOf (step (running [0x00])) = some (.error, .vmInvalidOpcode, 0, []) ∧
    endOf (step (running [0x21, 0x00, 0x00])) = some (.error, .vmFetchOob, 0, []) :=
  ⟨by decide, by decide, by decide⟩

/-! ### The job engine (vectors J) -/

/-- J1: every register reads 0 after reset. -/
theorem test_reset_reads :
    [0x00, 0x04, 0x08, 0x0C, 0x10, 0x14, 0xFC].map
      (fun n => (nextOf (step (doing State.reset (.readReg 32 n)))).map State.readData)
      = List.replicate 7 (some 0) := by decide
/-- J2: STATUS = 0x0000_0103 after a START with FUNC 3. -/
theorem test_badFunc :
    (nextOf (step (doing State.reset (.writeReg 32 0 0x103)))).map (fun t => (regRead t 0x04, regRead t 0x10))
      = some (0x103, 3) := by decide
/-- J3: BAD_FUNC is checked before BAD_LENGTH. -/
theorem test_badFunc_first :
    endOf (step (doing { tiny State.reset with inLen := 9 } (.writeReg 32 0 0x107))) = some (.error, .badFunc, 7, []) := by
  decide
/-- J4. -/
theorem test_badLength :
    endOf (step (doing { tiny State.reset with inLen := 9 } (.writeReg 32 0 0x101)))
      = some (.error, .badLength, 9, []) := by decide
/-- J6: START = 0 only stores FUNC. -/
theorem test_func_only :
    (nextOf (step (doing State.reset (.writeReg 32 0 0x001)))).map (fun t => (regRead t 0x00, regRead t 0x04))
      = some (1, 0) := by decide
/-- J9: a START while BUSY is ignored. -/
theorem test_start_while_busy :
    (nextOf (step (doing (running [0x21, 0, 0, 0, 0]) (.writeReg 32 0 0x101)))).map (fun t => (t.state, t.func, t.job))
      = some (.busy, 6, .vm (vmInit [0x21, 0, 0, 0, 0])) := by decide
/-- Each job command starts its unit on the written input. -/
theorem test_jobAscii85 :
    (nextOf (exec .jobAscii85 (loaded [0x3C]))).map (fun t => (t.state, t.job)) = some (.busy, .unit .ascii85 [0x3C]) := by
  decide
theorem test_jobBitflip :
    (nextOf (exec .jobBitflip (loaded [0xB4]))).map (fun t => (t.func, t.job)) = some (1, .unit .bitflip [0xB4]) := by
  decide
theorem test_jobParity :
    (nextOf (exec .jobParity (loaded [0x81]))).map (fun t => (t.func, t.job)) = some (2, .unit .parity [0x81]) := by decide
theorem test_jobPacket :
    (nextOf (exec .jobPacket (loaded [0x45]))).map (fun t => (t.func, t.job)) = some (4, .unit .packet [0x45]) := by decide
theorem test_jobUnwrap :
    (nextOf (exec .jobUnwrap (loaded [0x00]))).map (fun t => (t.func, t.job)) = some (5, .unit .unwrap [0x00]) := by decide
theorem test_jobVm :
    (nextOf (exec .jobVm (loaded [0x50, 0x48]))).map (fun t => (t.func, t.job)) = some (6, .vm (vmInit [0x50, 0x48])) := by
  decide
/-- S4: FUNC = 1 on B4 gives F0. -/
theorem test_bitflip_job : endOf (step (working .bitflip [0xB4])) = some (.done, .none, 0, [0xF0]) := by decide
/-- J7: OUT_OVERFLOW with ERR_INFO = OUT_CAP. -/
theorem test_out_overflow_job :
    endOf (step { working .ascii85 [0x3C, 0x7E, 0x7A, 0x7E, 0x3E] with params := { Params.default with outCap := 3 } })
      = some (.error, .outOverflow, 3, []) := by decide
/-- R410: reset abandons a job that never ends. -/
theorem test_reset_while_busy :
    (nextOf (step (doing (running [0x21, 0, 0, 0, 0]) .reset))).map (fun t => (t.state, t.job)) = some (.idle, .none) := by
  decide
/-- A table word placed after reset is what the next step runs. -/
theorem test_withFetchWord :
    (vmOf (step (State.reset.withFetchWord 8 0xB6))).map (·.pc) = some 1 ∧
    (nextOf (step (State.reset.withFetchWord 32 0x101))).map State.state = some .busy := by decide

/-! ### The units -/

/-- A12, with the sequences of 1 to 5 characters it has. -/
theorem test_ascii85 :
    fAscii85 .split [0x3C, 0x7E, 0x38, 0x37, 0x63, 0x55, 0x52, 0x44, 0x5D, 0x69, 0x2C, 0x22, 0x45, 0x62, 0x6F, 0x38, 0x30,
      0x7E, 0x3E] = .ok [0x48, 0x65, 0x6C, 0x6C, 0x6F, 0x20, 0x57, 0x6F, 0x72, 0x6C, 0x64, 0x21] := by decide
/-- A18: white space inside a run under SPLIT and under SKIP. -/
theorem test_ascii85_ws :
    fAscii85 .split [0x3C, 0x7E, 0x39, 0x6A, 0x71, 0x20, 0x6F, 0x5E, 0x7E, 0x3E] = .ok [0x4D, 0x61, 0xF4] ∧
    fAscii85 .skip [0x3C, 0x7E, 0x39, 0x6A, 0x71, 0x20, 0x6F, 0x5E, 0x7E, 0x3E] = .ok [0x4D, 0x61, 0x6E, 0x20] := by
  decide
/-- A11, A28, A33, A35, A38: each error at its offset. -/
theorem test_ascii85_errors :
    fAscii85 .split [0x3C, 0x7E, 0x7A, 0x75, 0x7E, 0x3E] = .err .a85Overflow 3 ∧
    fAscii85 .split [0x3C, 0x7E, 0x7B, 0x7E, 0x3E] = .err .a85InvalidCharacter 2 ∧
    fAscii85 .split [0x3C, 0x7E, 0x61, 0x62, 0x7E, 0x78] = .err .a85ParseError 4 ∧
    fAscii85 .split [0x3C, 0x7E, 0x61, 0x62, 0x7E, 0x3E, 0x20, 0x78] = .err .a85ParseError 7 ∧
    fAscii85 .split [] = .err .a85ParseError 0 := by decide
/-- R190: 0x00, 0xFF and 0x33. -/
theorem test_flipRotate : flipRotate 0x00 = 0xAA ∧ flipRotate 0xFF = 0x55 ∧ flipRotate 0x33 = 0x33 := by decide
/-- S7: 0x80 has the wrong parity and is dropped. -/
theorem test_parity :
    fParity [0x80, 0x81, 0xC0, 0xE1, 0xF0, 0x81, 0xC0, 0xE1, 0xF0]
      = .ok [0x81, 0x83, 0x87, 0x88, 0x18, 0x38, 0x78] := by decide
/-- K1, K2, K4a. -/
theorem test_csum16 :
    csum16 [0x45, 0x00, 0x00, 0x73, 0x00, 0x00, 0x40, 0x00, 0x40, 0x11, 0x00, 0x00, 0xC0, 0xA8, 0x00, 0x01, 0xC0, 0xA8,
      0x00, 0xC7] = 0x479E ∧ csum16 [0xFF, 0xFF, 0x00, 0x01] = 1 ∧ csum16 [0x12] = 0x1200 := by decide
/-- P1 of vector K5, an accepted packet with payload `Hi!`. -/
def packetP1 : List Byte :=
  [0x45, 0x00, 0x00, 0x1f, 0x00, 0x01, 0x00, 0x00, 0x40, 0x11, 0x63, 0xfa, 0x0a, 0x01, 0x01, 0x0a, 0x0a, 0x01, 0x01, 0xc8,
   0x04, 0xd2, 0xa4, 0x55, 0x00, 0x0b, 0xd6, 0x73, 0x48, 0x69, 0x21]
/-- K5 and K7: P1 is accepted, its last byte cut off it is malformed. -/
theorem test_packet :
    fPacket Params.default packetP1 = .ok [0x48, 0x69, 0x21] ∧
    fPacket Params.default (packetP1.take 30) = .err .pktMalformed 0 := by decide
/-- K6: the payload before a malformed packet is discarded. -/
theorem test_packet_malformed :
    fPacket Params.default (packetP1 ++ [0x45, 0, 0, 0x14] ++ List.replicate 16 0) = .err .pktMalformed 31 := by decide
/-- R298, U1: the known answer of AES-256. -/
theorem test_aes_encrypt :
    aesEncrypt (toBe 0x000102030405060708090A0B0C0D0E0F101112131415161718191A1B1C1D1E1F 32)
      (toBe 0x00112233445566778899AABBCCDDEEFF 16) = toBe 0x8EA2B7CA516745BFEAFC49904B496089 16 := by
  decide +kernel
/-- U3: the first round of the RFC 3394 vector. -/
theorem test_unwrapRound :
    let w := unwrapRound (toBe 0x000102030405060708090A0B0C0D0E0F101112131415161718191A1B1C1D1E1F 32) 5 4
      { a := 0x28C9F404C4B810F4, r0 := toBe 0xCBCCB35CFB87F826 8, r1 := toBe 0x3F5786E2D80ED326 8,
        r2 := toBe 0xCBC7F0E71A99F43B 8, r3 := toBe 0xFB988B9B7A02DD21 8 }
    w.a = 0x0AEB82AE3146A90C ∧ w.r3 = toBe 0x07DFE775B9687E73 8 := by
  decide +kernel
/-- U6: the counter after FF … FF. -/
theorem test_nextCounter : nextCounter .full128 0xFFFFFFFFFFFFFFFFFFFFFFFFFFFFFFFF = 0 := by decide
/-- U10: an empty input is too short. -/
theorem test_unwrap_short : fUnwrap Params.default [] = .err .unwrapShortInput 0 := by decide

/-! ### Witnesses: concrete states and operands that meet the hypotheses of each obligation -/

/-- The VM run of `running` in a state with an output of 8 bytes in a block with an OUT_CAP of 8. -/
def fullOut : State :=
  tiny (running [0x02] fun v => { v with out := [1, 2, 3, 4, 5, 6, 7, 8] })

/-- The text `<~~>` of an empty payload as a job input. -/
def emptyText : List Byte := [0x3C, 0x7E, 0x7E, 0x3E]

/-- The 96 header bytes of an UNWRAP input with a given IV field: KEK, IV field, wrapped key and nonce. -/
def unwrapHeader (iv : List Byte) : List Byte :=
  List.replicate 32 0x11 ++ iv ++ List.replicate 40 0x22 ++ List.replicate 16 0x33

theorem witness_DecodeOfEncodeGivesTheInstruction :
    (Instr.mvi32 .pc 0xFFFFFFFF).wellFormed = true ∧ (Instr.mvi32 .pc 0xFFFFFFFF).isVm = true := by decide

theorem witness_DecodedBytesAreTheEncoding :
    (decodeBytes [0x50, 0x48, 0x01]).toOption = some (.mvi (.reg .b) 72, [0x01]) := by decide

theorem witness_OpcodeByteFixesTheLength :
    (Instr.jez 0).isVm = true ∧ (decodeBytes (0x21 :: [1, 2, 3, 4])).toOption = some (.jez 0x04030201, []) ∧
    ([1, 2, 3] : List Byte).length + 1 < opcodeLength 0x21 ∧
    opcodeLength 0x21 ≤ ([1, 2, 3, 4] : List Byte).length + 1 := by decide

theorem witness_RegisterReadsAndIgnoredWrites :
    (∀ offset ∈ [0x00, 0x04, 0x08, 0x0C, 0x10, 0x14, 0xFC], offset % 4 = 0 ∧ offset ≤ 0xFF) ∧
    (0x04 ≠ 0x00 ∧ 0x04 ≠ 0x08 ∧ 0xFC ≠ 0x00 ∧ 0xFC ≠ 0x08) ∧
    (nextOf (step (doing State.reset (.writeReg 32 0x00 0xFFFFFFFF)))).isSome = true := by decide

theorem witness_CtrlWriteStoresFunc :
    (running [0x01]).state = .busy ∧ State.reset.state ≠ .busy ∧ (0xFFFFFEFF : Word).getLsbD 8 = false := by decide

theorem witness_StartRunsTheUnitOfFunc :
    (tiny (loaded [1, 2, 3, 4, 5, 6, 7, 8])).state ≠ .busy ∧
    (tiny (loaded [1, 2, 3, 4, 5, 6, 7, 8])).inLen.toNat ≤ (tiny (loaded [1, 2, 3, 4, 5, 6, 7, 8])).params.inCap ∧
    ∀ n ∈ List.range 8, (BitVec.ofNat 32 (0x100 + n)).getLsbD 8 = true ∧
      (BitVec.ofNat 32 (0x100 + n)).toNat % 8 = n := by decide

theorem witness_ReservedFuncEndsInBadFunc :
    State.reset.state ≠ .busy ∧ (0x103 : Word).getLsbD 8 = true ∧ (0x103 : Word).toNat % 8 = 3 ∧
    (0x107 : Word).getLsbD 8 = true ∧ (0x107 : Word).toNat % 8 = 7 := by decide

theorem witness_InLenIsTheInputLength :
    (tiny State.reset).state ≠ .busy ∧ (running [0x01]).state = .busy ∧
    { tiny State.reset with inLen := 8 }.inLen.toNat ≤ (tiny State.reset).params.inCap ∧
    (tiny State.reset).params.inCap < { tiny State.reset with inLen := 9 }.inLen.toNat ∧
    commandCode .jobVm = some 6 := by decide

theorem witness_JobCommandMakesTheBlockBusy :
    commandCode .jobPacket = some 4 ∧ (running [0x01]).state = .busy ∧ (loaded [0x45]).state ≠ .busy ∧
    (loaded [0x45]).inLen.toNat ≤ (loaded [0x45]).params.inCap ∧ hostWrote (loaded [0x45]) [0x45] ∧
    Instr.jobPacket = unitCommand .packet :=
  ⟨by decide, by decide, by decide, by decide, ⟨by decide, by decide⟩, by decide⟩

theorem witness_VmJobStartsAtAddressZeroWithZeroRegisters :
    (loaded [0x50, 0x48]).state ≠ .busy ∧ (loaded [0x50, 0x48]).inLen.toNat ≤ (loaded [0x50, 0x48]).params.inCap ∧
    hostWrote (loaded [0x50, 0x48]) [0x50, 0x48] :=
  ⟨by decide, by decide, ⟨by decide, by decide⟩⟩

/-- All three results of a unit, the longest output that fits among them. -/
theorem witness_UnitJobEndsWithItsResult :
    (working .bitflip [0xB4]).job = .unit .bitflip [0xB4] ∧ (working .bitflip [0xB4]).host = [] ∧
    (tiny State.reset).params.ok = true ∧
    unitResult (tiny State.reset).params .bitflip (List.replicate 8 0x55) = .ok (List.replicate 8 0) ∧
    (List.replicate 8 (0 : Byte)).length ≤ (tiny State.reset).params.outCap ∧
    unitResult (tiny State.reset).params .bitflip (List.replicate 9 0x55) = .ok (List.replicate 9 0) ∧
    (tiny State.reset).params.outCap < (List.replicate 9 (0 : Byte)).length ∧
    unitResult (tiny State.reset).params .ascii85 [] = .err .a85ParseError 0 := by decide

/-- The error with its place at the very end of the input (A39). -/
theorem witness_UnitErrorPointsIntoTheInput :
    unitResult Params.default .ascii85 [0x3C, 0x7E] = .err .a85ParseError 2 := by decide

theorem witness_FaultLeavesNoOutputAndKeepsFuncAndInLen :
    (running [0x00]).state = .busy ∧ (nextOf (step (running [0x00]))).map State.state = some .error := by decide

theorem witness_HostBufferAccesses :
    (tiny State.reset).state ≠ .busy ∧ 7 < (tiny State.reset).params.inCap ∧ 7 < (tiny State.reset).params.outCap ∧
    Memory.get? (jobDone (tiny State.reset) [1, 2, 3, 4, 5, 6, 7, 8]).outBuf 7 = some 8 ∧
    (jobDone (tiny State.reset) [1, 2, 3, 4, 5, 6, 7, 8]).state ≠ .busy := by decide

theorem witness_BusyBufferAccesses :
    (tiny (running [0x01])).state = .busy ∧ 7 < (tiny (running [0x01])).params.inCap ∧
    7 < (tiny (running [0x01])).params.outCap := by decide

theorem witness_StepRunsTheDecodedVmInstruction :
    (running [0x50, 0x48, 0x01]).job = .vm (vmRun [0x50, 0x48, 0x01]) ∧ (running [0x50, 0x48, 0x01]).host = [] ∧
    (decodeBytes (Memory.run (vmRun [0x50, 0x48, 0x01]).mem (vmRun [0x50, 0x48, 0x01]).pc.toNat 5)).toOption
      = some (.mvi (.reg .b) 72, [0x01]) := by decide

theorem witness_StepRunsTheJobCommand : decodeCtrl 0x105 = some .jobUnwrap := by decide

/-- The four clauses, each at the edge of memory: pc = L, the last byte, one byte short, and an exact fit. -/
theorem witness_FetchFaultsOrRuns :
    (running [0xE1, 0x01]).job = .vm (vmRun [0xE1, 0x01]) ∧ (running [0xE1, 0x01]).host = [] ∧
    dense (vmRun [0xE1, 0x01]).mem = true ∧
    Memory.size (vmRun [0xE1] fun v => { v with pc := 1 }).mem ≤ (1 : Word).toNat ∧
    (Memory.get? (vmRun [0x00]).mem 0 = some 0x00 ∧ validOpcode 0x00 = false) ∧
    (validOpcode 0xE1 = true ∧ Memory.size (vmRun [0xE1]).mem < 0 + opcodeLength 0xE1) ∧
    0 + opcodeLength 0xE1 ≤ Memory.size (vmRun [0xE1, 0x01]).mem := by decide

theorem witness_HaltEndsTheJobWithTheOutput :
    fullOut.job = .vm (vmRun [0x02] fun v => { v with out := [1, 2, 3, 4, 5, 6, 7, 8] }) ∧ fullOut.params.ok = true ∧
    ([1, 2, 3, 4, 5, 6, 7, 8] : List Byte).length ≤ fullOut.params.outCap := by decide

theorem witness_OutAppendsA :
    fullOut.job = .vm (vmRun [0x02] fun v => { v with out := [1, 2, 3, 4, 5, 6, 7, 8] }) ∧
    ([1, 2, 3, 4, 5, 6, 7, 8] : List Byte).length = fullOut.params.outCap ∧
    (vmRun [0x02]).out.length ≠ (running [0x02]).params.outCap := by decide

theorem witness_CmpWritesFOnly :
    (running [0xC1]).job = .vm (vmRun [0xC1]) ∧ (vmRun [0xC1]).a.toNat = (vmRun [0xC1]).b.toNat ∧
    (vmRun [0xC1] fun v => { v with a := 255 }).a.toNat ≠ (vmRun [0xC1] fun v => { v with a := 255 }).b.toNat := by
  decide

theorem witness_AddSubXorWriteAOnly : (running [0xC2]).job = .vm (vmRun [0xC2]) := by decide

theorem witness_JezAndJnzTestF :
    (running [0x21, 0, 0, 0, 0]).job = .vm (vmRun [0x21, 0, 0, 0, 0]) ∧ (vmRun [0x21, 0, 0, 0, 0]).f = 0 ∧
    (vmRun [0x21, 0, 0, 0, 0] fun v => { v with f := 0xFF }).f ≠ 0 := by decide

/-- Both sides of 2^32 − 1. -/
theorem witness_AptrAdvancesPtr :
    (running [0xE1, 0x01]).job = .vm (vmRun [0xE1, 0x01]) ∧
    (0xFFFFFFFE : Word).toNat + (1 : Byte).toNat ≤ 0xFFFFFFFF ∧
    0xFFFFFFFF < (0xFFFFFFFE : Word).toNat + (2 : Byte).toNat := by decide

/-- The last byte of memory and the first past it. -/
theorem witness_MvMovesAByte :
    (running [0x79, 0x01]).job = .vm (vmRun [0x79, 0x01]) ∧ dense (vmRun [0x79, 0x01]).mem = true ∧
    Memory.size (vmRun [0x79, 0x01]).mem ≤ (1 : Word).toNat + (1 : Byte).toNat ∧
    (1 : Word).toNat + (0 : Byte).toNat < Memory.size (vmRun [0x79, 0x01]).mem := by decide

theorem witness_MviWritesTheImmediate :
    (running [0x78, 0x07]).job = .vm (vmRun [0x78, 0x07]) ∧ dense (vmRun [0x78, 0x07]).mem = true ∧
    (vmRun [0x78, 0x07] fun v => { v with ptr := 1 }).ptr.toNat + 0 < Memory.size (vmRun [0x78, 0x07]).mem ∧
    Memory.size (vmRun [0x78, 0x07]).mem ≤ (vmRun [0x78, 0x07] fun v => { v with ptr := 1 }).ptr.toNat + 1 := by decide

theorem witness_Mv32MovesAWord :
    (running [0xB6]).job = .vm (vmRun [0xB6]) ∧ Reg32.la ≠ .pc := by decide

theorem witness_Mvi32WritesTheImmediate :
    (running [0xB0, 0, 0, 0, 0]).job = .vm (vmRun [0xB0, 0, 0, 0, 0]) := by decide

/-- A store, with an address it leaves alone, and a register it does not write. -/
theorem witness_VmInstructionFrame :
    (Instr.mvi .ptrC 7).isVm = true ∧ (running [0x78, 0x07]).job = .vm (vmRun [0x78, 0x07]) ∧
    vmOf (exec (.mvi .ptrC 7) (running [0x78, 0x07]))
      = some { vmRun [0x78, 0x07] with pc := 2, mem := [(0, 0x07), (1, 0x07)] } ∧
    storeAddr (vmRun [0x78, 0x07]) (.mvi .ptrC 7) = some 0 ∧ Reg8.a ∉ dest8 (.mvi .ptrC 7) ∧
    Reg32.ptr ∉ dest32 (.mvi .ptrC 7) := by decide

theorem witness_VmInstructionEnds :
    Instr.halt.isVm = true ∧ Instr.cmp.isVm = true ∧ Instr.cmp ≠ .halt ∧
    (running [0x01]).job = .vm (vmRun [0x01]) := by decide

/-- A store into the byte after itself, seen there and not elsewhere. -/
theorem witness_StoreIsSeenByLaterFetches :
    (running [0x78, 0x01, 0x00] fun v => { v with ptr := 2 }).job
      = .vm (vmRun [0x78, 0x01, 0x00] fun v => { v with ptr := 2 }) ∧
    dense (vmRun [0x78, 0x01, 0x00] fun v => { v with ptr := 2 }).mem = true ∧
    storeAddr (vmRun [0x78, 0x01, 0x00] fun v => { v with ptr := 2 }) (.mvi .ptrC 1) = some 2 ∧
    (vmOf (exec (.mvi .ptrC 1) (running [0x78, 0x01, 0x00] fun v => { v with ptr := 2 }))).map VmState.mem
      = some [(0, 0x78), (1, 0x01), (2, 0x01)] := by decide

theorem witness_JumpToItselfNeverEnds :
    (running [0x21, 0, 0, 0, 0]).job = .vm (vmRun [0x21, 0, 0, 0, 0]) ∧ (running [0x21, 0, 0, 0, 0]).host = [] ∧
    (vmRun [0x21, 0, 0, 0, 0]).f = 0 ∧
    (decodeBytes (fetchWindow (vmRun [0x21, 0, 0, 0, 0]))).toOption
      = some (.jez (vmRun [0x21, 0, 0, 0, 0]).pc, []) := by decide

/-- A state that meets the invariant other than the reset state. -/
theorem running_inv : Inv (running [0x01]) where
  params := by decide
  inWf := by decide
  outWf := by decide
  busy := by decide
  noErr := by decide
  someErr := by decide
  noOut := by decide
  someOut := by decide
  job := ⟨by decide, by decide, by decide, by decide, by decide⟩

theorem witness_OnlyEndErrorOrResetLeavesBusy :
    Inv (running [0x01]) ∧ (running [0x01]).state = .busy ∧
    (nextOf (step (running [0x01]))).map State.state = some .done :=
  ⟨running_inv, by decide, by decide⟩

/-- Groups of 1 and 5 characters, and the two values about 2^32 − 1 (A7, A8). -/
theorem witness_GroupDecodesItsLeadingBytes :
    1 ≤ ([0x21] : List Byte).length ∧ ([0x73, 0x38, 0x57, 0x2D, 0x21] : List Byte).length ≤ 5 ∧
    (([0x73, 0x38, 0x57, 0x2D, 0x21] : List Byte).map (fun x => x.toNat - 33)).foldl (fun v d => v * 85 + d) 0
      = 0xFFFFFFFF ∧
    0xFFFFFFFF < (([0x73, 0x38, 0x57, 0x2D, 0x22] : List Byte).map (fun x => x.toNat - 33)).foldl
      (fun v d => v * 85 + d) 0 := by decide

theorem witness_SkipModeReadsThroughWhiteSpace : ∀ b ∈ ([0x20, 0x0A] : List Byte), charClass b = .ws := by decide

/-- The text of one byte, `<~!!~>`. -/
theorem witness_Ascii85JobUndoesTheEncoder :
    (loaded [0x3C, 0x7E, 0x21, 0x21, 0x7E, 0x3E]).state ≠ .busy ∧
    (loaded [0x3C, 0x7E, 0x21, 0x21, 0x7E, 0x3E]).host = [] ∧
    (loaded [0x3C, 0x7E, 0x21, 0x21, 0x7E, 0x3E]).params.ok = true ∧
    hostWrote (loaded [0x3C, 0x7E, 0x21, 0x21, 0x7E, 0x3E]) ([0x3C, 0x7E] ++ a85Encode [0x00] ++ [0x7E, 0x3E]) ∧
    (loaded [0x3C, 0x7E, 0x21, 0x21, 0x7E, 0x3E]).inLen.toNat
      ≤ (loaded [0x3C, 0x7E, 0x21, 0x21, 0x7E, 0x3E]).params.inCap ∧
    ([0x00] : List Byte).length ≤ (loaded [0x3C, 0x7E, 0x21, 0x21, 0x7E, 0x3E]).params.outCap :=
  ⟨by decide, by decide, by decide, ⟨by decide, by decide⟩, by decide, by decide⟩

/-- The bound is met with equality by markers alone and by `z`. -/
theorem witness_Ascii85OutputLengthBound :
    fAscii85 .split emptyText = .ok [] ∧ fAscii85 .skip [0x3C, 0x7E, 0x7A, 0x7E, 0x3E] = .ok [0, 0, 0, 0] := by decide

/-- Every kind of error (A10, A28, A34, A35, A36, A39). -/
theorem witness_Ascii85ErrorsPointAtTheirCause :
    fAscii85 .split [0x3C, 0x7E, 0x75, 0x75, 0x7E, 0x3E] = .err .a85Overflow 2 ∧
    fAscii85 .skip [0x3C, 0x7E, 0x75, 0x20, 0x75, 0x7E, 0x3E] = .err .a85Overflow 2 ∧
    groupAt .skip [0x3C, 0x7E, 0x75, 0x20, 0x75, 0x7E, 0x3E] 2 = [0x75, 0x75] ∧
    fAscii85 .split [0x3C, 0x7E, 0x7B, 0x7E, 0x3E] = .err .a85InvalidCharacter 2 ∧
    fAscii85 .split [0x3C, 0x7E, 0x7E, 0x7E, 0x3E] = .err .a85ParseError 2 ∧
    fAscii85 .split [0x3C, 0x7E, 0x7E, 0x3E, 0x78] = .err .a85ParseError 4 ∧
    fAscii85 .split [0x78, 0x3C, 0x7E, 0x7E, 0x3E] = .err .a85ParseError 0 ∧
    fAscii85 .split [0x3C, 0x7E] = .err .a85ParseError 2 := by decide

theorem witness_BitflipJobFlipsAndRotatesEachByte :
    (loaded [0xB4]).state ≠ .busy ∧ (loaded [0xB4]).host = [] ∧ (loaded [0xB4]).params.ok = true ∧
    hostWrote (loaded [0xB4]) [0xB4] ∧ (loaded [0xB4]).inLen.toNat ≤ (loaded [0xB4]).params.inCap ∧
    ([0xB4] : List Byte).length ≤ (loaded [0xB4]).params.outCap :=
  ⟨by decide, by decide, by decide, ⟨by decide, by decide⟩, by decide, by decide⟩

/-- Two valid bytes, so that one whole byte is packed, with an OUT that the input would not fit. -/
theorem witness_ParityJobPacksTheDataBits :
    let s := { loaded [0x81, 0xC0] with params := { Params.default with outCap := 1 } }
    s.state ≠ .busy ∧ s.host = [] ∧ s.params.ok = true ∧ hostWrote s [0x81, 0xC0] ∧ s.inLen.toNat ≤ s.params.inCap ∧
    7 * (([0x81, 0xC0] : List Byte).filter fun x =>
      decide (((List.range 8).filter (x.getLsbD ·)).length % 2 = 0)).length / 8 ≤ s.params.outCap ∧
    s.params.outCap < ([0x81, 0xC0] : List Byte).length :=
  ⟨by decide, by decide, by decide, ⟨by decide, by decide⟩, by decide, by decide, by decide⟩

/-- A header that sums to 0xFFFF and one that does not. -/
theorem witness_HeaderChecksumModesDifferOnlyAtFFFF :
    20 ≤ ([0xFF, 0xFF] ++ List.replicate 18 0 : List Byte).length ∧
    csum16 (zeroed2 (slice ([0xFF, 0xFF] ++ List.replicate 18 0) 0 20) 10) = 0xFFFF ∧
    csum16 (zeroed2 (slice (List.replicate 20 0) 0 20) 10) ≠ 0xFFFF := by decide

theorem witness_PacketOutputIsTheAcceptedPayloads :
    (∀ p ∈ [packetP1, packetP1.set 28 0x49], readablePacket p = true) ∧ (List.replicate 19 (0 : Byte)).length < 20 ∧
    passesChecks Params.default packetP1 = true ∧
    passesChecks Params.default (packetP1.set 28 0x49) = false := by decide

/-- Both kinds of malformed packet, each one byte off. -/
theorem witness_MalformedPacketEndsTheJob :
    (∀ p ∈ [packetP1], readablePacket p = true) ∧
    (20 ≤ ([0x45, 0, 0, 27] ++ List.replicate 16 0 : List Byte).length ∧
      be16 ([0x45, 0, 0, 27] ++ List.replicate 16 0) 2 < 28) ∧
    (20 ≤ (packetP1.take 30).length ∧ (packetP1.take 30).length < be16 (packetP1.take 30) 2) := by decide

/-- The shortest input, one byte less, and both settings of the check. -/
theorem witness_UnwrapErrorsAndOutputLength :
    ((unwrapHeader (toBe 0 8)).take 95).length < 96 ∧ 96 ≤ (unwrapHeader (toBe 0 8)).length ∧
    Params.default.unwrapCheckIv = false ∧ (toBe 0 8).length = 8 ∧
    { Params.default with unwrapCheckIv := true }.unwrapCheckIv = true := by decide

/-- The check fails on an IV field that is not the final A, and passes on the one that is. -/
theorem witness_UnwrapErrorsAndOutputLength_outcomes :
    ∃ a : U64,
      (96 ≤ (unwrapHeader (toBe a.toNat 8)).length ∧
        (unwrapInput (unwrapHeader (toBe a.toNat 8))).a = be64 (slice (unwrapHeader (toBe a.toNat 8)) 32 40)) ∧
      (96 ≤ (unwrapHeader (toBe (a + 1).toNat 8)).length ∧
        (unwrapInput (unwrapHeader (toBe (a + 1).toNat 8))).a
          ≠ be64 (slice (unwrapHeader (toBe (a + 1).toNat 8)) 32 40)) := by
  have hiv (x : Nat) : slice (unwrapHeader (toBe x 8)) 32 40 = toBe x 8 := rfl
  have hin (x : Nat) : unwrapInput (unwrapHeader (toBe x 8))
      = unwrapKey (List.replicate 32 0x11) (wrappedKey (unwrapHeader (toBe 0 8))) := by
    have hk : slice (unwrapHeader (toBe x 8)) 0 32 = List.replicate 32 0x11 := rfl
    have hw : wrappedKey (unwrapHeader (toBe x 8)) = wrappedKey (unwrapHeader (toBe 0 8)) := rfl
    rw [unwrapInput, hk, hw]
  have hlen (x : Nat) : 96 ≤ (unwrapHeader (toBe x 8)).length := by simp [unwrapHeader]
  obtain ⟨w, hw⟩ : ∃ w, w = unwrapKey (List.replicate 32 0x11) (wrappedKey (unwrapHeader (toBe 0 8))) := ⟨_, rfl⟩
  refine ⟨w.a, ⟨hlen _, ?_⟩, hlen _, ?_⟩
  · rw [hiv, hin, be64_toBe, hw]
  · rw [hiv, hin, be64_toBe, ← hw]
    intro h
    have h1 := congrArg BitVec.toNat h
    have h2 := w.a.isLt
    rw [BitVec.toNat_add] at h1
    simp at h1
    omega

theorem witness_CounterModeXorsTheKeystream : 16 < (List.replicate 17 (0 : Byte)).length := by decide

theorem witness_AesDecryptAndEncryptAreInverse : (toBe 0 16).length = 16 := by decide

theorem witness_UnwrapRecoversTheWrappedPayload :
    (toBe 0 32).length = 32 ∧ (toBe 0 8).length = 8 ∧ (toBe 0 16).length = 16 := by decide

theorem witness_StepKeepsTheInvariant :
    Inv (running [0x01]) ∧ (nextOf (step (running [0x01]))).isSome = true :=
  ⟨running_inv, by decide⟩

theorem witness_StepKeepsTheParameters : (nextOf (step (doing State.reset .reset))).isSome = true := by decide

theorem witness_JobsDependOnNothingButTheirInput :
    (working .bitflip [0xB4]).job = { working .bitflip [0xB4] with func := 7, inLen := 5 }.job ∧
    (working .bitflip [0xB4]).job ≠ .none ∧
    (working .bitflip [0xB4]).params = { working .bitflip [0xB4] with func := 7, inLen := 5 }.params ∧
    (working .bitflip [0xB4]).host = [] ∧
    (nextOf (step (working .bitflip [0xB4]))).map State.job = some .none ∧
    (nextOf (step { working .bitflip [0xB4] with func := 7, inLen := 5 })).map State.job = some .none := by decide

end Sys2Proof.Tests
end

section
/-! SUPPORT. A unit never reports the code NONE: its errors have a real code (30_encoding.md R112, 60_exceptions.md
R381). -/

namespace Sys2Proof.Machine

theorem decodeGroup_ne_err_none (g : List Byte) (p info : Nat) : decodeGroup g p ≠ .err .none info := by
  intro h
  exact absurd (decodeGroup_err h).1 (by decide)

theorem closeGroup_ne_err_none (g : List Byte) (p info : Nat) : closeGroup g p ≠ .err .none info := by
  intro h
  exact decodeGroup_ne_err_none g p info (closeGroup_err h).2

theorem a85Trailing_ne_err_none (t : List Byte) (i : Nat) (out : List Byte) (info : Nat) :
    a85Trailing t i out ≠ .err .none info := by
  induction t generalizing i with
  | nil => simp [a85Trailing]
  | cons b t ih =>
    rw [a85Trailing]
    split
    · exact ih (i + 1)
    · simp

theorem a85EndMarker_ne_err_none (i : Nat) (out t : List Byte) (info : Nat) :
    a85EndMarker i out t ≠ .err .none info := by
  cases t with
  | nil => simp [a85EndMarker]
  | cons e u =>
    rw [a85EndMarker]
    split
    · exact a85Trailing_ne_err_none u (i + 2) out info
    · simp

theorem a85NoEnd_ne_err_none (g : List Byte) (p i info : Nat) : a85NoEnd g p i ≠ .err .none info := by
  unfold a85NoEnd
  split
  · next code j hc =>
    rintro ⟨⟩
    exact closeGroup_ne_err_none g p info hc
  · simp

/-- The scan stops with the code NONE neither in the group nor in what follows it. -/
theorem afterGroup_ne_stop_err_none {r : UnitResult} {k : List Byte → ScanStep} (info : Nat)
    (hr : r ≠ .err .none info) (hk : ∀ bytes, k bytes ≠ .stop (.err .none info)) :
    afterGroup r k ≠ .stop (.err .none info) := by
  intro h
  rcases afterGroup_stop h with ⟨code, j, hc, he⟩ | ⟨bytes, _, hb⟩
  · exact hr (hc.trans he.symm)
  · exact hk bytes hb

theorem a85Step_ne_stop_err_none (mode : A85Ws) (b : Byte) (t : List Byte) (i : Nat) (g : List Byte) (p : Nat)
    (out : List Byte) (info : Nat) : a85Step mode b t i g p out ≠ .stop (.err .none info) := by
  have hclose := closeGroup_ne_err_none g p info
  cases hc : charClass b with
  | alpha =>
    simp only [a85Step, hc]
    split
    · exact afterGroup_ne_stop_err_none info (decodeGroup_ne_err_none _ _ info) (by simp)
    · simp
  | zero =>
    simp only [a85Step, hc]
    exact afterGroup_ne_stop_err_none info hclose (by simp)
  | tilde =>
    simp only [a85Step, hc]
    refine afterGroup_ne_stop_err_none info hclose fun bytes h => ?_
    exact a85EndMarker_ne_err_none i (out ++ bytes) t info (ScanStep.stop.inj h)
  | ws =>
    simp only [a85Step, hc]
    split
    · simp
    · exact afterGroup_ne_stop_err_none info hclose (by simp)
  | other =>
    simp only [a85Step, hc]
    exact afterGroup_ne_stop_err_none info hclose (by simp)

theorem a85Scan_ne_err_none (mode : A85Ws) (t : List Byte) (i : Nat) (g : List Byte) (p : Nat) (out : List Byte)
    (info : Nat) : a85Scan mode t i g p out ≠ .err .none info := by
  induction t generalizing i g p out with
  | nil => exact a85NoEnd_ne_err_none g p i info
  | cons b t ih =>
    cases hs : a85Step mode b t i g p out with
    | stop r =>
      rw [a85Scan_of_stop hs]
      rintro rfl
      exact a85Step_ne_stop_err_none mode b t i g p out info hs
    | go g' p' out' =>
      rw [a85Scan_of_go hs]
      exact ih (i + 1) g' p' out'

theorem fAscii85_ne_err_none (mode : A85Ws) (input : List Byte) (info : Nat) :
    fAscii85 mode input ≠ .err .none info := by
  unfold fAscii85
  split
  · split
    · exact a85Scan_ne_err_none mode _ _ _ _ _ info
    · simp
  · simp

theorem packetScan_ne_err_none (prm : Params) (fuel off : Nat) (rest out : List Byte) (info : Nat) :
    packetScan prm fuel off rest out ≠ .err .none info := by
  induction fuel generalizing off rest out with
  | zero => simp [packetScan]
  | succ fuel ih =>
    rw [packetScan]
    split
    · simp
    · dsimp only
      split
      · simp
      · exact ih _ _ _

theorem fUnwrap_ne_err_none (prm : Params) (input : List Byte) (info : Nat) :
    fUnwrap prm input ≠ .err .none info := by
  unfold fUnwrap
  split
  · simp
  · dsimp only
    split <;> simp

theorem unitResult_ne_err_none (prm : Params) (u : UnitFn) (input : List Byte) (info : Nat) :
    unitResult prm u input ≠ .err .none info := by
  cases u with
  | ascii85 => exact fAscii85_ne_err_none prm.a85Ws input info
  | bitflip => simp [unitResult, fBitflip]
  | parity => simp [unitResult, fParity]
  | packet => exact packetScan_ne_err_none prm _ _ _ _ info
  | unwrap => exact fUnwrap_ne_err_none prm input info

end Sys2Proof.Machine
end

section
/-! SUPPORT. What an instruction can do to the state, said once for all nineteen: a job command is `startJob`, HALT is
the end of the job, and any other VM instruction is one `vmInstr` whose body keeps the shape of the run. -/

namespace Sys2Proof.Machine

open Sys2Proof.Safety

/-! ### Job commands -/

/-- The job that a job command makes of its input (30_encoding.md R110); a VM instruction makes none. -/
def commandJob : Instr → List Byte → Job
  | .jobAscii85, input => .unit .ascii85 input
  | .jobBitflip, input => .unit .bitflip input
  | .jobParity, input => .unit .parity input
  | .jobPacket, input => .unit .packet input
  | .jobUnwrap, input => .unit .unwrap input
  | .jobVm, input => .vm (vmInit input)
  | _, _ => .none

@[simp] theorem commandJob_unitCommand (u : UnitFn) (input : List Byte) :
    commandJob (unitCommand u) input = .unit u input := by
  cases u <;> rfl

@[simp] theorem commandCode_unitCommand (u : UnitFn) : commandCode (unitCommand u) = some (unitCode u) := by
  cases u <;> rfl

/-- The job commands are the five units' and the VM's. -/
theorem commandCode_eq_some {i : Instr} {code : BitVec 3} (h : commandCode i = some code) :
    (∃ u, i = unitCommand u ∧ code = unitCode u) ∨ (i = .jobVm ∧ code = 6) := by
  cases i with
  | jobAscii85 => exact .inl ⟨.ascii85, rfl, (Option.some.inj h).symm⟩
  | jobBitflip => exact .inl ⟨.bitflip, rfl, (Option.some.inj h).symm⟩
  | jobParity => exact .inl ⟨.parity, rfl, (Option.some.inj h).symm⟩
  | jobPacket => exact .inl ⟨.packet, rfl, (Option.some.inj h).symm⟩
  | jobUnwrap => exact .inl ⟨.unwrap, rfl, (Option.some.inj h).symm⟩
  | jobVm => exact .inr ⟨rfl, (Option.some.inj h).symm⟩
  | _ => cases h

/-- A job command is the start of its job. -/
theorem exec_command {i : Instr} {code : BitVec 3} (h : commandCode i = some code) (s : State) :
    exec i s = .next (startJob code (commandJob i) s) := by
  rcases commandCode_eq_some h with ⟨u, rfl, rfl⟩ | ⟨rfl, rfl⟩
  · cases u <;> rfl
  · rfl

theorem startJob_of_busy {s : State} (code : BitVec 3) (mk : List Byte → Job) (hb : s.state = .busy) :
    startJob code mk s = s := by
  simp [startJob, hb]

theorem startJob_of_tooLong {s : State} (code : BitVec 3) (mk : List Byte → Job) (hb : s.state ≠ .busy)
    (hl : s.params.inCap < s.inLen.toNat) :
    startJob code mk s = jobFault { s with func := code } .badLength s.inLen := by
  simp [startJob, hb, hl]

theorem startJob_of_fits {s : State} (code : BitVec 3) (mk : List Byte → Job) (hb : s.state ≠ .busy)
    (hl : s.inLen.toNat ≤ s.params.inCap) :
    startJob code mk s = { s with
      func := code, state := .busy, err := .none, outLen := 0, errInfo := 0, inBuf := [], outBuf := [],
      job := mk (inputSnapshot s), draws := s.draws + s.inLen.toNat } := by
  simp [startJob, hb, Nat.not_lt.mpr hl]

/-- While BUSY a job command has no effect (10_state.md R32). -/
theorem exec_command_of_busy {i : Instr} {code : BitVec 3} {s : State} (hc : commandCode i = some code)
    (hb : s.state = .busy) : exec i s = .next s := by
  rw [exec_command hc, startJob_of_busy _ _ hb]

/-- Outside BUSY a START stores FUNC, whether or not the job starts (10_state.md R32). -/
theorem startJob_func {s : State} (code : BitVec 3) (mk : List Byte → Job) (hb : s.state ≠ .busy) :
    (startJob code mk s).func = code := by
  rcases startJob_cases code mk s with ⟨hbusy, _⟩ | ⟨_, _, e⟩ | ⟨_, _, e⟩
  · exact absurd hbusy hb
  · simp [e]
  · simp [e]

/-- Where the host has written the whole input, the snapshot draws no free value (70_reset_and_hazards.md R416). -/
theorem inputSnapshot_of_hostWrote {s : State} {input : List Byte} (h : hostWrote s input) :
    inputSnapshot s = input := by
  obtain ⟨hlen, hget⟩ := h
  refine List.ext_getElem? fun i => ?_
  by_cases hi : i < input.length
  · rw [getElem?_inputSnapshot s i (by omega), hget i hi, List.getElem?_eq_getElem hi, Option.getD_some]
  · rw [List.getElem?_eq_none (by simp; omega), List.getElem?_eq_none (by omega)]

/-! ### VM instructions -/

/-- What every VM instruction but HALT keeps of a run with OUT_CAP = cap: the addresses of a memory with no holes
(10_state.md R44) and the bound of the output string (R45). -/
structure RunKept (cap : Nat) (v w : VmState) : Prop where
  mem : dense v.mem = true → dense w.mem = true ∧ Memory.size w.mem = Memory.size v.mem
  out : v.out.length ≤ cap → w.out.length ≤ cap

/-- The body of a VM instruction keeps the run, or raises a real error code. -/
structure BodyKeepsRun (cap : Nat) (body : VmState → Except ErrCode VmState) : Prop where
  ok : ∀ {v w}, body v = .ok w → RunKept cap v w
  error : ∀ {v code}, body v = .error code → code ≠ .none

theorem runKept_of_eq {cap : Nat} {v w : VmState} (hm : w.mem = v.mem) (ho : w.out = v.out) : RunKept cap v w where
  mem h := by rw [hm]; exact ⟨h, rfl⟩
  out h := by rw [ho]; exact h

/-- A body that always goes on and writes registers alone. -/
theorem bodyKeepsRun_pure {cap : Nat} {g : VmState → VmState}
    (hg : ∀ v, (g v).mem = v.mem ∧ (g v).out = v.out) : BodyKeepsRun cap fun v => .ok (g v) where
  ok h := by cases h; exact runKept_of_eq (hg _).1 (hg _).2
  error h := by cases h

theorem bodyKeepsRun_advancePtr (cap : Nat) (imm8 : Byte) : BodyKeepsRun cap fun v => advancePtr v imm8 where
  ok h := by
    unfold advancePtr at h
    split at h
    · cases h
    · cases h; exact runKept_of_eq rfl rfl
  error h := by
    unfold advancePtr at h
    split at h
    · cases h; decide
    · cases h

theorem bodyKeepsRun_appendOut (cap : Nat) : BodyKeepsRun cap (appendOut cap) where
  ok h := by
    unfold appendOut at h
    split at h
    · cases h
    · next hne =>
      cases h
      refine ⟨fun hd => ⟨hd, rfl⟩, fun hle => ?_⟩
      simp only [List.length_append, List.length_singleton]
      omega
  error h := by
    unfold appendOut at h
    split at h
    · cases h; decide
    · cases h

theorem runKept_of_write8_ok {cap : Nat} {v w : VmState} {o : Opnd8} {x : Byte} (h : v.write8 o x = .ok w) :
    RunKept cap v w := by
  rcases write8_ok h with ⟨r, _, rfl⟩ | ⟨_, hs, rfl⟩
  · exact runKept_of_eq (set8_mem v r x) (set8_out v r x)
  · exact ⟨fun hd => dense_set hd ((get?_isSome_iff_lt hd _).mp hs) x, id⟩

theorem bodyKeepsRun_write8 (cap : Nat) (dst : Opnd8) (x : Byte) : BodyKeepsRun cap fun v => v.write8 dst x where
  ok := runKept_of_write8_ok
  error h := by
    obtain ⟨_, rfl, _⟩ := write8_error h
    decide

theorem bodyKeepsRun_moveOpnd8 (cap : Nat) (dst src : Opnd8) : BodyKeepsRun cap fun v => moveOpnd8 v dst src where
  ok h := by
    obtain ⟨x, _, hw⟩ := moveOpnd8_ok h
    exact runKept_of_write8_ok hw
  error h := by
    obtain ⟨_, rfl, _⟩ := moveOpnd8_error h
    decide

/-- At every state with the parameters `p` the instruction is the same body, one that keeps the run. -/
def IsRunBody (i : Instr) (p : Params) : Prop :=
  ∃ len body, BodyKeepsRun p.outCap body ∧ ∀ s : State, s.params = p → exec i s = vmInstr len body s

theorem isRunBody_of_pure {i : Instr} {len : Nat} {g : VmState → VmState} (p : Params)
    (he : ∀ s, exec i s = vmInstr len (fun v => .ok (g v)) s) (hg : ∀ v, (g v).mem = v.mem ∧ (g v).out = v.out) :
    IsRunBody i p :=
  ⟨len, _, bodyKeepsRun_pure hg, fun s _ => he s⟩

/-- Every VM instruction but HALT is one body that keeps the run. -/
theorem isRunBody_of_isVm {i : Instr} (hvm : i.isVm = true) (hne : i ≠ .halt) (p : Params) : IsRunBody i p := by
  cases i with
  | halt => exact absurd rfl hne
  | out => exact ⟨lenN, _, bodyKeepsRun_appendOut p.outCap, by rintro s rfl; rfl⟩
  | cmp =>
    refine isRunBody_of_pure p (fun s => by rw [exec, execCmp]) ?_
    exact fun _ => ⟨rfl, rfl⟩
  | add =>
    refine isRunBody_of_pure p (fun s => by rw [exec, execAdd]) ?_
    exact fun _ => ⟨rfl, rfl⟩
  | sub =>
    refine isRunBody_of_pure p (fun s => by rw [exec, execSub]) ?_
    exact fun _ => ⟨rfl, rfl⟩
  | xor =>
    refine isRunBody_of_pure p (fun s => by rw [exec, execXor]) ?_
    exact fun _ => ⟨rfl, rfl⟩
  | aptr imm8 => exact ⟨lenI8, _, bodyKeepsRun_advancePtr p.outCap imm8, fun _ _ => rfl⟩
  | jez imm32 =>
    refine isRunBody_of_pure p (fun s => by rw [exec, execJez]) ?_
    exact fun v => ⟨by split <;> rfl, by split <;> rfl⟩
  | jnz imm32 =>
    refine isRunBody_of_pure p (fun s => by rw [exec, execJnz]) ?_
    exact fun v => ⟨by split <;> rfl, by split <;> rfl⟩
  | mv dst src => exact ⟨lenN, _, bodyKeepsRun_moveOpnd8 p.outCap dst src, fun _ _ => rfl⟩
  | mvi dst imm8 => exact ⟨lenI8, _, bodyKeepsRun_write8 p.outCap dst imm8, fun _ _ => rfl⟩
  | mv32 dst src =>
    refine isRunBody_of_pure p (fun s => by rw [exec, execMv32]) ?_
    exact fun _ => ⟨set32_mem _ _ _, set32_out _ _ _⟩
  | mvi32 dst imm32 =>
    refine isRunBody_of_pure p (fun s => by rw [exec, execMvi32]) ?_
    exact fun _ => ⟨set32_mem _ _ _, set32_out _ _ _⟩
  | _ => cases hvm

theorem exec_halt {s : State} {v : VmState} (hj : s.job = .vm v) :
    exec .halt s = .next (finishJob s (.ok v.out)) := by
  simp [exec, execHalt, hj]

theorem exec_halt_cases {s t : State} (h : exec .halt s = .next t) :
    ∃ v, s.job = .vm v ∧ t = finishJob s (.ok v.out) := by
  cases hj : s.job with
  | vm v => rw [exec_halt hj] at h; exact ⟨v, rfl, (Host.Outcome.next.inj h).symm⟩
  | _ => simp [exec, execHalt, hj] at h

/-- An instruction is of the VM ISA or a job command. -/
theorem isVm_or_command (i : Instr) : i.isVm = true ∨ ∃ code, commandCode i = some code := by
  cases i with
  | jobAscii85 | jobBitflip | jobParity | jobPacket | jobUnwrap | jobVm => exact .inr ⟨_, rfl⟩
  | _ => exact .inl rfl

/-- All an instruction can do: start a job, end one with the output of a VM run, change a VM run alone, or fault it. -/
inductive ExecMove (i : Instr) (s t : State) : Prop
  | start (code : BitVec 3) (hc : commandCode i = some code) (ht : t = startJob code (commandJob i) s)
  | halt (v : VmState) (hi : i = .halt) (hj : s.job = .vm v) (ht : t = finishJob s (.ok v.out))
  | goOn (v w : VmState) (hj : s.job = .vm v) (hk : RunKept s.params.outCap v w) (ht : t = { s with job := .vm w })
  | fault (v : VmState) (code : ErrCode) (hj : s.job = .vm v) (hc : code ≠ .none) (ht : t = jobFault s code v.pc)

theorem execMove_of_exec {i : Instr} {s t : State} (h : exec i s = .next t) : ExecMove i s t := by
  rcases isVm_or_command i with hvm | ⟨code, hc⟩
  · by_cases hi : i = .halt
    · subst hi
      obtain ⟨v, hj, ht⟩ := exec_halt_cases h
      exact .halt v rfl hj ht
    · obtain ⟨len, body, hbody, hexec⟩ := isRunBody_of_isVm hvm hi s.params
      rw [hexec s rfl] at h
      obtain ⟨v, hj, ⟨w, hw, ht⟩ | ⟨code, hcode, ht⟩⟩ := vmInstr_cases h
      · obtain ⟨hmem, hout⟩ := hbody.ok hw
        exact .goOn v w hj ⟨hmem, hout⟩ ht
      · exact .fault v code hj (hbody.error hcode) ht
  · rw [exec_command hc] at h
    exact .start code hc (Host.Outcome.next.inj h).symm

end Sys2Proof.Machine
end

section
/-! SUPPORT. What one step can do: the steps of the host's register accesses as equations, and one inversion of `step`
from which the whole-machine rules follow. -/

namespace Sys2Proof.Machine

open Sys2Proof.Safety

/-! ### Decoded instructions -/

@[simp] theorem toNat_ctrlFunc (w : Word) : (ctrlFunc w).toNat = w.toNat % 8 := by
  simp [ctrlFunc]

/-- A word that decodes to a job command has the command's FUNC (30_encoding.md R110). -/
theorem commandCode_of_decodeCtrl {w : Word} {i : Instr} (h : decodeCtrl w = some i) :
    commandCode i = some (ctrlFunc w) := by
  have hfunc {n : Nat} (hn : (ctrlFunc w).toNat = n) : ctrlFunc w = BitVec.ofNat 3 n := by
    rw [← hn, BitVec.ofNat_toNat, BitVec.setWidth_eq]
  unfold decodeCtrl at h
  split at h
  · split at h
    case h_7 => cases h
    all_goals next hn => cases h; rw [hfunc hn]; rfl
  · cases h

theorem decodeCtrl_of_not_start {w : Word} (h : ctrlStart w = false) : decodeCtrl w = none := by
  simp [decodeCtrl, h]

/-- The only host action that is a job command is a write of CTRL (30_encoding.md R110). -/
theorem hostInstr_eq_some {move : HostMove} {i : Instr} (h : hostInstr move = some i) :
    ∃ w, move = .writeReg 32 0 w ∧ decodeCtrl w = some i := by
  cases move with
  | writeReg width offset w =>
    rw [hostInstr] at h
    split at h
    · next hc => obtain ⟨rfl, rfl⟩ := hc; exact ⟨w, rfl, h⟩
    · cases h
  | _ => cases h

theorem isVm_of_takeImm8 {rest t : List Byte} {mk : Byte → Instr} {i : Instr} (hmk : ∀ b, (mk b).isVm = true)
    (h : takeImm8 rest mk = .ok (i, t)) : i.isVm = true := by
  unfold takeImm8 at h
  split at h
  · cases h; exact hmk _
  · cases h

theorem isVm_of_takeImm32 {rest t : List Byte} {mk : Word → Instr} {i : Instr} (hmk : ∀ w, (mk w).isVm = true)
    (h : takeImm32 rest mk = .ok (i, t)) : i.isVm = true := by
  unfold takeImm32 at h
  split at h
  · cases h; exact hmk _
  · cases h

theorem isVm_of_decodeMove {op : Byte} {rest t : List Byte} {i : Instr} (h : decodeMove op rest = .ok (i, t)) :
    i.isVm = true := by
  simp only [decodeMove] at h
  split at h
  · split at h
    · cases h
    · exact isVm_of_takeImm8 (fun _ => rfl) h
    · cases h; rfl
  · split at h
    · split at h
      · cases h
      · cases h; rfl
      · split at h
        · exact isVm_of_takeImm32 (fun _ => rfl) h
        · cases h
    · cases h

/-- Bytes of VM memory decode to instructions of the VM ISA alone (30_encoding.md R123). -/
theorem isVm_of_decodeBytes {bytes rest : List Byte} {i : Instr} (h : decodeBytes bytes = .ok (i, rest)) :
    i.isVm = true := by
  cases bytes with
  | nil => cases h
  | cons op t =>
    rw [decodeBytes] at h
    split at h
    case h_3 => exact isVm_of_takeImm32 (fun _ => rfl) h
    case h_4 => exact isVm_of_takeImm32 (fun _ => rfl) h
    case h_9 => exact isVm_of_takeImm8 (fun _ => rfl) h
    case h_10 => exact isVm_of_decodeMove h
    all_goals cases h; rfl

theorem isVm_of_vmFetch {v : VmState} {i : Instr} (h : vmFetch v = .ok i) : i.isVm = true := by
  unfold vmFetch at h
  split at h
  · next hd => cases h; exact isVm_of_decodeBytes hd
  all_goals cases h

/-- A failed fetch has a real error code (46_bytecode_vm.md R321). -/
theorem vmFetch_error_ne_none {v : VmState} {code : ErrCode} (h : vmFetch v = .error code) : code ≠ .none := by
  unfold vmFetch at h
  split at h <;> cases h <;> decide

/-! ### The host's accesses -/

/-- All a host write of CTRL that starts no unit can do. -/
theorem ctrlWriteNoUnit_cases (w : Word) (s : State) :
    (s.state = .busy ∧ ctrlWriteNoUnit w s = s) ∨
    (s.state ≠ .busy ∧ ctrlStart w = true ∧ ctrlWriteNoUnit w s =
      jobFault { s with func := ctrlFunc w } .badFunc ((ctrlFunc w).zeroExtend 32)) ∨
    (s.state ≠ .busy ∧ ctrlStart w = false ∧ ctrlWriteNoUnit w s = { s with func := ctrlFunc w }) := by
  unfold ctrlWriteNoUnit
  split
  · next hb => exact .inl ⟨hb, rfl⟩
  · next hb =>
    split
    · next hs => exact .inr (.inl ⟨hb, hs, rfl⟩)
    · next hs => exact .inr (.inr ⟨hb, by simpa using hs, rfl⟩)

/-- A register write that is no job command reaches CTRL or IN_LEN, or nothing (10_state.md R38). -/
theorem regWrite_cases (s : State) (offset : Nat) (value : Word) :
    (offset = 0x00 ∧ regWrite s offset value = ctrlWriteNoUnit value s) ∨
    (offset = 0x08 ∧ s.state ≠ .busy ∧ regWrite s offset value = { s with inLen := value }) ∨
    ((offset = 0x08 → s.state = .busy) ∧ offset ≠ 0x00 ∧ regWrite s offset value = s) := by
  unfold regWrite
  split
  · exact .inl ⟨rfl, rfl⟩
  · split
    · next hb => exact .inr (.inr ⟨fun _ => hb, by decide, rfl⟩)
    · next hb => exact .inr (.inl ⟨rfl, hb, rfl⟩)
  · next h0 h8 => exact .inr (.inr ⟨fun h => absurd h h8, h0, rfl⟩)

/-- A buffer read changes the model's own fields alone (log 3, log 5). -/
theorem bufRead_cases (s : State) (buf : Memory) (i : Nat) :
    ∃ r d, bufRead s buf i = { s with readData := r, draws := d } := by
  unfold bufRead
  split <;> exact ⟨_, _, rfl⟩

theorem inWrite_cases (s : State) (i : Nat) (value : Byte) :
    (s.state = .busy ∧ inWrite s i value = s) ∨
    (s.state ≠ .busy ∧ inWrite s i value = { s with inBuf := Memory.set s.inBuf i value }) := by
  unfold inWrite
  split
  · next hb => exact .inl ⟨hb, rfl⟩
  · next hb => exact .inr ⟨hb, rfl⟩

/-- All a host action that is no job command can do. -/
inductive AccessMove (move : HostMove) (s t : State) : Prop
  /-- Nothing but the model's own fields changes. -/
  | read (r : Word) (d : Nat) (ht : t = { s with readData := r, draws := d })
  | badFunc (w : Word) (hb : s.state ≠ .busy)
      (ht : t = jobFault { s with func := ctrlFunc w } .badFunc ((ctrlFunc w).zeroExtend 32))
  | func (w : Word) (hb : s.state ≠ .busy) (ht : t = { s with func := ctrlFunc w })
  | inLen (w : Word) (hb : s.state ≠ .busy) (ht : t = { s with inLen := w })
  | inByte (i : Nat) (x : Byte) (hb : s.state ≠ .busy) (hi : i < s.params.inCap)
      (ht : t = { s with inBuf := Memory.set s.inBuf i x })
  | reset (hm : move = .reset) (ht : t = resetBlock s)

theorem accessMove_of_regWrite (move : HostMove) (s : State) (offset : Nat) (value : Word) :
    AccessMove move s (regWrite s offset value) := by
  rcases regWrite_cases s offset value with ⟨_, e⟩ | ⟨_, hb, e⟩ | ⟨_, _, e⟩
  · rw [e]
    rcases ctrlWriteNoUnit_cases value s with ⟨_, e⟩ | ⟨hb, _, e⟩ | ⟨hb, _, e⟩
    · exact .read s.readData s.draws e
    · exact .badFunc value hb e
    · exact .func value hb e
  · exact .inLen value hb e
  · exact .read s.readData s.draws e

theorem accessMove_of_hostAccess {move : HostMove} {s t : State} (h : hostAccess move s = .next t) :
    AccessMove move s t := by
  have hbuf (buf : Memory) (i : Nat) : AccessMove move s (bufRead s buf i) := by
    obtain ⟨r, d, e⟩ := bufRead_cases s buf i
    exact .read r d e
  cases move with
  | turn => cases h; exact .read s.readData s.draws rfl
  | readReg width offset =>
    obtain ⟨_, _, _, rfl⟩ := regAccess_cases h
    exact .read _ s.draws rfl
  | writeReg width offset value =>
    obtain ⟨_, _, _, rfl⟩ := regAccess_cases h
    exact accessMove_of_regWrite _ s offset value
  | readIn i =>
    rw [hostAccess] at h
    split at h
    · cases h; exact hbuf s.inBuf i
    · cases h
  | writeIn i value =>
    rw [hostAccess] at h
    split at h
    · next hi =>
      cases h
      rcases inWrite_cases s i value with ⟨_, e⟩ | ⟨hb, e⟩
      · exact .read s.readData s.draws e
      · exact .inByte i value hb hi e
    · cases h
  | readOut i =>
    rw [hostAccess] at h
    split at h
    · cases h; exact hbuf s.outBuf i
    · cases h
  | writeOut i value =>
    rw [hostAccess] at h
    split at h
    · cases h; exact .read s.readData s.draws rfl
    · cases h
  | reset => cases h; exact .reset rfl rfl

theorem regAccess_of_ok {offset : Nat} (t : State) (ha : offset % 4 = 0) (hl : offset ≤ 0xFF) :
    regAccess 32 offset t = .next t := by
  simp [regAccess, ha, Nat.not_lt.mpr hl]

theorem step_readReg (s : State) (rest : List HostMove) {offset : Nat} (ha : offset % 4 = 0) (hl : offset ≤ 0xFF) :
    step { s with host := .readReg 32 offset :: rest } =
      .next { s with host := rest, readData := regRead s offset } :=
  (step_of_other rfl).trans (regAccess_of_ok _ ha hl)

/-- A host write of a register that is no job command. -/
theorem step_writeReg (s : State) (rest : List HostMove) {offset : Nat} {w : Word}
    (hi : hostInstr (.writeReg 32 offset w) = none) (ha : offset % 4 = 0) (hl : offset ≤ 0xFF) :
    step { s with host := .writeReg 32 offset w :: rest } =
      .next (regWrite { s with host := rest } offset w) := by
  have hturn : turn { s with host := .writeReg 32 offset w :: rest } =
      .other (hostAccess (.writeReg 32 offset w) { s with host := rest }) := by
    simp [turn, hostTurn, hi]
  exact (step_of_other hturn).trans (regAccess_of_ok _ ha hl)

/-- A host write of CTRL that is a job command (30_encoding.md R110). -/
theorem step_writeCtrl_command (s : State) (rest : List HostMove) {w : Word} {i : Instr}
    (hd : decodeCtrl w = some i) :
    step { s with host := .writeReg 32 0x00 w :: rest } = exec i { s with host := rest } := by
  have hi : hostInstr (.writeReg 32 0x00 w) = some i := by simpa [hostInstr] using hd
  exact step_of_run (by simp [turn, hostTurn, hi])

/-- A host write of CTRL that starts no unit (10_state.md R34). -/
theorem step_writeCtrl_noUnit (s : State) (rest : List HostMove) {w : Word} (hd : decodeCtrl w = none) :
    step { s with host := .writeReg 32 0x00 w :: rest } =
      .next (ctrlWriteNoUnit w { s with host := rest }) :=
  step_writeReg s rest (by simpa [hostInstr] using hd) rfl (by decide)

/-- While BUSY a write of CTRL has no effect, a job command or not (10_state.md R32). -/
theorem step_writeCtrl_busy {s : State} (rest : List HostMove) (w : Word) (hb : s.state = .busy) :
    step { s with host := .writeReg 32 0x00 w :: rest } = .next { s with host := rest } := by
  cases hd : decodeCtrl w with
  | none =>
    rw [step_writeCtrl_noUnit s rest hd]
    simp [ctrlWriteNoUnit, hb]
  | some i =>
    exact (step_writeCtrl_command s rest hd).trans (exec_command_of_busy (commandCode_of_decodeCtrl hd) hb)

/-- Outside BUSY a write of CTRL stores FUNC, a job command or not (10_state.md R32). -/
theorem step_writeCtrl_func {s : State} (rest : List HostMove) (w : Word) (hb : s.state ≠ .busy) :
    ∃ t, step { s with host := .writeReg 32 0x00 w :: rest } = .next t ∧ t.func = ctrlFunc w := by
  cases hd : decodeCtrl w with
  | none =>
    refine ⟨_, step_writeCtrl_noUnit s rest hd, ?_⟩
    rcases ctrlWriteNoUnit_cases w { s with host := rest } with ⟨hbusy, _⟩ | ⟨_, _, e⟩ | ⟨_, _, e⟩
    · exact absurd hbusy hb
    · rw [e, jobFault_func]
    · rw [e]
  | some i =>
    have hc := commandCode_of_decodeCtrl hd
    exact ⟨_, (step_writeCtrl_command s rest hd).trans (exec_command hc _), startJob_func _ _ hb⟩

/-! ### The block's turn -/

theorem step_unitJob {s : State} {u : UnitFn} {input : List Byte} (hh : s.host = []) (hj : s.job = .unit u input) :
    step s = .next (finishJob s (unitResult s.params u input)) := by
  simp [step, turn, hh, blockTurn, hj]

theorem step_vmExec {s : State} {v : VmState} {i : Instr} (hh : s.host = []) (hj : s.job = .vm v)
    (hf : vmFetch v = .ok i) : step s = exec i s := by
  simp [step, turn, hh, blockTurn, hj, hf]

theorem step_vmFetchFault {s : State} {v : VmState} {code : ErrCode} (hh : s.host = []) (hj : s.job = .vm v)
    (hf : vmFetch v = .error code) : step s = .next (jobFault s code v.pc) := by
  simp [step, turn, hh, blockTurn, hj, hf]

/-- All the block's own turn can do. -/
inductive BlockMove (s t : State) : Prop
  | idle (hj : s.job = .none) (ht : t = s)
  | unitEnd (u : UnitFn) (input : List Byte) (hj : s.job = .unit u input)
      (ht : t = finishJob s (unitResult s.params u input))
  | vmExec (v : VmState) (i : Instr) (hj : s.job = .vm v) (hf : vmFetch v = .ok i) (he : exec i s = .next t)
  | fetchFault (v : VmState) (code : ErrCode) (hj : s.job = .vm v) (hf : vmFetch v = .error code)
      (ht : t = jobFault s code v.pc)

/-- All a step can do, at the state with the action taken off the list. -/
inductive StepMove (s t : State) : Prop
  | block (rest : List HostMove) (h : BlockMove { s with host := rest } t)
  | command (w : Word) (i : Instr) (rest : List HostMove) (hd : decodeCtrl w = some i)
      (he : exec i { s with host := rest } = .next t)
  | access (move : HostMove) (rest : List HostMove) (hh : s.host = move :: rest)
      (ha : AccessMove move { s with host := rest } t)

/-- A step whose turn is the block's turn at `s'`. -/
theorem blockMove_of_step {s s' t : State} (hturn : turn s = blockTurn s') (h : step s = .next t) :
    BlockMove s' t := by
  rcases blockTurn_cases s' with ⟨hj, hb⟩ | ⟨u, input, hj, hb⟩ | ⟨v, i, hj, hf, hb⟩ | ⟨v, code, hj, hf, hb⟩
  · rw [step_of_other (hturn.trans hb)] at h
    exact .idle hj (Host.Outcome.next.inj h).symm
  · rw [step_of_other (hturn.trans hb)] at h
    exact .unitEnd u input hj (Host.Outcome.next.inj h).symm
  · rw [step_of_run (hturn.trans hb)] at h
    exact .vmExec v i hj hf h
  · rw [step_of_other (hturn.trans hb)] at h
    exact .fetchFault v code hj hf (Host.Outcome.next.inj h).symm

theorem stepMove_of_step {s t : State} (h : step s = .next t) : StepMove s t := by
  rcases turn_cases s with ⟨_, ht⟩ | ⟨rest, _, ht⟩ | ⟨move, rest, i, _, hi, ht⟩ | ⟨move, rest, hh, _, _, ht⟩
  · exact .block s.host (blockMove_of_step ht h)
  · exact .block rest (blockMove_of_step ht h)
  · obtain ⟨w, _, hd⟩ := hostInstr_eq_some hi
    exact .command w i rest hd (step_of_run ht ▸ h)
  · exact .access move rest hh (accessMove_of_hostAccess (step_of_other ht ▸ h))

end Sys2Proof.Machine
end

section
/-! SUPPORT. The invariant of the block: every operation of the job engine and every action of the host keeps it. -/

namespace Sys2Proof.Safety

open Sys2Proof.Machine

/-- An output OUT can hold has a length OUT_LEN can hold (00_scope.md R8). -/
theorem toNat_ofNat_of_le_outCap {p : Params} {n : Nat} (hp : p.ok = true) (h : n ≤ p.outCap) :
    (BitVec.ofNat 32 n).toNat = n := by
  simp only [Params.ok, decide_eq_true_eq] at hp
  rw [BitVec.toNat_ofNat]
  exact Nat.mod_eq_of_lt (by omega)

/-! ### Memories below a bound -/

theorem below_iff (m : Memory) (n : Nat) : below m n = true ↔ ∀ k ∈ m.map Prod.fst, k < n := by
  simp [below]

theorem below_set {m : Memory} {n i : Nat} (h : below m n = true) (hi : i < n) (x : Byte) :
    below (Memory.set m i x) n = true := by
  rw [below_iff] at h ⊢
  intro k hk
  rcases mem_map_fst_set hk with rfl | hk
  · exact hi
  · exact h k hk

theorem below_ofBytes {bytes : List Byte} {n : Nat} (h : bytes.length ≤ n) :
    below (Memory.ofBytes bytes) n = true := by
  rw [below_iff, map_fst_ofBytes]
  intro k hk
  exact Nat.lt_of_lt_of_le (List.mem_range.mp hk) h

/-! ### The end of a job -/

theorem inv_jobFault {s : State} {code : ErrCode} (info : Word) (hp : s.params.ok = true) (hc : code ≠ .none) :
    Inv (jobFault s code info) where
  params := hp
  inWf := ⟨rfl, rfl⟩
  outWf := ⟨rfl, rfl⟩
  busy := by simp
  noErr h := absurd rfl h
  someErr _ := hc
  noOut _ := ⟨rfl, rfl⟩
  someOut h := by cases h
  job := trivial

theorem inv_jobDone {s : State} {out : List Byte} (hp : s.params.ok = true) (hl : out.length ≤ s.params.outCap) :
    Inv (jobDone s out) where
  params := hp
  inWf := ⟨rfl, rfl⟩
  outWf := ⟨wf_ofBytes out, below_ofBytes hl⟩
  busy := by simp
  noErr _ := ⟨rfl, rfl⟩
  someErr h := by cases h
  noOut h := absurd rfl h
  someOut _ := by
    rw [jobDone_outLen, jobDone_outBuf, jobDone_params, toNat_ofNat_of_le_outCap hp hl]
    exact ⟨hl, map_fst_ofBytes out⟩
  job := trivial

theorem inv_finishJob {s : State} {r : UnitResult} (hp : s.params.ok = true) (hr : ∀ info, r ≠ .err .none info) :
    Inv (finishJob s r) := by
  rcases finishJob_cases s r with ⟨out, _, hl, e⟩ | ⟨out, _, _, e⟩ | ⟨code, info, rfl, e⟩
  · rw [e]; exact inv_jobDone hp hl
  · rw [e]; exact inv_jobFault _ hp (by decide)
  · rw [e]; exact inv_jobFault _ hp (by rintro rfl; exact hr info rfl)

/-! ### A job command -/

/-- The job of a command is as the invariant asks of a running job, on an input of the length that START found to be
at most IN_CAP. -/
theorem jobOk_commandJob {i : Instr} {t : State} {input : List Byte} (hc : commandCode i = some t.func)
    (hi : input.length = t.inLen.toNat) (hl : t.inLen.toNat ≤ t.params.inCap) : jobOk t (commandJob i input) := by
  rcases commandCode_eq_some hc with ⟨u, rfl, hf⟩ | ⟨rfl, hf⟩
  · rw [commandJob_unitCommand]
    exact ⟨hi, hl, hf⟩
  · exact ⟨dense_ofBytes input, (size_ofBytes input).trans hi, hl, Nat.zero_le _, hf⟩

theorem commandJob_ne_none {i : Instr} {code : BitVec 3} (hc : commandCode i = some code) (input : List Byte) :
    commandJob i input ≠ .none := by
  rcases commandCode_eq_some hc with ⟨u, rfl, _⟩ | ⟨rfl, _⟩
  · simp
  · simp [commandJob]

theorem inv_startJob {s : State} {i : Instr} {code : BitVec 3} (h : Inv s) (hc : commandCode i = some code) :
    Inv (startJob code (commandJob i) s) := by
  rcases startJob_cases code (commandJob i) s with ⟨_, e⟩ | ⟨_, _, e⟩ | ⟨_, hl, e⟩
  · rw [e]; exact h
  · rw [e]; exact inv_jobFault _ h.params (by decide)
  · rw [e]
    exact {
      params := h.params
      inWf := ⟨rfl, rfl⟩
      outWf := ⟨rfl, rfl⟩
      busy := by simpa using commandJob_ne_none hc _
      noErr := fun _ => ⟨rfl, rfl⟩
      someErr := by simp
      noOut := fun _ => ⟨rfl, rfl⟩
      someOut := by simp
      job := jobOk_commandJob hc (length_inputSnapshot s) hl }

/-! ### A VM instruction -/

theorem inv_withVm {s : State} {v w : VmState} (h : Inv s) (hj : s.job = .vm v)
    (hk : RunKept s.params.outCap v w) : Inv { s with job := .vm w } where
  params := h.params
  inWf := h.inWf
  outWf := h.outWf
  busy := by simpa [hj] using h.busy
  noErr := h.noErr
  someErr := h.someErr
  noOut := h.noOut
  someOut := h.someOut
  job := by
    have hrun := h.job
    rw [hj] at hrun
    obtain ⟨hd, hsize, hcap, hout, hf⟩ := hrun
    obtain ⟨hd', hsize'⟩ := hk.mem hd
    exact ⟨hd', hsize'.trans hsize, hcap, hk.out hout, hf⟩

theorem inv_exec {i : Instr} {s t : State} (h : Inv s) (he : exec i s = .next t) : Inv t := by
  cases execMove_of_exec he with
  | start code hc ht => rw [ht]; exact inv_startJob h hc
  | halt v hi hj ht => rw [ht]; exact inv_finishJob h.params (by simp)
  | goOn v w hj hk ht => rw [ht]; exact inv_withVm h hj hk
  | fault v code hj hc ht => rw [ht]; exact inv_jobFault _ h.params hc

/-! ### The host's actions -/

/-- The invariant says nothing of the model's own fields. -/
theorem inv_ownFields {s : State} (h : Inv s) (host : List HostMove) (r : Word) (d : Nat) :
    Inv { s with host := host, readData := r, draws := d } :=
  ⟨h.params, h.inWf, h.outWf, h.busy, h.noErr, h.someErr, h.noOut, h.someOut, h.job⟩

theorem job_eq_none_of_not_busy {s : State} (h : Inv s) (hb : s.state ≠ .busy) : s.job = .none :=
  not_not.mp fun hj => hb (h.busy.mpr hj)

/-- Outside BUSY the invariant leaves FUNC, IN_LEN and the bytes of IN to the host. -/
theorem inv_hostFields {s : State} (h : Inv s) (hb : s.state ≠ .busy) (f : BitVec 3) (n : Word) {m : Memory}
    (hm : Memory.wf m = true ∧ below m s.params.inCap = true) :
    Inv { s with func := f, inLen := n, inBuf := m } where
  params := h.params
  inWf := hm
  outWf := h.outWf
  busy := h.busy
  noErr := h.noErr
  someErr := h.someErr
  noOut := h.noOut
  someOut := h.someOut
  job := by
    have hj := job_eq_none_of_not_busy h hb
    simp only [hj]
    trivial

theorem inv_reset : Inv State.reset where
  params := by decide
  inWf := ⟨rfl, rfl⟩
  outWf := ⟨rfl, rfl⟩
  busy := by decide
  noErr _ := ⟨rfl, rfl⟩
  someErr h := by cases h
  noOut _ := ⟨rfl, rfl⟩
  someOut h := by cases h
  job := trivial

theorem inv_resetBlock {s : State} (hp : s.params.ok = true) : Inv (resetBlock s) :=
  { inv_reset with params := hp, someOut := by rintro ⟨⟩, job := trivial }

theorem inv_accessMove {move : HostMove} {s t : State} (h : Inv s) (ha : AccessMove move s t) : Inv t := by
  cases ha with
  | read r d ht => rw [ht]; exact inv_ownFields h s.host r d
  | badFunc w hb ht => rw [ht]; exact inv_jobFault _ h.params (by decide)
  | func w hb ht => rw [ht]; exact inv_hostFields h hb (ctrlFunc w) s.inLen h.inWf
  | inLen w hb ht => rw [ht]; exact inv_hostFields h hb s.func w h.inWf
  | inByte i x hb hi ht =>
    rw [ht]
    exact inv_hostFields h hb s.func s.inLen ⟨wf_set h.inWf.1 i x, below_set h.inWf.2 hi x⟩
  | reset hm ht => rw [ht]; exact inv_resetBlock h.params

/-! ### A step -/

theorem inv_blockMove {s t : State} (h : Inv s) (hb : BlockMove s t) : Inv t := by
  cases hb with
  | idle hj ht => rw [ht]; exact h
  | unitEnd u input hj ht => rw [ht]; exact inv_finishJob h.params (unitResult_ne_err_none s.params u input)
  | vmExec v i hj hf he => exact inv_exec h he
  | fetchFault v code hj hf ht => rw [ht]; exact inv_jobFault _ h.params (vmFetch_error_ne_none hf)

theorem inv_stepMove {s t : State} (h : Inv s) (hs : StepMove s t) : Inv t := by
  have htaken (rest : List HostMove) : Inv { s with host := rest } := inv_ownFields h rest s.readData s.draws
  cases hs with
  | block rest hb => exact inv_blockMove (htaken rest) hb
  | command w i rest hd he => exact inv_exec (htaken rest) he
  | access move rest hh ha => exact inv_accessMove (htaken rest) ha

end Sys2Proof.Safety
end

section
/-! The invariant of the block: it holds after reset and every step keeps it. -/

open Sys2Proof.Machine Sys2Proof.Safety

namespace Sys2Proof.Proofs

/-- Settles O57: reset leaves no job and every register 0. -/
theorem resetStateMeetsTheInvariant : Obligations.ResetStateMeetsTheInvariant :=
  inv_reset

/-- Settles O58, by the cases of a step: the block's turn, a job command, an access of the host. -/
theorem stepKeepsTheInvariant : Obligations.StepKeepsTheInvariant := by
  intro s t hinv hstep
  exact inv_stepMove hinv (stepMove_of_step hstep)

end Sys2Proof.Proofs
end

section
/-! SUPPORT. The fields that a host register read packs (10_state.md R31, R33), and what the host sees of the end of a
job, which depends on the job and the parameters alone (10_state.md R47). -/

namespace Sys2Proof.Machine

open Sys2Proof.Safety

/-! ### Register reads -/

@[simp] theorem toNat_regRead_ctrl (s : State) : (regRead s 0x00).toNat = s.func.toNat := by
  have h := s.func.isLt
  simp only [regRead, BitVec.truncate_eq_setWidth, BitVec.toNat_setWidth]
  exact Nat.mod_eq_of_lt (by omega)

/-- STATUS holds STATE in bits 1:0 and ERR in bits 15:8 (10_state.md R33). -/
theorem toNat_regRead_status (s : State) :
    (regRead s 0x04).toNat = (stateBits s.state).toNat + 256 * (errByte s.err).toNat := by
  have h := (stateBits s.state).isLt
  have hread : (regRead s 0x04).toNat = (errByte s.err).toNat <<< 6 <<< 2 ||| (stateBits s.state).toNat := by
    simp only [regRead, BitVec.toNat_append]
    simp
  rw [hread, ← Nat.shiftLeft_add_eq_or_of_lt h, Nat.shiftLeft_eq, Nat.shiftLeft_eq]
  omega

theorem regRead_reserved (s : State) {offset : Nat} (h : 0x14 ≤ offset) : regRead s offset = 0 := by
  unfold regRead
  split
  case h_6 => rfl
  all_goals omega

/-- A write of a read-only register or a reserved offset is ignored (10_state.md R38). -/
theorem regWrite_ignored (s : State) {offset : Nat} (value : Word) (h0 : offset ≠ 0x00) (h8 : offset ≠ 0x08) :
    regWrite s offset value = s := by
  rcases regWrite_cases s offset value with ⟨h, _⟩ | ⟨h, _⟩ | ⟨_, _, e⟩
  · exact absurd h h0
  · exact absurd h h8
  · exact e

theorem regRead_reset (offset : Nat) : regRead State.reset offset = 0 := by
  unfold regRead
  split <;> rfl

/-! ### What the host sees of a job's end -/

theorem failedWith_jobFault (s : State) (code : ErrCode) (info : Word) :
    failedWith (jobFault s code info) code info.toNat :=
  ⟨rfl, rfl, rfl, rfl, rfl, rfl⟩

theorem doneWith_jobDone {s : State} {out : List Byte} (hp : s.params.ok = true)
    (hl : out.length ≤ s.params.outCap) : doneWith (jobDone s out) out :=
  ⟨rfl, rfl, rfl, toNat_ofNat_of_le_outCap hp hl, get?_ofBytes out⟩

theorem finishJob_of_fits {s : State} {out : List Byte} (hl : out.length ≤ s.params.outCap) :
    finishJob s (.ok out) = jobDone s out := by
  simp [finishJob, Nat.not_lt.mpr hl]

theorem finishJob_of_overflow {s : State} {out : List Byte} (hl : s.params.outCap < out.length) :
    finishJob s (.ok out) = jobFault s .outOverflow (BitVec.ofNat 32 s.params.outCap) := by
  simp [finishJob, hl]

/-- The end of a job leaves no job and nothing of IN, and keeps the host's side (60_exceptions.md R380,
20_memory.md R81). -/
theorem finishJob_keeps (s : State) (r : UnitResult) :
    (finishJob s r).job = .none ∧ (finishJob s r).func = s.func ∧ (finishJob s r).inLen = s.inLen ∧
      (finishJob s r).params = s.params ∧ (finishJob s r).draws = s.draws ∧ (finishJob s r).inBuf = [] := by
  rcases finishJob_cases s r with ⟨_, _, _, e⟩ | ⟨_, _, _, e⟩ | ⟨_, _, _, e⟩ <;> simp [e]

/-- Two blocks are at the same point of a job: the same job runs, or it has ended and the host sees the same end. -/
def sameJob (s t : State) : Prop :=
  s.job = t.job ∧ (s.job = .none →
    s.state = t.state ∧ s.err = t.err ∧ s.errInfo = t.errInfo ∧ s.outLen = t.outLen ∧ s.outBuf = t.outBuf)

theorem sameJob_jobFault (s t : State) (code : ErrCode) (info : Word) :
    sameJob (jobFault s code info) (jobFault t code info) :=
  ⟨rfl, fun _ => ⟨rfl, rfl, rfl, rfl, rfl⟩⟩

theorem sameJob_jobDone (s t : State) (out : List Byte) : sameJob (jobDone s out) (jobDone t out) :=
  ⟨rfl, fun _ => ⟨rfl, rfl, rfl, rfl, rfl⟩⟩

theorem sameJob_finishJob {s t : State} (hp : s.params = t.params) (r : UnitResult) :
    sameJob (finishJob s r) (finishJob t r) := by
  cases r with
  | ok out =>
    by_cases hl : out.length ≤ t.params.outCap
    · rw [finishJob_of_fits (hp ▸ hl), finishJob_of_fits hl]
      exact sameJob_jobDone s t out
    · rw [finishJob_of_overflow (by rw [hp]; omega), finishJob_of_overflow (by omega), hp]
      exact sameJob_jobFault s t .outOverflow _
  | err code info => exact sameJob_jobFault s t code _

theorem sameJob_vmInstr {len : Nat} {body : VmState → Except ErrCode VmState} {s s' t t' : State}
    (hj : s.job = t.job) (hs : vmInstr len body s = .next s') (ht : vmInstr len body t = .next t') :
    sameJob s' t' := by
  obtain ⟨v, hv, _⟩ := vmInstr_cases hs
  cases hb : body { v with pc := v.pc + BitVec.ofNat 32 len } with
  | ok w =>
    rw [vmInstr_of_ok hv hb] at hs
    rw [vmInstr_of_ok (hj ▸ hv) hb] at ht
    cases hs; cases ht
    exact ⟨rfl, fun h => by cases h⟩
  | error code =>
    rw [vmInstr_of_error hv hb] at hs
    rw [vmInstr_of_error (hj ▸ hv) hb] at ht
    cases hs; cases ht
    exact sameJob_jobFault s t code v.pc

theorem sameJob_exec {i : Instr} {s s' t t' : State} (hvm : i.isVm = true) (hp : s.params = t.params)
    (hj : s.job = t.job) (hs : exec i s = .next s') (ht : exec i t = .next t') : sameJob s' t' := by
  by_cases hi : i = .halt
  · subst hi
    obtain ⟨v, hv, rfl⟩ := exec_halt_cases hs
    rw [exec_halt (hj ▸ hv)] at ht
    cases ht
    exact sameJob_finishJob hp _
  · obtain ⟨len, body, _, he⟩ := isRunBody_of_isVm hvm hi t.params
    rw [he s hp] at hs
    rw [he t rfl] at ht
    exact sameJob_vmInstr hj hs ht

theorem sameJob_step {s s' t t' : State} (hp : s.params = t.params) (hj : s.job = t.job) (hne : s.job ≠ .none)
    (hsh : s.host = []) (hth : t.host = []) (hs : step s = .next s') (ht : step t = .next t') : sameJob s' t' := by
  cases hjob : s.job with
  | none => exact absurd hjob hne
  | unit u input =>
    rw [step_unitJob hsh hjob] at hs
    rw [step_unitJob hth (hj ▸ hjob), ← hp] at ht
    cases hs; cases ht
    exact sameJob_finishJob hp _
  | vm v =>
    cases hf : vmFetch v with
    | ok i =>
      rw [step_vmExec hsh hjob hf] at hs
      rw [step_vmExec hth (hj ▸ hjob) hf] at ht
      exact sameJob_exec (isVm_of_vmFetch hf) hp hj hs ht
    | error code =>
      rw [step_vmFetchFault hsh hjob hf] at hs
      rw [step_vmFetchFault hth (hj ▸ hjob) hf] at ht
      cases hs; cases ht
      exact sameJob_jobFault s t code v.pc

/-! ### How BUSY is left -/

theorem finishJob_state (s : State) (r : UnitResult) :
    (finishJob s r).state = .done ∨ (finishJob s r).state = .error := by
  rcases finishJob_cases s r with ⟨_, _, _, e⟩ | ⟨_, _, _, e⟩ | ⟨_, _, _, e⟩ <;> simp [e]

/-- An instruction that runs while BUSY and leaves it raises an error or is HALT. -/
theorem exec_leaves_busy {i : Instr} {s t : State} (hb : s.state = .busy) (he : exec i s = .next t)
    (hne : t.state ≠ .busy) : t.state = .error ∨ (t.state = .done ∧ i = .halt) := by
  cases execMove_of_exec he with
  | start code hc ht =>
    rw [ht, startJob_of_busy _ _ hb] at hne
    exact absurd hb hne
  | halt v hi hj ht =>
    rw [ht]
    exact (finishJob_state s _).symm.imp_right fun h => ⟨h, hi⟩
  | goOn v w hj hk ht =>
    rw [ht] at hne
    exact absurd hb hne
  | fault v code hj hc ht => rw [ht]; exact .inl rfl

/-- The block's own turn leaves BUSY by the end of its job. -/
theorem blockMove_leaves_busy {s t : State} (h : BlockMove s t) (hjob : s.job ≠ .none) (hb : s.state = .busy)
    (hne : t.state ≠ .busy) :
    t.state = .error ∨
      (t.state = .done ∧ ((∃ u input, s.job = .unit u input) ∨ ∃ v, s.job = .vm v ∧ vmFetch v = .ok .halt)) := by
  cases h with
  | idle hj ht => exact absurd hj hjob
  | unitEnd u input hj ht =>
    rw [ht]
    exact (finishJob_state s _).symm.imp_right fun h => ⟨h, .inl ⟨u, input, hj⟩⟩
  | vmExec v i hj hf he =>
    refine (exec_leaves_busy hb he hne).imp_right fun ⟨hdone, hi⟩ => ⟨hdone, .inr ⟨v, hj, ?_⟩⟩
    rw [hf, hi]
  | fetchFault v code hj hf ht => rw [ht]; exact .inl rfl

/-- The one action of the host that leaves BUSY is reset (70_reset_and_hazards.md R410). -/
theorem accessMove_leaves_busy {move : HostMove} {s t : State} (h : AccessMove move s t) (hb : s.state = .busy)
    (hne : t.state ≠ .busy) : move = .reset := by
  cases h with
  | read r d ht => rw [ht] at hne; exact absurd hb hne
  | badFunc w hnb => exact absurd hb hnb
  | func w hnb => exact absurd hb hnb
  | inLen w hnb => exact absurd hb hnb
  | inByte i x hnb => exact absurd hb hnb
  | reset hm => exact hm

end Sys2Proof.Machine
end

section
/-! The registers, the job engine and reset as the host sees them (10_state.md). -/

open Sys2Proof.Machine Sys2Proof.Safety

namespace Sys2Proof.Proofs

/-- Settles O6: every field of the reset state is its tabled value. -/
theorem resetLeavesTheTabledValues : Obligations.ResetLeavesTheTabledValues :=
  ⟨rfl, rfl, rfl, rfl, rfl, rfl, rfl, regRead_reset, fun _ => ⟨rfl, rfl⟩⟩

/-- Settles O8, from what a register access does at each offset. -/
theorem registerReadsAndIgnoredWrites : Obligations.RegisterReadsAndIgnoredWrites := by
  intro s rest offset ha hl
  refine ⟨⟨regRead s offset, step_readReg s rest ha hl, ?_, ?_, ?_, ?_, ?_, regRead_reserved s⟩, ?_, ?_⟩
  · rintro rfl; exact toNat_regRead_ctrl s
  · rintro rfl; exact toNat_regRead_status s
  · rintro rfl; rfl
  · rintro rfl; rfl
  · rintro rfl; rfl
  · intro w h0 h8
    rw [step_writeReg s rest (by simp [hostInstr, h0]) ha hl, regWrite_ignored _ w h0 h8]
  · intro w t _
    rw [toNat_regRead_ctrl]
    exact t.func.isLt

/-- Settles O9: both a job command and any other word store FUNC alone, and neither does while BUSY. -/
theorem ctrlWriteStoresFunc : Obligations.CtrlWriteStoresFunc := by
  intro s rest w
  refine ⟨step_writeCtrl_busy rest w, fun hb => ⟨?_, fun hs => ?_⟩⟩
  · obtain ⟨t, ht, hf⟩ := step_writeCtrl_func rest w hb
    exact ⟨t, ht, by rw [hf, toNat_ctrlFunc], by rw [toNat_regRead_ctrl, hf, toNat_ctrlFunc]⟩
  · have hf : ctrlFunc w = BitVec.ofNat 3 w.toNat := BitVec.eq_of_toNat_eq (by simp)
    rw [step_writeCtrl_noUnit s rest (decodeCtrl_of_not_start hs), ← hf]
    rcases ctrlWriteNoUnit_cases w { s with host := rest } with ⟨hbusy, _⟩ | ⟨_, hstart, _⟩ | ⟨_, _, e⟩
    · exact absurd hbusy hb
    · exact absurd (hstart.symm.trans hs) (by decide)
    · rw [e]

/-- Settles O12, from the three ways a START can go and the length of the input snapshot. -/
theorem inLenIsTheInputLength : Obligations.InLenIsTheInputLength := by
  intro s rest
  refine ⟨fun v hb => ?_, fun v hb => ?_, fun u hb hl => ?_, fun i code hc hb hl => ?_⟩
  · rw [step_writeReg s rest rfl rfl (by decide)]
    simp [regWrite, hb]
  · rw [step_writeReg s rest rfl rfl (by decide)]
    simp [regWrite, hb]
  · refine ⟨_, inputSnapshot s, exec_command (commandCode_unitCommand u) s, ?_, length_inputSnapshot s⟩
    rw [startJob_of_fits _ _ hb hl, commandJob_unitCommand]
  · refine ⟨_, exec_command hc s, ?_⟩
    rw [startJob_of_tooLong _ _ hb hl]
    exact ⟨failedWith_jobFault _ _ _, rfl, rfl⟩

/-- Settles O13: every job command is `startJob` with its own code and job. -/
theorem jobCommandMakesTheBlockBusy : Obligations.JobCommandMakesTheBlockBusy := by
  intro i code s hc
  refine ⟨exec_command_of_busy hc, fun hb hl => ⟨_, exec_command hc s, ?_⟩⟩
  rw [startJob_of_fits _ _ hb hl]
  refine ⟨rfl, rfl, rfl, rfl, rfl, rfl, rfl, rfl, rfl, fun input hin => ?_⟩
  rw [inputSnapshot_of_hostWrote hin]
  exact ⟨by rintro u rfl; exact commandJob_unitCommand u input, by rintro rfl; rfl⟩

/-- Settles O14: the START of a VM job makes `vmInit` of the image. -/
theorem vmJobStartsAtAddressZeroWithZeroRegisters : Obligations.VmJobStartsAtAddressZeroWithZeroRegisters := by
  intro s image hb hl hin
  refine ⟨_, vmInit image, exec_command rfl s, ?_, vmInit_get8 image, vmInit_get32 image, get?_ofBytes image,
    size_ofBytes image, rfl⟩
  rw [startJob_of_fits _ _ hb hl, inputSnapshot_of_hostWrote hin]
  rfl

/-- Settles O15: the block's turn is `finishJob` of the unit's result. -/
theorem unitJobEndsWithItsResult : Obligations.UnitJobEndsWithItsResult := by
  intro s u input hj hh hp
  obtain ⟨hjob, hfunc, hinLen, hparams, hdraws, hin⟩ := finishJob_keeps s (unitResult s.params u input)
  refine ⟨_, step_unitJob hh hj, fun out hr hl => ?_, fun out hr hl => ?_, fun code info hr => ?_, hjob, hfunc, hinLen,
    hparams, hdraws, fun i => by rw [hin, get?_nil]⟩
  · rw [hr, finishJob_of_fits hl]
    exact doneWith_jobDone hp hl
  · have hcap := toNat_ofNat_of_le_outCap hp (Nat.le_refl s.params.outCap)
    rw [hr, finishJob_of_overflow hl]
    simpa only [hcap] using failedWith_jobFault s .outOverflow (BitVec.ofNat 32 s.params.outCap)
  · rw [hr, ← BitVec.toNat_ofNat]
    exact failedWith_jobFault s code _

/-- Settles O21: `turn` runs the command that the written word decodes to. -/
theorem stepRunsTheJobCommand : Obligations.StepRunsTheJobCommand := by
  intro s i w moves hd
  exact step_writeCtrl_command s moves hd

/-- Settles O38, by the cases of a step: the block's turn, a job command, an access of the host. -/
theorem onlyEndErrorOrResetLeavesBusy : Obligations.OnlyEndErrorOrResetLeavesBusy := by
  intro s t hinv hb hstep hne
  cases stepMove_of_step hstep with
  | block rest h =>
    have hend := blockMove_leaves_busy h (hinv.busy.mp hb) hb hne
    exact .inr hend
  | command w i rest hd he =>
    have hkept := exec_command_of_busy (s := { s with host := rest }) (commandCode_of_decodeCtrl hd) hb
    rw [Host.Outcome.next.inj (he.symm.trans hkept)] at hne
    exact absurd hb hne
  | access move rest hh ha =>
    have hreset := accessMove_leaves_busy ha hb hne
    exact .inl ⟨rest, hreset ▸ hh⟩

/-- Settles O60: the turn of a block reads its job and its parameters alone. -/
theorem jobsDependOnNothingButTheirInput : Obligations.JobsDependOnNothingButTheirInput := by
  intro s1 s2 t1 t2 hj hne hp hh1 hh2 hs1 hs2
  exact sameJob_step hp hj hne hh1 hh2 hs1 hs2

end Sys2Proof.Proofs
end

section
/-! SUPPORT. The host's accesses of the buffers as equations (20_memory.md R80, R81, R95), exactly when a step answers a
next state, and what a store leaves for later fetches (20_memory.md R94). -/

namespace Sys2Proof.Machine

open Sys2Proof.Safety

/-! ### The buffers -/

theorem step_readIn {s : State} (rest : List HostMove) {i : Nat} (hi : i < s.params.inCap) :
    step { s with host := .readIn i :: rest } = .next (bufRead { s with host := rest } s.inBuf i) :=
  (step_of_other rfl).trans (if_pos hi)

theorem step_writeIn {s : State} (rest : List HostMove) {i : Nat} (x : Byte) (hi : i < s.params.inCap) :
    step { s with host := .writeIn i x :: rest } = .next (inWrite { s with host := rest } i x) :=
  (step_of_other rfl).trans (if_pos hi)

theorem step_readOut {s : State} (rest : List HostMove) {i : Nat} (hi : i < s.params.outCap) :
    step { s with host := .readOut i :: rest } = .next (bufRead { s with host := rest } s.outBuf i) :=
  (step_of_other rfl).trans (if_pos hi)

/-- A host write of OUT is ignored, in every state (20_memory.md R80). -/
theorem step_writeOut {s : State} (rest : List HostMove) {i : Nat} (x : Byte) (hi : i < s.params.outCap) :
    step { s with host := .writeOut i x :: rest } = .next { s with host := rest } :=
  (step_of_other rfl).trans (if_pos hi)

/-- Outside BUSY a listed byte is what a read returns. -/
theorem bufRead_of_listed {s : State} {buf : Memory} {i : Nat} {b : Byte} (hb : s.state ≠ .busy)
    (hg : Memory.get? buf i = some b) : bufRead s buf i = { s with readData := b.zeroExtend 32 } := by
  unfold bufRead
  split
  · next hbusy => exact absurd hbusy hb
  · next hn _ => rw [hg] at hn; cases hn
  · next hx _ => rw [hg] at hx; cases hx; rfl

/-- While BUSY a read returns the next free value, whatever the buffer lists (93_implementation_defined.md U3). -/
theorem bufRead_of_busy {s : State} (buf : Memory) (i : Nat) (hb : s.state = .busy) :
    bufRead s buf i = { s with readData := (Config.freeByte s.draws).zeroExtend 32, draws := s.draws + 1 } := by
  simp [bufRead, hb]

theorem inWrite_of_busy {s : State} (i : Nat) (x : Byte) (hb : s.state = .busy) : inWrite s i x = s :=
  if_pos hb

theorem inWrite_of_not_busy {s : State} (i : Nat) (x : Byte) (hb : s.state ≠ .busy) :
    inWrite s i x = { s with inBuf := Memory.set s.inBuf i x } :=
  if_neg hb

/-- Outside BUSY the host's byte is stored at its index of IN (20_memory.md R95). -/
theorem step_writeIn_of_not_busy {s : State} (rest : List HostMove) {i : Nat} (x : Byte) (hb : s.state ≠ .busy)
    (hi : i < s.params.inCap) : step { s with host := .writeIn i x :: rest } =
      .next { s with host := rest, inBuf := Memory.set s.inBuf i x } :=
  (step_writeIn rest x hi).trans (congrArg _ (inWrite_of_not_busy i x hb))

/-- Outside BUSY the host reads the byte that IN lists at the index. -/
theorem step_readIn_of_listed {s : State} (rest : List HostMove) {i : Nat} {b : Byte} (hb : s.state ≠ .busy)
    (hi : i < s.params.inCap) (hg : Memory.get? s.inBuf i = some b) :
    step { s with host := .readIn i :: rest } = .next { s with host := rest, readData := b.zeroExtend 32 } :=
  (step_readIn rest hi).trans (congrArg _ (bufRead_of_listed hb hg))

/-! ### When a step answers -/

/-- A VM instruction stops the machine in no VM run. -/
theorem exists_vmInstr_eq_next {s : State} {v : VmState} (len : Nat) (body : VmState → Except ErrCode VmState)
    (hj : s.job = .vm v) : ∃ t, vmInstr len body s = .next t := by
  cases hb : body { v with pc := v.pc + BitVec.ofNat 32 len } with
  | ok w => exact ⟨_, vmInstr_of_ok hj hb⟩
  | error code => exact ⟨_, vmInstr_of_error hj hb⟩

theorem exists_exec_eq_next {s : State} {v : VmState} {i : Instr} (hvm : i.isVm = true) (hj : s.job = .vm v) :
    ∃ t, exec i s = .next t := by
  by_cases hi : i = .halt
  · rw [hi]; exact ⟨_, exec_halt hj⟩
  · obtain ⟨len, body, _, he⟩ := isRunBody_of_isVm hvm hi s.params
    rw [he s rfl]
    exact exists_vmInstr_eq_next len body hj

/-- The block's own turn always answers: nothing the program or the input holds stops the machine. -/
theorem exists_step_eq_next_of_blockTurn {s s' : State} (hturn : turn s = blockTurn s') : ∃ t, step s = .next t := by
  rcases blockTurn_cases s' with ⟨_, hb⟩ | ⟨_, _, _, hb⟩ | ⟨v, i, hj, hf, hb⟩ | ⟨_, _, _, _, hb⟩
  · exact ⟨_, step_of_other (hturn.trans hb)⟩
  · exact ⟨_, step_of_other (hturn.trans hb)⟩
  · rw [step_of_run (hturn.trans hb)]
    exact exists_exec_eq_next (isVm_of_vmFetch hf) hj
  · exact ⟨_, step_of_other (hturn.trans hb)⟩

/-- A register access answers exactly where it breaks no host duty and stays in the register space (10_state.md R39,
20_memory.md R80). -/
theorem exists_regAccess_eq_next_iff (width offset : Nat) (t : State) :
    (∃ u, regAccess width offset t = .next u) ↔ regAccessOk width offset = true := by
  rw [regAccessOk, decide_eq_true_eq]
  constructor
  · rintro ⟨u, h⟩
    obtain ⟨hw, ha, hl, _⟩ := regAccess_cases h
    exact ⟨hw, ha, hl⟩
  · rintro ⟨rfl, ha, hl⟩
    exact ⟨t, regAccess_of_ok t ha hl⟩

/-- An access guarded by a capacity answers exactly where its index is within it. -/
theorem exists_guarded_eq_next_iff (i cap : Nat) (t : State) (r : Refusal) :
    (∃ u, (if i < cap then .next t else .refused r : Outcome) = .next u) ↔ decide (i < cap) = true := by
  rw [decide_eq_true_eq]
  by_cases hi : i < cap
  · rw [if_pos hi]; exact ⟨fun _ => hi, fun _ => ⟨t, rfl⟩⟩
  · rw [if_neg hi]; exact ⟨by rintro ⟨_, ⟨⟩⟩, fun h => absurd h hi⟩

/-- A host action that is no job command answers exactly where it keeps the host duties (20_memory.md R95). -/
theorem exists_hostAccess_eq_next_iff (move : HostMove) (s : State) :
    (∃ t, hostAccess move s = .next t) ↔ move.wellFormed s.params = true := by
  cases move with
  | turn => exact ⟨fun _ => rfl, fun _ => ⟨_, rfl⟩⟩
  | readReg width offset => exact exists_regAccess_eq_next_iff width offset _
  | writeReg width offset value => exact exists_regAccess_eq_next_iff width offset _
  | readIn i => exact exists_guarded_eq_next_iff i _ _ _
  | writeIn i value => exact exists_guarded_eq_next_iff i _ _ _
  | readOut i => exact exists_guarded_eq_next_iff i _ _ _
  | writeOut i value => exact exists_guarded_eq_next_iff i _ _ _
  | reset => exact ⟨fun _ => rfl, fun _ => ⟨_, rfl⟩⟩

theorem hostKeepsDuty_nil {s : State} (hh : s.host = []) : hostKeepsDuty s = true := by
  simp [hostKeepsDuty, hh]

theorem hostKeepsDuty_cons {s : State} {move : HostMove} {rest : List HostMove} (hh : s.host = move :: rest) :
    hostKeepsDuty s = move.wellFormed s.params := by
  simp [hostKeepsDuty, hh]

/-- A host action that is a job command is a proper register access. -/
theorem wellFormed_of_hostInstr {move : HostMove} {i : Instr} (p : Params) (h : hostInstr move = some i) :
    move.wellFormed p = true := by
  obtain ⟨w, rfl, _⟩ := hostInstr_eq_some h
  rfl

theorem exists_step_eq_next_iff (s : State) : (∃ t, step s = .next t) ↔ hostKeepsDuty s = true := by
  rcases turn_cases s with ⟨hh, ht⟩ | ⟨rest, hh, ht⟩ | ⟨move, rest, i, hh, hi, ht⟩ | ⟨move, rest, hh, _, _, ht⟩
  · exact iff_of_true (exists_step_eq_next_of_blockTurn ht) (hostKeepsDuty_nil hh)
  · exact iff_of_true (exists_step_eq_next_of_blockTurn ht) (hostKeepsDuty_cons hh)
  · obtain ⟨w, _, hd⟩ := hostInstr_eq_some hi
    have hstep := (step_of_run ht).trans (exec_command (commandCode_of_decodeCtrl hd) _)
    exact iff_of_true ⟨_, hstep⟩ ((hostKeepsDuty_cons hh).trans (wellFormed_of_hostInstr s.params hi))
  · rw [step_of_other ht, hostKeepsDuty_cons hh]
    exact exists_hostAccess_eq_next_iff move { s with host := rest }

/-! ### Stores -/

/-- A VM instruction that goes on leaves the run its body answers. -/
theorem body_of_vmInstr {len : Nat} {body : VmState → Except ErrCode VmState} {s t : State} {v w : VmState}
    (hj : s.job = .vm v) (h : vmInstr len body s = .next t) (hw : t.job = .vm w) :
    body { v with pc := v.pc + BitVec.ofNat 32 len } = .ok w := by
  obtain ⟨v', hv', ⟨w', hb, rfl⟩ | ⟨code, _, rfl⟩⟩ := vmInstr_cases h
  · cases hj.symm.trans hv'; cases hw; exact hb
  · cases hw

/-- The instruction stores the byte `x` to memory (46_bytecode_vm.md R339, R340): an immediate, or what its source
reads. -/
inductive StoresByte (v : VmState) : Instr → Byte → Prop
  | mvi (imm8 : Byte) : StoresByte v (.mvi .ptrC imm8) imm8
  | mv (src : Opnd8) (x : Byte) (hx : v.read8 src = .ok x) : StoresByte v (.mv .ptrC src) x

theorem storeAddr_eq_some {v : VmState} {i : Instr} {addr : Nat} (h : storeAddr v i = some addr) :
    addr = v.ea ∧ ((∃ src, i = .mv .ptrC src) ∨ ∃ imm8, i = .mvi .ptrC imm8) := by
  unfold storeAddr at h
  split at h
  · exact ⟨(Option.some.inj h).symm, .inl ⟨_, rfl⟩⟩
  · exact ⟨(Option.some.inj h).symm, .inr ⟨_, rfl⟩⟩
  · cases h

/-- Writing the memory operand at an advanced pc stores to `(ptr+c)` of the run before the advance. -/
theorem write8_ptrC_ok {v w : VmState} {pc : Word} {x : Byte}
    (h : ({ v with pc := pc } : VmState).write8 .ptrC x = .ok w) :
    (Memory.get? v.mem v.ea).isSome = true ∧ w.mem = Memory.set v.mem v.ea x := by
  rcases write8_ok h with ⟨_, h, _⟩ | ⟨_, hs, rfl⟩
  · cases h
  · exact ⟨hs, rfl⟩

/-- A store that goes on replaces the one byte at its address. -/
theorem exec_store {s t : State} {v w : VmState} {i : Instr} {addr : Nat} (hj : s.job = .vm v)
    (ha : storeAddr v i = some addr) (he : exec i s = .next t) (hw : t.job = .vm w) :
    ∃ x, StoresByte v i x ∧ (Memory.get? v.mem addr).isSome = true ∧ w.mem = Memory.set v.mem addr x := by
  obtain ⟨rfl, ⟨src, rfl⟩ | ⟨imm8, rfl⟩⟩ := storeAddr_eq_some ha
  · obtain ⟨x, hread, hwrite⟩ := moveOpnd8_ok (body_of_vmInstr (body := (moveOpnd8 · .ptrC src)) hj he hw)
    rw [setPc_read8] at hread
    exact ⟨x, .mv src x hread, write8_ptrC_ok hwrite⟩
  · exact ⟨imm8, .mvi imm8, write8_ptrC_ok (body_of_vmInstr (body := (VmState.write8 · .ptrC imm8)) hj he hw)⟩

/-- The window of a fetch after one byte of memory is replaced, at any pc (20_memory.md R94). -/
theorem getElem?_fetchWindow_of_set {v w : VmState} {a k : Nat} {x : Byte} (hd : dense v.mem = true)
    (hs : (Memory.get? v.mem a).isSome = true) (hm : w.mem = Memory.set v.mem a x) (pc : Word) (hk : k < 5) :
    (fetchWindow { w with pc := pc })[k]? =
      if pc.toNat + k = a then some x else (fetchWindow { v with pc := pc })[k]? := by
  obtain ⟨hd', _⟩ := dense_set hd ((get?_isSome_iff_lt hd a).mp hs) x
  simp only [fetchWindow, hm]
  rw [getElem?_run hd' _ hk, getElem?_run hd _ hk]
  split
  · next heq => rw [heq, get?_set_same]
  · next hne => rw [get?_set_other x hne]

end Sys2Proof.Machine
end

section
/-! Buffers, host duties and stores (20_memory.md). -/

open Sys2Proof.Machine Sys2Proof.Safety

namespace Sys2Proof.Proofs

/-- Settles O18: the write is `Memory.set`, so the next read of the index finds the byte. -/
theorem hostBufferAccesses : Obligations.HostBufferAccesses := by
  intro s rest i b hb
  refine ⟨fun hi => ?_, fun hi hg => ?_, fun hi => step_writeOut rest b hi⟩
  · have hread := step_readIn_of_listed (s := { s with inBuf := Memory.set s.inBuf i b }) rest hb hi
      (get?_set_same s.inBuf i b)
    exact ⟨_, _, step_writeIn_of_not_busy _ b hb hi, fun j hj => get?_set_other b hj, hread, rfl, rfl⟩
  · exact (step_readOut rest hi).trans (congrArg _ (bufRead_of_listed hb hg))

/-- Settles O19: while BUSY a write of IN is ignored and a read is one draw of the free value. -/
theorem busyBufferAccesses : Obligations.BusyBufferAccesses := by
  intro s rest i b hb
  have hread (buf : Memory) := bufRead_of_busy (s := { s with host := rest }) buf i hb
  exact ⟨fun hi => ⟨(step_writeIn rest b hi).trans (congrArg _ (inWrite_of_busy i b hb)),
      (step_readIn rest hi).trans (congrArg _ (hread s.inBuf))⟩,
    fun hi => (step_readOut rest hi).trans (congrArg _ (hread s.outBuf))⟩

/-- Settles O23: the block's turn and a job command always answer, an access of the host where it keeps its duty. -/
theorem stepStopsOnlyOnBrokenHostDuty : Obligations.StepStopsOnlyOnBrokenHostDuty :=
  exists_step_eq_next_iff

/-- Settles O36: a store replaces one byte of memory, and a fetch reads the memory as it is. -/
theorem storeIsSeenByLaterFetches : Obligations.StoreIsSeenByLaterFetches := by
  intro s v i t v' addr hj hd ha he hv'
  obtain ⟨x, hx, hs, hm⟩ := exec_store hj ha he hv'
  refine ⟨x, ?_, ?_, ?_, fun pc k hk => getElem?_fetchWindow_of_set hd hs hm pc hk⟩
  · rintro dst imm8 rfl
    cases hx; rfl
  · rintro dst r rfl
    cases hx with
    | mv _ _ hread => cases hread; rfl
  · rintro dst rfl
    obtain ⟨rfl, _⟩ := storeAddr_eq_some ha
    cases hx with
    | mv _ _ hread =>
      rcases read8_ok hread with ⟨_, h, _⟩ | ⟨_, hg⟩
      · cases h
      · exact hg

end Sys2Proof.Proofs
end

section
/-! SUPPORT. The decoder, said once: immediates, the operand codes, the fields of a move opcode, and what each opcode
byte can be (30_encoding.md R120–R127). -/

namespace Sys2Proof

open Sys2Proof.Safety

/-! ### Immediates -/

/-- The bytes of a word make the word again (20_memory.md R84). -/
@[simp] theorem le32_wordByte (w : Word) : le32 (wordByte w 0) (wordByte w 1) (wordByte w 2) (wordByte w 3) = w := by
  simp only [le32, wordByte]
  rw [BitVec.extractLsb'_append_extractLsb'_eq_extractLsb' (show 8 * 3 = 8 * 2 + 8 from rfl),
    BitVec.extractLsb'_append_extractLsb'_eq_extractLsb' (show 8 * 2 = 8 * 1 + 8 from rfl),
    BitVec.extractLsb'_append_extractLsb'_eq_extractLsb' (show 8 * 1 = 8 * 0 + 8 from rfl)]
  exact BitVec.extractLsb'_eq_self

/-- The word that four bytes make has those bytes (20_memory.md R84). -/
@[simp] theorem le32Bytes_le32 (b0 b1 b2 b3 : Byte) : le32Bytes (le32 b0 b1 b2 b3) = [b0, b1, b2, b3] := by
  have h0 : wordByte (le32 b0 b1 b2 b3) 0 = b0 := BitVec.extractLsb'_append_eq_right
  have h1 : wordByte (le32 b0 b1 b2 b3) 1 = b1 :=
    (BitVec.extractLsb'_append_eq_of_le (by decide)).trans BitVec.extractLsb'_append_eq_right
  have h2 : wordByte (le32 b0 b1 b2 b3) 2 = b2 :=
    (BitVec.extractLsb'_append_eq_of_le (by decide)).trans <|
      (BitVec.extractLsb'_append_eq_of_le (by decide)).trans BitVec.extractLsb'_append_eq_right
  have h3 : wordByte (le32 b0 b1 b2 b3) 3 = b3 :=
    (BitVec.extractLsb'_append_eq_of_le (by decide)).trans <|
      (BitVec.extractLsb'_append_eq_of_le (by decide)).trans BitVec.extractLsb'_append_eq_left
  rw [le32Bytes, h0, h1, h2, h3]

@[simp] theorem takeImm32_le32Bytes (w : Word) (rest : List Byte) (mk : Word → Instr) :
    takeImm32 (le32Bytes w ++ rest) mk = .ok (mk w, rest) := by
  simp [takeImm32, le32Bytes]

/-- All an I8 instruction can decode to, after its opcode byte (30_encoding.md R120). -/
theorem takeImm8_cases (rest : List Byte) (mk : Byte → Instr) :
    (rest.length < 1 ∧ takeImm8 rest mk = .error .truncated) ∨
    (∃ b t, rest = b :: t ∧ takeImm8 rest mk = .ok (mk b, t)) := by
  unfold takeImm8
  split
  · exact .inr ⟨_, _, rfl, rfl⟩
  · next hne =>
    cases rest with
    | nil => exact .inl ⟨by decide, rfl⟩
    | cons b t => exact absurd rfl (hne b t)

/-- All an I32 instruction can decode to, after its opcode byte (30_encoding.md R120). -/
theorem takeImm32_cases (rest : List Byte) (mk : Word → Instr) :
    (rest.length < 4 ∧ takeImm32 rest mk = .error .truncated) ∨
    (∃ w t, rest = le32Bytes w ++ t ∧ takeImm32 rest mk = .ok (mk w, t)) := by
  unfold takeImm32
  split
  · next b0 b1 b2 b3 t => exact .inr ⟨le32 b0 b1 b2 b3, t, by simp, rfl⟩
  · next hne =>
    refine .inl ⟨?_, rfl⟩
    match rest with
    | [] | [_] | [_, _] | [_, _, _] => simp
    | b0 :: b1 :: b2 :: b3 :: t => exact absurd rfl (hne b0 b1 b2 b3 t)

/-! ### Operand codes -/

/-- The code of an 8-bit operand is the one that names it (10_state.md R40). -/
theorem opnd8OfCode_eq_some {code : BitVec 3} {o : Opnd8} : opnd8OfCode code = some o ↔ code = codeOfOpnd8 o := by
  revert code
  cases o with
  | reg r => cases r <;> decide
  | ptrC => decide

theorem opnd8OfCode_eq_none : ∀ {code : BitVec 3}, opnd8OfCode code = none ↔ code = 0 := by decide

/-- The code of a 32-bit register is the one that names it (10_state.md R41). -/
theorem reg32OfCode_eq_some {code : BitVec 3} {r : Reg32} : reg32OfCode code = some r ↔ code = codeOfReg32 r := by
  revert code
  cases r <;> decide

@[simp] theorem opnd8OfCode_codeOfOpnd8 (o : Opnd8) : opnd8OfCode (codeOfOpnd8 o) = some o :=
  opnd8OfCode_eq_some.mpr rfl

@[simp] theorem reg32OfCode_codeOfReg32 (r : Reg32) : reg32OfCode (codeOfReg32 r) = some r :=
  reg32OfCode_eq_some.mpr rfl

theorem opnd8OfCode_zero : opnd8OfCode 0 = none := rfl

theorem reg32OfCode_zero : reg32OfCode 0 = none := rfl

/-- Code 0 names no operand (10_state.md R40). -/
theorem codeOfOpnd8_ne_zero (o : Opnd8) : codeOfOpnd8 o ≠ 0 := by
  cases o with
  | reg r => cases r <;> decide
  | ptrC => decide

/-- Code 0 names no 32-bit register (10_state.md R41). -/
theorem codeOfReg32_ne_zero (r : Reg32) : codeOfReg32 r ≠ 0 := by
  cases r <;> decide

/-! ### The fields of a move opcode -/

section moveFields
variable (kk : BitVec 2) (ddd sss : BitVec 3)

@[simp] theorem moveOpcode_kk : (moveOpcode kk ddd sss).extractLsb' 6 2 = kk :=
  (BitVec.extractLsb'_append_eq_of_le (by decide)).trans BitVec.extractLsb'_append_eq_left

@[simp] theorem moveOpcode_ddd : (moveOpcode kk ddd sss).extractLsb' 3 3 = ddd :=
  (BitVec.extractLsb'_append_eq_of_le (by decide)).trans BitVec.extractLsb'_append_eq_right

@[simp] theorem moveOpcode_sss : (moveOpcode kk ddd sss).extractLsb' 0 3 = sss :=
  BitVec.extractLsb'_append_eq_right

end moveFields

/-- Every byte is made of its three fields (30_encoding.md R121). -/
theorem exists_eq_moveOpcode (op : Byte) : ∃ kk ddd sss, op = moveOpcode kk ddd sss := by
  refine ⟨op.extractLsb' 6 2, op.extractLsb' 3 3, op.extractLsb' 0 3, ?_⟩
  unfold moveOpcode
  rw [BitVec.extractLsb'_append_extractLsb'_eq_extractLsb' (show 6 = 3 + 3 from rfl),
    BitVec.extractLsb'_append_extractLsb'_eq_extractLsb' (show 3 = 0 + 3 from rfl)]
  exact BitVec.extractLsb'_eq_self.symm

/-- The opcode bytes that the map lists one by one, outside the move family (30_encoding.md R123). -/
def listedOpcodes : List Byte :=
  [0x01, 0x02, 0x21, 0x22, 0xC1, 0xC2, 0xC3, 0xC4, 0xE1]

/-- Any other opcode byte is read as one of the move family (30_encoding.md R121). -/
theorem decodeBytes_of_not_listed {op : Byte} (h : op ∉ listedOpcodes) (rest : List Byte) :
    decodeBytes (op :: rest) = decodeMove op rest := by
  rw [decodeBytes]
  split
  case h_10 => rfl
  all_goals next hop => simp [listedOpcodes, ← BitVec.toNat_inj, hop] at h

theorem moveOpcode_one_not_listed : ∀ ddd sss, moveOpcode 1 ddd sss ∉ listedOpcodes := by decide

theorem moveOpcode_two_not_listed : ∀ ddd sss, moveOpcode 2 ddd sss ∉ listedOpcodes := by decide

/-! ### The move family (30_encoding.md R121) -/

/-- A move opcode with kk = 2 is none with kk = 1. -/
theorem kk_two_ne_one : ¬(2 : BitVec 2) = 1 := by decide

theorem decodeBytes_mv (dst src : Opnd8) (rest : List Byte) :
    decodeBytes (moveOpcode 1 (codeOfOpnd8 dst) (codeOfOpnd8 src) :: rest) = .ok (.mv dst src, rest) := by
  rw [decodeBytes_of_not_listed (moveOpcode_one_not_listed _ _)]
  simp [decodeMove]

theorem decodeBytes_mvi (dst : Opnd8) (rest : List Byte) :
    decodeBytes (moveOpcode 1 (codeOfOpnd8 dst) 0 :: rest) = takeImm8 rest (.mvi dst) := by
  rw [decodeBytes_of_not_listed (moveOpcode_one_not_listed _ _)]
  simp only [decodeMove, moveOpcode_kk, moveOpcode_ddd, moveOpcode_sss, if_true, opnd8OfCode_codeOfOpnd8,
    opnd8OfCode_zero]

theorem decodeBytes_mv32 (dst src : Reg32) (rest : List Byte) :
    decodeBytes (moveOpcode 2 (codeOfReg32 dst) (codeOfReg32 src) :: rest) = .ok (.mv32 dst src, rest) := by
  rw [decodeBytes_of_not_listed (moveOpcode_two_not_listed _ _)]
  simp [decodeMove]

theorem decodeBytes_mvi32 (dst : Reg32) (rest : List Byte) :
    decodeBytes (moveOpcode 2 (codeOfReg32 dst) 0 :: rest) = takeImm32 rest (.mvi32 dst) := by
  rw [decodeBytes_of_not_listed (moveOpcode_two_not_listed _ _)]
  simp only [decodeMove, moveOpcode_kk, moveOpcode_ddd, moveOpcode_sss, kk_two_ne_one, if_true, if_false,
    reg32OfCode_codeOfReg32, reg32OfCode_zero]

/-! ### The round trip -/

/-- A VM instruction is what its bytes decode to, and what follows them is left over (30_encoding.md R127). -/
theorem decodeBytes_encodeBytes_append {i : Instr} (h : i.isVm = true) (rest : List Byte) :
    decodeBytes (encodeBytes i ++ rest) = .ok (i, rest) := by
  cases i with
  | halt | out | cmp | add | sub | xor | aptr => rfl
  | jez imm32 => exact takeImm32_le32Bytes imm32 rest .jez
  | jnz imm32 => exact takeImm32_le32Bytes imm32 rest .jnz
  | mv dst src => exact decodeBytes_mv dst src rest
  | mvi dst imm8 => exact decodeBytes_mvi dst (imm8 :: rest)
  | mv32 dst src => exact decodeBytes_mv32 dst src rest
  | mvi32 dst imm32 => exact (decodeBytes_mvi32 dst _).trans (takeImm32_le32Bytes imm32 rest (.mvi32 dst))
  | _ => cases h

theorem encode_of_isVm {i : Instr} (h : i.isVm = true) : encode i = .vmBytes (encodeBytes i) := by
  cases i with
  | jobAscii85 | jobBitflip | jobParity | jobPacket | jobUnwrap | jobVm => cases h
  | _ => rfl

/-- A job command is what its word for CTRL decodes to (30_encoding.md R110). -/
theorem decode_encode_of_command {i : Instr} {code : BitVec 3} (h : commandCode i = some code) :
    decode (encode i) = some i := by
  cases i with
  | jobAscii85 | jobBitflip | jobParity | jobPacket | jobUnwrap | jobVm => rfl
  | _ => cases h

/-! ### What an opcode byte can be -/

/-- All an opcode byte can be, whatever follows it: an instruction of one byte, the start of one with an 8-bit or a
32-bit immediate, or invalid (30_encoding.md R120, R123, R125). -/
inductive OpcodeCase (op : Byte) : Prop
  | alone (i : Instr) (hd : ∀ rest, decodeBytes (op :: rest) = .ok (i, rest)) (he : encodeBytes i = [op])
  | imm8 (mk : Byte → Instr) (hd : ∀ rest, decodeBytes (op :: rest) = takeImm8 rest mk)
      (he : ∀ b, encodeBytes (mk b) = [op, b])
  | imm32 (mk : Word → Instr) (hd : ∀ rest, decodeBytes (op :: rest) = takeImm32 rest mk)
      (he : ∀ w, encodeBytes (mk w) = op :: le32Bytes w)
  | invalid (hd : ∀ rest, decodeBytes (op :: rest) = .error .invalidOpcode)

/-- The moves with kk = 1 (30_encoding.md R121). -/
theorem opcodeCase_moveOpcode_one (ddd sss : BitVec 3) : OpcodeCase (moveOpcode 1 ddd sss) := by
  have hmove := decodeBytes_of_not_listed (moveOpcode_one_not_listed ddd sss)
  cases hd : opnd8OfCode ddd with
  | none => exact .invalid fun rest => (hmove rest).trans (by simp [decodeMove, hd])
  | some dst =>
    obtain rfl := opnd8OfCode_eq_some.mp hd
    cases hs : opnd8OfCode sss with
    | none =>
      obtain rfl := opnd8OfCode_eq_none.mp hs
      exact .imm8 (.mvi dst) (decodeBytes_mvi dst) fun _ => rfl
    | some src =>
      obtain rfl := opnd8OfCode_eq_some.mp hs
      exact .alone (.mv dst src) (decodeBytes_mv dst src) rfl

/-- The moves with kk = 2 (30_encoding.md R121). -/
theorem opcodeCase_moveOpcode_two (ddd sss : BitVec 3) : OpcodeCase (moveOpcode 2 ddd sss) := by
  have hmove := decodeBytes_of_not_listed (moveOpcode_two_not_listed ddd sss)
  cases hd : reg32OfCode ddd with
  | none => exact .invalid fun rest => (hmove rest).trans (by simp [decodeMove, hd])
  | some dst =>
    obtain rfl := reg32OfCode_eq_some.mp hd
    cases hs : reg32OfCode sss with
    | none =>
      by_cases h0 : sss = 0
      · subst h0
        exact .imm32 (.mvi32 dst) (decodeBytes_mvi32 dst) fun _ => rfl
      · refine .invalid fun rest => (hmove rest).trans ?_
        simp only [decodeMove, moveOpcode_kk, moveOpcode_ddd, moveOpcode_sss, kk_two_ne_one, if_true, if_false, hd, hs,
          h0]
    | some src =>
      obtain rfl := reg32OfCode_eq_some.mp hs
      exact .alone (.mv32 dst src) (decodeBytes_mv32 dst src) rfl

theorem opcodeCase_of_listed {op : Byte} (h : op ∈ listedOpcodes) : OpcodeCase op := by
  simp only [listedOpcodes, List.mem_cons, List.not_mem_nil, or_false] at h
  rcases h with rfl | rfl | rfl | rfl | rfl | rfl | rfl | rfl | rfl
  · exact .alone .halt (fun _ => rfl) rfl
  · exact .alone .out (fun _ => rfl) rfl
  · exact .imm32 .jez (fun _ => rfl) fun _ => rfl
  · exact .imm32 .jnz (fun _ => rfl) fun _ => rfl
  · exact .alone .cmp (fun _ => rfl) rfl
  · exact .alone .add (fun _ => rfl) rfl
  · exact .alone .sub (fun _ => rfl) rfl
  · exact .alone .xor (fun _ => rfl) rfl
  · exact .imm8 .aptr (fun _ => rfl) fun _ => rfl

theorem opcodeCase (op : Byte) : OpcodeCase op := by
  by_cases hl : op ∈ listedOpcodes
  · exact opcodeCase_of_listed hl
  · obtain ⟨kk, ddd, sss, rfl⟩ := exists_eq_moveOpcode op
    by_cases h1 : kk = 1
    · subst h1
      exact opcodeCase_moveOpcode_one ddd sss
    · by_cases h2 : kk = 2
      · subst h2
        exact opcodeCase_moveOpcode_two ddd sss
      · refine .invalid fun rest => (decodeBytes_of_not_listed hl rest).trans ?_
        simp only [decodeMove, moveOpcode_kk, h1, h2, if_false]

/-- Bytes that decode are the opcode byte and the immediate of what they decode to, before the rest
(30_encoding.md R123). -/
theorem encodeBytes_of_decodeBytes {op : Byte} {bytes rest : List Byte} {i : Instr}
    (h : decodeBytes (op :: bytes) = .ok (i, rest)) : ∃ imm, encodeBytes i = op :: imm ∧ bytes = imm ++ rest := by
  cases opcodeCase op with
  | alone j hd he =>
    cases (hd bytes).symm.trans h
    exact ⟨[], he, rfl⟩
  | imm8 mk hd he =>
    rcases takeImm8_cases bytes mk with ⟨_, e⟩ | ⟨b, t, rfl, e⟩
    · cases e.symm.trans ((hd _).symm.trans h)
    · cases e.symm.trans ((hd _).symm.trans h)
      exact ⟨[b], he b, rfl⟩
  | imm32 mk hd he =>
    rcases takeImm32_cases bytes mk with ⟨_, e⟩ | ⟨w, t, rfl, e⟩
    · cases e.symm.trans ((hd _).symm.trans h)
    · cases e.symm.trans ((hd _).symm.trans h)
      exact ⟨le32Bytes w, he w, rfl⟩
  | invalid hd => cases (hd bytes).symm.trans h

/-! ### The length of an instruction -/

/-- The length law holds of every instruction (30_encoding.md R120). -/
theorem length_encodeBytes : ∀ i : Instr, Laws.Length.Statement i
  | .halt => Laws.Length.halt
  | .out => Laws.Length.out
  | .cmp => Laws.Length.cmp
  | .add => Laws.Length.add
  | .sub => Laws.Length.sub
  | .xor => Laws.Length.xor
  | .aptr imm8 => Laws.Length.aptr imm8
  | .jez imm32 => Laws.Length.jez imm32
  | .jnz imm32 => Laws.Length.jnz imm32
  | .mv dst src => Laws.Length.mv dst src
  | .mvi dst imm8 => Laws.Length.mvi dst imm8
  | .mv32 dst src => Laws.Length.mv32 dst src
  | .mvi32 dst imm32 => Laws.Length.mvi32 dst imm32
  | .jobAscii85 => Laws.Length.jobAscii85
  | .jobBitflip => Laws.Length.jobBitflip
  | .jobParity => Laws.Length.jobParity
  | .jobPacket => Laws.Length.jobPacket
  | .jobUnwrap => Laws.Length.jobUnwrap
  | .jobVm => Laws.Length.jobVm

theorem length_encodeBytes_of_isVm {i : Instr} (h : i.isVm = true) : (encodeBytes i).length = formatLength i :=
  (length_encodeBytes i).trans (if_pos h)

/-- A move with kk = 1 has an immediate byte exactly where its source code is 0 (30_encoding.md R121). -/
theorem opcodeLength_moveOpcode_one :
    ∀ ddd sss, opcodeLength (moveOpcode 1 ddd sss) = if sss = 0 then 2 else 1 := by decide

/-- A move with kk = 2 has four immediate bytes exactly where its source code is 0 (30_encoding.md R121). -/
theorem opcodeLength_moveOpcode_two :
    ∀ ddd sss, opcodeLength (moveOpcode 2 ddd sss) = if sss = 0 then 5 else 1 := by decide

/-- The first byte of an encoding fixes the length of its format (30_encoding.md R125). -/
theorem opcodeLength_head_encodeBytes {i : Instr} (h : i.isVm = true) :
    (encodeBytes i).head?.map opcodeLength = some (formatLength i) := by
  cases i with
  | halt | out | cmp | add | sub | xor | aptr | jez | jnz => rfl
  | mv dst src =>
    exact congrArg some ((opcodeLength_moveOpcode_one _ _).trans (if_neg (codeOfOpnd8_ne_zero src)))
  | mvi dst imm8 => exact congrArg some (opcodeLength_moveOpcode_one _ 0)
  | mv32 dst src =>
    exact congrArg some ((opcodeLength_moveOpcode_two _ _).trans (if_neg (codeOfReg32_ne_zero src)))
  | mvi32 dst imm32 => exact congrArg some (opcodeLength_moveOpcode_two _ 0)
  | _ => cases h

/-- The first byte of an encoding fixes how many bytes there are (30_encoding.md R125). -/
theorem opcodeLength_of_encodeBytes {i : Instr} {op : Byte} {imm : List Byte} (h : encodeBytes i = op :: imm) :
    formatLength i = opcodeLength op ∧ opcodeLength op = imm.length + 1 := by
  have hlen := length_encodeBytes i
  rw [Laws.Length.Statement, h, List.length_cons] at hlen
  cases hvm : i.isVm with
  | false => simp [hvm] at hlen
  | true =>
    have hhead := opcodeLength_head_encodeBytes hvm
    rw [h] at hhead
    have hop : opcodeLength op = formatLength i := Option.some.inj hhead
    rw [hvm, if_pos rfl] at hlen
    exact ⟨hop.symm, hop.trans hlen.symm⟩

/-- The instruction that bytes decode to has the length that the first of them fixes (30_encoding.md R125). -/
theorem formatLength_of_decodeBytes {op : Byte} {bytes rest : List Byte} {i : Instr}
    (h : decodeBytes (op :: bytes) = .ok (i, rest)) : formatLength i = opcodeLength op := by
  obtain ⟨imm, he, _⟩ := encodeBytes_of_decodeBytes h
  exact (opcodeLength_of_encodeBytes he).1

/-- An opcode byte that starts an instruction decodes with any bytes after it that are enough, and is truncated with
any that are not (30_encoding.md R125). -/
theorem decodeBytes_of_opcodeLength {op : Byte} {r1 t1 : List Byte} {i1 : Instr}
    (h : decodeBytes (op :: r1) = .ok (i1, t1)) (r2 : List Byte) :
    (r2.length + 1 < opcodeLength op ∧ decodeBytes (op :: r2) = .error .truncated) ∨
    (opcodeLength op ≤ r2.length + 1 ∧ ∃ i2, decodeBytes (op :: r2) = .ok (i2, r2.drop (opcodeLength op - 1))) := by
  cases opcodeCase op with
  | alone j hd he =>
    obtain ⟨_, hlen⟩ := opcodeLength_of_encodeBytes he
    rw [hlen, hd]
    exact .inr ⟨by simp, j, rfl⟩
  | imm8 mk hd he =>
    obtain ⟨_, hlen⟩ := opcodeLength_of_encodeBytes (he 0)
    rw [hlen, hd]
    rcases takeImm8_cases r2 mk with ⟨hs, e⟩ | ⟨b, t, rfl, e⟩
    · exact .inl ⟨Nat.succ_lt_succ hs, e⟩
    · exact .inr ⟨by simp, mk b, e⟩
  | imm32 mk hd he =>
    obtain ⟨_, hlen⟩ := opcodeLength_of_encodeBytes (he 0)
    rw [hlen, hd]
    rcases takeImm32_cases r2 mk with ⟨hs, e⟩ | ⟨w, t, rfl, e⟩
    · exact .inl ⟨Nat.succ_lt_succ hs, e⟩
    · exact .inr ⟨by simp [le32Bytes], mk w, e⟩
  | invalid hd => cases (hd r1).symm.trans h

/-! ### The opcode map -/

/-- Whether an opcode byte is invalid does not depend on what follows it (30_encoding.md R125). -/
theorem invalidOpcode_of_invalidOpcode {op : Byte} {r1 : List Byte} (r2 : List Byte)
    (h : decodeBytes (op :: r1) = .error .invalidOpcode) : decodeBytes (op :: r2) = .error .invalidOpcode := by
  cases opcodeCase op with
  | alone i hd => cases (hd r1).symm.trans h
  | imm8 mk hd =>
    rcases takeImm8_cases r1 mk with ⟨_, e⟩ | ⟨_, _, _, e⟩ <;> cases e.symm.trans ((hd r1).symm.trans h)
  | imm32 mk hd =>
    rcases takeImm32_cases r1 mk with ⟨_, e⟩ | ⟨_, _, _, e⟩ <;> cases e.symm.trans ((hd r1).symm.trans h)
  | invalid hd => exact hd r2

/-- The map of R123, byte by byte. -/
theorem decodeBytes_singleton_eq_invalidOpcode_iff :
    ∀ op : Byte, decodeBytes [op] = .error .invalidOpcode ↔ validOpcode op = false := by decide

theorem count_validOpcode : ((List.range 256).filter fun n => validOpcode (BitVec.ofNat 8 n)).length = 107 := by
  decide

end Sys2Proof
end

section
/-! SUPPORT. Which job a written START runs (30_encoding.md R110, R111). -/

namespace Sys2Proof.Machine

open Sys2Proof.Safety

/-- With START set, a FUNC that names a unit is its job command (30_encoding.md R110). -/
theorem decodeCtrl_of_commandCode {w : Word} {i : Instr} (hs : ctrlStart w = true)
    (hc : commandCode i = some (ctrlFunc w)) : decodeCtrl w = some i := by
  rcases commandCode_eq_some hc with ⟨u, rfl, hu⟩ | ⟨rfl, hu⟩
  · cases u <;> simp [decodeCtrl, hs, hu, unitCode, unitCommand]
  · simp [decodeCtrl, hs, hu]

/-- FUNC 3 and 7 name no unit (30_encoding.md R110). -/
theorem decodeCtrl_of_reserved {w : Word} (h : w.toNat % 8 = 3 ∨ w.toNat % 8 = 7) : decodeCtrl w = none := by
  rcases h with h | h <;> simp [decodeCtrl, h]

/-- A START with a reserved FUNC ends at once in BAD_FUNC (30_encoding.md R111). -/
theorem step_start_reserved {s : State} (rest : List HostMove) {w : Word} (hb : s.state ≠ .busy)
    (hs : ctrlStart w = true) (hd : decodeCtrl w = none) :
    step { s with host := .writeReg 32 0x00 w :: rest } = .next
      (jobFault { s with host := rest, func := ctrlFunc w } .badFunc ((ctrlFunc w).zeroExtend 32)) := by
  rw [step_writeCtrl_noUnit s rest hd]
  rcases ctrlWriteNoUnit_cases w { s with host := rest } with ⟨hbusy, _⟩ | ⟨_, _, e⟩ | ⟨_, hs', _⟩
  · exact absurd hbusy hb
  · rw [e]
  · exact absurd (hs.symm.trans hs') (by decide)

/-- A START with IN_LEN in range leaves the job of the command it is, or none (10_state.md R34). -/
theorem step_start_job {s : State} (rest : List HostMove) {w : Word} (hb : s.state ≠ .busy)
    (hl : s.inLen.toNat ≤ s.params.inCap) (hs : ctrlStart w = true) :
    ∃ t, step { s with host := .writeReg 32 0x00 w :: rest } = .next t ∧
      (∀ i, decodeCtrl w = some i → t.job = commandJob i (inputSnapshot s)) ∧ (decodeCtrl w = none → t.job = .none) := by
  cases hd : decodeCtrl w with
  | none => exact ⟨_, step_start_reserved rest hb hs hd, fun _ hi => (nomatch hi), fun _ => rfl⟩
  | some i =>
    have hstep := (step_writeCtrl_command s rest hd).trans (exec_command (commandCode_of_decodeCtrl hd) _)
    refine ⟨_, hstep, fun j hj => ?_, fun hn => (nomatch hn)⟩
    cases hj
    exact congrArg State.job (startJob_of_fits (s := { s with host := rest }) _ _ hb hl)

end Sys2Proof.Machine
end

section
/-! Encoding and decoding, and what FUNC selects (30_encoding.md). -/

open Sys2Proof.Machine Sys2Proof.Safety

namespace Sys2Proof.Proofs

/-- Settles O1: the bytes of a VM instruction decode to it before any rest, a job command is its own CTRL word. -/
theorem decodeOfEncodeGivesTheInstruction : Obligations.DecodeOfEncodeGivesTheInstruction := by
  intro i _
  refine ⟨?_, fun hvm => decodeBytes_encodeBytes_append hvm⟩
  rcases isVm_or_command i with hvm | ⟨code, hc⟩
  · have hbytes := decodeBytes_encodeBytes_append hvm []
    rw [List.append_nil] at hbytes
    rw [encode_of_isVm hvm, decode, hbytes]
  · exact decode_encode_of_command hc

/-- Settles O2, from the cases of an opcode byte: what an immediate takes is what its encoding writes. -/
theorem decodedBytesAreTheEncoding : Obligations.DecodedBytesAreTheEncoding := by
  intro bytes i rest h
  refine ⟨isVm_of_decodeBytes h, ?_⟩
  cases bytes with
  | nil => cases h
  | cons op t =>
    obtain ⟨imm, he, rfl⟩ := encodeBytes_of_decodeBytes h
    rw [he, List.cons_append]

/-- Settles O3, from the cases of an opcode byte and the length its encoding has in each. -/
theorem opcodeByteFixesTheLength : Obligations.OpcodeByteFixesTheLength := by
  refine ⟨fun i hvm => ⟨length_encodeBytes_of_isVm hvm, opcodeLength_head_encodeBytes hvm⟩, ?_⟩
  intro op r1 i1 t1 h
  refine ⟨formatLength_of_decodeBytes h, fun r2 => ?_⟩
  rcases decodeBytes_of_opcodeLength h r2 with ⟨hshort, e⟩ | ⟨hlong, i2, e⟩
  · exact ⟨fun _ => e, fun hlong => absurd hlong (by omega)⟩
  · exact ⟨fun hshort => absurd hshort (by omega), fun _ => ⟨i2, e, formatLength_of_decodeBytes e⟩⟩

/-- Settles O4: the rest plays no part, so the map is compared byte by byte with what the byte alone decodes to. -/
theorem invalidOpcodeBytesAreThoseOfTheMap : Obligations.InvalidOpcodeBytesAreThoseOfTheMap := by
  refine ⟨fun op rest => ?_, count_validOpcode⟩
  rw [← decodeBytes_singleton_eq_invalidOpcode_iff]
  exact ⟨invalidOpcode_of_invalidOpcode [], invalidOpcode_of_invalidOpcode rest⟩

/-- Settles O10: FUNC is the code of one job command or of none, and the START runs its job. -/
theorem startRunsTheUnitOfFunc : Obligations.StartRunsTheUnitOfFunc := by
  intro s rest w hb hl hs
  obtain ⟨t, ht, hjob, hnone⟩ := step_start_job rest hb hl hs
  have hunit {i : Instr} {code : BitVec 3} (hc : commandCode i = some code) (hw : w.toNat % 8 = code.toNat) :
      t.job = commandJob i (inputSnapshot s) := by
    have hfunc : code = ctrlFunc w := BitVec.eq_of_toNat_eq (by rw [toNat_ctrlFunc, hw])
    exact hjob i (decodeCtrl_of_commandCode hs (hfunc ▸ hc))
  exact ⟨t, ht, hunit (i := .jobAscii85) rfl, hunit (i := .jobBitflip) rfl, hunit (i := .jobParity) rfl,
    fun h => hnone (decodeCtrl_of_reserved (.inl h)), hunit (i := .jobPacket) rfl, hunit (i := .jobUnwrap) rfl,
    hunit (i := .jobVm) rfl, fun h => hnone (decodeCtrl_of_reserved (.inr h))⟩

/-- Settles O11: a reserved FUNC is no job command, so the write takes the BAD_FUNC fault before IN_LEN is looked at. -/
theorem reservedFuncEndsInBadFunc : Obligations.ReservedFuncEndsInBadFunc := by
  intro s rest w hb hs hw
  have hfunc := toNat_ctrlFunc w
  have hinfo : ((ctrlFunc w).zeroExtend 32).toNat = w.toNat % 8 :=
    (BitVec.toNat_setWidth 32 _).trans (by rw [hfunc]; omega)
  refine ⟨_, step_start_reserved rest hb hs (decodeCtrl_of_reserved hw), ?_, rfl, hfunc, rfl⟩
  exact hinfo ▸ failedWith_jobFault _ _ _

end Sys2Proof.Proofs
end

section
/-! SUPPORT. The ASCII85 scan by the class of its next byte (40_ascii85.md R150–R155), and the output it comes to with the
offsets left out: whether a text is accepted, and what it decodes to, does not depend on them. -/

namespace Sys2Proof.Machine

open Sys2Proof.Safety

theorem charClass_eq_tilde_iff {b : Byte} : charClass b = .tilde ↔ b = 0x7E := by
  refine ⟨fun h => ?_, fun h => by rw [h]; decide⟩
  simp only [charClass] at h
  split_ifs at h with _ _ hn
  exact BitVec.eq_of_toNat_eq hn

theorem charClass_eq_zero_iff {b : Byte} : charClass b = .zero ↔ b = 0x7A := by
  refine ⟨fun h => ?_, fun h => by rw [h]; decide⟩
  simp only [charClass] at h
  split_ifs at h with _ hn
  exact BitVec.eq_of_toNat_eq hn

theorem charClass_eq_alpha_of_le {b : Byte} (h : 0x21 ≤ b.toNat ∧ b.toNat ≤ 0x75) : charClass b = .alpha := by
  simp [charClass, h]

/-! ### Groups -/

/-- What the group in progress decodes to; nothing collected decodes to nothing (R155). -/
def pendingOutput (g : List Byte) : Option (List Byte) :=
  if g = [] then some [] else (Token.group g).output

@[simp] theorem pendingOutput_nil : pendingOutput [] = some [] := rfl

theorem pendingOutput_of_ne_nil {g : List Byte} (hg : g ≠ []) : pendingOutput g = (Token.group g).output := by
  simp [pendingOutput, hg]

theorem output_group_eq_some {g x : List Byte} (h : (Token.group g).output = some x) :
    groupValue g ≤ 0xFFFFFFFF ∧ x = (toBe (groupValue g) 4).take (g.length - 1) := by
  simpa [Token.output, eq_comm] using h

theorem output_group_eq_none_iff (g : List Byte) : (Token.group g).output = none ↔ 0xFFFFFFFF < groupValue g := by
  simp [Token.output]

theorem decodeGroup_eq (g : List Byte) (p : Nat) :
    decodeGroup g p = (Token.group g).output.elim (.err .a85Overflow p) .ok := by
  by_cases h : groupValue g ≤ 0xFFFFFFFF
  · simp [decodeGroup, Token.output, h, Nat.not_lt.mpr h]
  · simp [decodeGroup, Token.output, h, Nat.lt_of_not_le h]

theorem closeGroup_eq (g : List Byte) (p : Nat) :
    closeGroup g p = (pendingOutput g).elim (.err .a85Overflow p) .ok := by
  by_cases hg : g = []
  · simp [closeGroup, hg]
  · simp [closeGroup, pendingOutput, hg, decodeGroup_eq]

/-! ### The scan by class -/

section scanCons
variable {mode : A85Ws} {b : Byte} {g : List Byte} (t : List Byte) (i p : Nat) (out : List Byte)

theorem a85Scan_end (mode : A85Ws) (g : List Byte) :
    a85Scan mode [] i g p out = (pendingOutput g).elim (.err .a85Overflow p) fun _ => .err .a85ParseError i := by
  rw [a85Scan_nil, a85NoEnd, closeGroup_eq]
  cases pendingOutput g <;> rfl

theorem a85Scan_fifth (hb : charClass b = .alpha) (hg : g.length = 4) :
    a85Scan mode (b :: t) i g p out = (Token.group (g ++ [b])).output.elim (.err .a85Overflow p) fun x =>
      a85Scan mode t (i + 1) [] i (out ++ x) := by
  have hne : g ≠ [] := by rintro rfl; cases hg
  simp only [a85Scan, a85Step, hb, if_pos hg, if_neg hne, decodeGroup_eq]
  cases (Token.group (g ++ [b])).output <;> rfl

theorem a85Scan_alpha (hb : charClass b = .alpha) (hg : g.length ≠ 4) :
    a85Scan mode (b :: t) i g p out = a85Scan mode t (i + 1) (g ++ [b]) (if g = [] then i else p) out :=
  a85Scan_of_go (by simp [a85Step, hb, hg])

theorem a85Scan_zero (hb : charClass b = .zero) :
    a85Scan mode (b :: t) i g p out = (pendingOutput g).elim (.err .a85Overflow p) fun x =>
      a85Scan mode t (i + 1) [] i (out ++ x ++ [0, 0, 0, 0]) := by
  simp only [a85Scan, a85Step, hb, closeGroup_eq]
  cases pendingOutput g <;> rfl

theorem a85Scan_skipped (hb : charClass b = .ws) (hg : g ≠ []) :
    a85Scan .skip (b :: t) i g p out = a85Scan .skip t (i + 1) g p out :=
  a85Scan_of_go (by simp [a85Step, hb, hg])

theorem a85Scan_ws (hb : charClass b = .ws) (hm : ¬(mode = .skip ∧ g ≠ [])) :
    a85Scan mode (b :: t) i g p out = (pendingOutput g).elim (.err .a85Overflow p) fun x =>
      a85Scan mode t (i + 1) [] i (out ++ x) := by
  simp only [a85Scan, a85Step, hb, if_neg hm, closeGroup_eq]
  cases pendingOutput g <;> rfl

theorem a85Scan_tilde (hb : charClass b = .tilde) :
    a85Scan mode (b :: t) i g p out = (pendingOutput g).elim (.err .a85Overflow p) fun x =>
      a85EndMarker i (out ++ x) t := by
  simp only [a85Scan, a85Step, hb, closeGroup_eq]
  cases pendingOutput g <;> rfl

theorem a85Scan_other (hb : charClass b = .other) :
    a85Scan mode (b :: t) i g p out = (pendingOutput g).elim (.err .a85Overflow p) fun _ =>
      .err .a85InvalidCharacter i := by
  simp only [a85Scan, a85Step, hb, closeGroup_eq]
  cases pendingOutput g <;> rfl

end scanCons

/-! ### The output with the offsets left out -/

/-- After a `~` the text ends: a `>` and white space alone (R151). -/
def endsText : List Byte → Bool
  | [] => false
  | e :: u => decide (e = 0x3E) && u.all fun b => decide (charClass b = .ws)

theorem endsText_iff {t : List Byte} :
    endsText t = true ↔ ∃ trail, t = 0x3E :: trail ∧ ∀ b ∈ trail, charClass b = .ws := by
  cases t <;> simp [endsText]

theorem a85Trailing_eq_ok_iff {t out r : List Byte} {i : Nat} :
    a85Trailing t i out = .ok r ↔ (∀ b ∈ t, charClass b = .ws) ∧ out = r := by
  induction t generalizing i with
  | nil => simp [a85Trailing]
  | cons b t ih =>
    rw [a85Trailing]
    split
    · next h => simp [ih, h]
    · next h => simp [h]

theorem a85EndMarker_eq_ok_iff {t out r : List Byte} {i : Nat} :
    a85EndMarker i out t = .ok r ↔ endsText t = true ∧ out = r := by
  cases t with
  | nil => simp [a85EndMarker, endsText]
  | cons e u =>
    rw [a85EndMarker, endsText]
    split
    · next h => simp [a85Trailing_eq_ok_iff, h]
    · next h => rw [decide_eq_false h]; simp

/-- The output of the rest of a text with the group g in progress, or nothing where the scan ends in an error. -/
def a85Output (mode : A85Ws) : List Byte → List Byte → Option (List Byte)
  | [], _ => none
  | b :: t, g =>
    match charClass b with
    | .alpha =>
      if g.length = 4 then Option.map₂ (· ++ ·) (Token.group (g ++ [b])).output (a85Output mode t [])
      else a85Output mode t (g ++ [b])
    | .zero => Option.map₂ (· ++ ·) (pendingOutput g) (Option.map₂ (· ++ ·) Token.z.output (a85Output mode t []))
    | .ws =>
      if mode = .skip ∧ g ≠ [] then a85Output mode t g
      else Option.map₂ (· ++ ·) (pendingOutput g) (a85Output mode t [])
    | .tilde => if endsText t then pendingOutput g else none
    | .other => none

section outputCons
variable {mode : A85Ws} {b : Byte} {g : List Byte} (t : List Byte)

theorem a85Output_fifth (hb : charClass b = .alpha) (hg : g.length = 4) :
    a85Output mode (b :: t) g = Option.map₂ (· ++ ·) (Token.group (g ++ [b])).output (a85Output mode t []) := by
  simp [a85Output, hb, hg]

theorem a85Output_alpha (hb : charClass b = .alpha) (hg : g.length ≠ 4) :
    a85Output mode (b :: t) g = a85Output mode t (g ++ [b]) := by
  simp [a85Output, hb, hg]

theorem a85Output_zero (hb : charClass b = .zero) :
    a85Output mode (b :: t) g =
      Option.map₂ (· ++ ·) (pendingOutput g) (Option.map₂ (· ++ ·) Token.z.output (a85Output mode t [])) := by
  simp [a85Output, hb]

theorem a85Output_skipped (hb : charClass b = .ws) (hg : g ≠ []) :
    a85Output .skip (b :: t) g = a85Output .skip t g := by
  simp [a85Output, hb, hg]

theorem a85Output_ws (hb : charClass b = .ws) (hm : ¬(mode = .skip ∧ g ≠ [])) :
    a85Output mode (b :: t) g = Option.map₂ (· ++ ·) (pendingOutput g) (a85Output mode t []) := by
  simp only [a85Output, hb]
  rw [if_neg hm]

theorem a85Output_tilde (hb : charClass b = .tilde) :
    a85Output mode (b :: t) g = if endsText t then pendingOutput g else none := by
  simp [a85Output, hb]

theorem a85Output_other (hb : charClass b = .other) : a85Output mode (b :: t) g = none := by
  simp [a85Output, hb]

end outputCons

/-- The scan ends with an output exactly where the text has one, after what it had already put out. -/
theorem a85Scan_eq_ok_iff {mode : A85Ws} {t g out r : List Byte} {i p : Nat} :
    a85Scan mode t i g p out = .ok r ↔ ∃ y, a85Output mode t g = some y ∧ r = out ++ y := by
  induction t generalizing i g p out with
  | nil =>
    rw [a85Scan_end]
    cases pendingOutput g <;> simp [a85Output]
  | cons b t ih =>
    cases hb : charClass b with
    | alpha =>
      by_cases hg : g.length = 4
      · rw [a85Scan_fifth _ _ _ _ hb hg, a85Output_fifth _ hb hg]
        cases (Token.group (g ++ [b])).output <;> simp [ih]
      · rw [a85Scan_alpha _ _ _ _ hb hg, a85Output_alpha _ hb hg, ih]
    | zero =>
      rw [a85Scan_zero _ _ _ _ hb, a85Output_zero _ hb]
      cases pendingOutput g <;> simp [ih, Token.output]
    | ws =>
      by_cases hm : mode = .skip ∧ g ≠ []
      · obtain ⟨rfl, hg⟩ := hm
        rw [a85Scan_skipped _ _ _ _ hb hg, a85Output_skipped _ hb hg, ih]
      · rw [a85Scan_ws _ _ _ _ hb hm, a85Output_ws _ hb hm]
        cases pendingOutput g <;> simp [ih]
    | tilde =>
      rw [a85Scan_tilde _ _ _ _ hb, a85Output_tilde _ hb]
      cases pendingOutput g <;> simp [a85EndMarker_eq_ok_iff, eq_comm (a := r)]
    | other =>
      rw [a85Scan_other _ _ _ _ hb, a85Output_other _ hb]
      cases pendingOutput g <;> simp

/-! ### The start marker -/

theorem fAscii85_start (mode : A85Ws) (t : List Byte) :
    fAscii85 mode ([0x3C, 0x7E] ++ t) = a85Scan mode t 2 [] 2 [] := by
  simp [fAscii85]

theorem fAscii85_noStart (mode : A85Ws) {text : List Byte} (h : text.take 2 ≠ [0x3C, 0x7E]) :
    fAscii85 mode text = .err .a85ParseError 0 := by
  match text, h with
  | [], _ => rfl
  | [_], _ => rfl
  | c0 :: c1 :: t, h => exact if_neg (by simpa using h)

theorem eq_start_append {text : List Byte} (h : text.take 2 = [0x3C, 0x7E]) :
    text = [0x3C, 0x7E] ++ text.drop 2 := by
  rw [← h, List.take_append_drop]

/-- A text is accepted exactly when it begins with the start marker and the rest of it has an output. -/
theorem fAscii85_start_eq_ok_iff {mode : A85Ws} {t out : List Byte} :
    fAscii85 mode ([0x3C, 0x7E] ++ t) = .ok out ↔ a85Output mode t [] = some out := by
  rw [fAscii85_start, a85Scan_eq_ok_iff]
  simp

theorem fAscii85_eq_ok {mode : A85Ws} {text out : List Byte} (h : fAscii85 mode text = .ok out) :
    ∃ t, text = [0x3C, 0x7E] ++ t ∧ a85Output mode t [] = some out := by
  by_cases hs : text.take 2 = [0x3C, 0x7E]
  · have ht := eq_start_append hs
    exact ⟨_, ht, fAscii85_start_eq_ok_iff.mp (ht ▸ h)⟩
  · cases (fAscii85_noStart mode hs).symm.trans h

end Sys2Proof.Machine
end

section
/-! SUPPORT. Base-85 groups as numbers: the bytes a value begins with (40_ascii85.md R153) and the group an encoder writes
for them. -/

namespace Sys2Proof.Machine

open Sys2Proof.Safety

/-! ### Big-endian strings by position -/

theorem byteAt_toBe (v : Nat) {n k : Nat} (h : k < n) : (byteAt (toBe v n) k).toNat = v / 256 ^ (n - 1 - k) % 256 := by
  induction n generalizing k with
  | zero => omega
  | succ n ih =>
    cases k with
    | zero => simp [byteAt, toBe]
    | succ k =>
      have hk := ih (k := k) (by omega)
      rw [show n + 1 - 1 - (k + 1) = n - 1 - k by omega, ← hk]
      simp [byteAt, toBe]

theorem byteAt_take (l : List Byte) {m k : Nat} (h : k < m) : byteAt (l.take m) k = byteAt l k := by
  simp [byteAt, h]

/-- The first bytes of a value's string are the string of the value without its low bytes. -/
theorem take_toBe (v k m : Nat) : (toBe v (k + m)).take k = toBe (v / 256 ^ m) k := by
  induction k with
  | zero => rfl
  | succ k ih =>
    rw [Nat.add_right_comm, toBe, List.take_succ_cons, ih, toBe, Nat.div_div_eq_div_mul,
      ← Nat.pow_add, Nat.add_comm k m]

/-! ### Group values -/

/-- The value of a group is its digits, padded with 84, read in base 85. -/
theorem groupValue_eq_foldl {g : List Byte} (h1 : 1 ≤ g.length) (h5 : g.length ≤ 5) :
    (g.map (fun x : Byte => x.toNat - 33) ++ List.replicate (5 - g.length) 84).foldl (fun v d => v * 85 + d) 0
      = groupValue g := by
  have hdigits : g.map (fun x : Byte => x.toNat - 33) ++ List.replicate (5 - g.length) 84
      = [groupDigit g 0, groupDigit g 1, groupDigit g 2, groupDigit g 3, groupDigit g 4] := by
    match g, h1, h5 with
    | [_], _, _ | [_, _], _, _ | [_, _, _], _, _ | [_, _, _, _], _, _ | [_, _, _, _, _], _, _ => rfl
  rw [hdigits, groupValue]
  simp only [List.foldl_cons, List.foldl_nil]
  ring

theorem length_output_group {g x : List Byte} (h : (Token.group g).output = some x) :
    x.length = min (g.length - 1) 4 := by
  rw [(output_group_eq_some h).2, List.length_take, length_toBe]

/-! ### The encoder's groups -/

/-- The group an encoder writes for 1 to 4 bytes, padded with zeros. -/
def encodedGroup (bytes : List Byte) : List Byte :=
  (a85Chars (beVal bytes * 256 ^ (4 - bytes.length))).take (bytes.length + 1)

theorem length_encodedGroup {bytes : List Byte} (h : bytes.length ≤ 4) :
    (encodedGroup bytes).length = bytes.length + 1 := by
  simp [encodedGroup, a85Chars, h]

theorem charClass_ofNat_digit {d : Nat} (h : d < 85) : charClass (BitVec.ofNat 8 (d + 33)) = .alpha :=
  charClass_eq_alpha_of_le (by rw [BitVec.toNat_ofNat]; omega)

theorem charClass_of_mem_encodedGroup {bytes : List Byte} : ∀ b ∈ encodedGroup bytes, charClass b = .alpha := by
  intro b hb
  have hmem := List.mem_of_mem_take hb
  simp only [a85Chars, List.mem_cons, List.not_mem_nil, or_false] at hmem
  rcases hmem with rfl | rfl | rfl | rfl | rfl <;> exact charClass_ofNat_digit (Nat.mod_lt _ (by decide))

theorem a85Digit_ofNat {d : Nat} (h : d < 85) : a85Digit (BitVec.ofNat 8 (d + 33)) = d := by
  rw [a85Digit, BitVec.toNat_ofNat]
  omega

/-- Cutting the last digits off a value and padding with 84 rounds it up to the next value that ends so. -/
theorem groupValue_take_a85Chars {v k : Nat} (hv : v < 85 ^ 5) (h1 : 1 ≤ k) (h4 : k ≤ 4) :
    groupValue ((a85Chars v).take (k + 1)) = v / 85 ^ (4 - k) * 85 ^ (4 - k) + (85 ^ (4 - k) - 1) := by
  have hd (n : Nat) : a85Digit (BitVec.ofNat 8 (n % 85 + 33)) = n % 85 := a85Digit_ofNat (Nat.mod_lt _ (by decide))
  interval_cases k <;> simp [groupValue, groupDigit, a85Chars, byteAt, hd] <;> omega

/-- The rounding of a cut group stays below the next value of its first bytes, so they come back. -/
theorem output_encodedGroup {bytes : List Byte} (h1 : 1 ≤ bytes.length) (h4 : bytes.length ≤ 4) :
    (Token.group (encodedGroup bytes)).output = some bytes := by
  have hlt := beVal_lt bytes
  have hback := toBe_beVal bytes
  have hlen := length_encodedGroup h4
  generalize hk : bytes.length = k at *
  have hcut : groupValue (encodedGroup bytes) ≤ 0xFFFFFFFF ∧
      groupValue (encodedGroup bytes) / 256 ^ (4 - k) = beVal bytes := by
    rw [encodedGroup, hk, groupValue_take_a85Chars _ h1 h4]
    · interval_cases k <;> omega
    · interval_cases k <;> omega
  have htake := take_toBe (groupValue (encodedGroup bytes)) k (4 - k)
  rw [Nat.add_sub_cancel' h4, hcut.2, hback] at htake
  rw [Token.output, if_pos hcut.1, hlen, Nat.add_sub_cancel, htake]

theorem a85Encode_cons4 (b0 b1 b2 b3 : Byte) (t : List Byte) :
    a85Encode (b0 :: b1 :: b2 :: b3 :: t) = encodedGroup [b0, b1, b2, b3] ++ a85Encode t := by
  simp [a85Encode, encodedGroup, a85Chars]

/-- A last group of fewer than four bytes is the group of those bytes. -/
theorem a85Encode_short {bytes : List Byte} (h1 : 1 ≤ bytes.length) (h3 : bytes.length ≤ 3) :
    a85Encode bytes = encodedGroup bytes := by
  match bytes, h1, h3 with
  | [b0], _, _ | [b0, b1], _, _ | [b0, b1, b2], _, _ => simp [a85Encode, encodedGroup, beVal, Nat.add_mul, Nat.mul_assoc]

end Sys2Proof.Machine
end

section
/-! SUPPORT. The output of a text of tokens (40_ascii85.md R151): runs of characters, payloads with white space in them,
the encoder's text, and the tokens an accepted text is made of. -/

namespace Sys2Proof.Machine

open Sys2Proof.Safety

/-! ### Runs of characters -/

/-- Characters that do not complete a group are collected. -/
theorem a85Output_collects (mode : A85Ws) (t : List Byte) {g h : List Byte} (hh : ∀ b ∈ h, charClass b = .alpha)
    (hl : g.length + h.length ≤ 4) : a85Output mode (h ++ t) g = a85Output mode t (g ++ h) := by
  induction h generalizing g with
  | nil => simp
  | cons b h ih =>
    obtain ⟨hb, hh⟩ := List.forall_mem_cons.mp hh
    rw [List.length_cons] at hl
    rw [List.cons_append, a85Output_alpha _ hb (by omega), ih hh (by simp; omega), List.append_assoc,
      List.singleton_append]

/-- Five characters are a whole group. -/
theorem a85Output_group (mode : A85Ws) (t : List Byte) {g : List Byte} (hg : ∀ b ∈ g, charClass b = .alpha)
    (hl : g.length = 5) :
    a85Output mode (g ++ t) [] = Option.map₂ (· ++ ·) (Token.group g).output (a85Output mode t []) := by
  obtain rfl | ⟨h, b, rfl⟩ := g.eq_nil_or_concat
  · cases hl
  · simp only [List.concat_eq_append, List.mem_append, List.mem_singleton, List.length_append,
      List.length_singleton] at hg hl ⊢
    rw [List.append_assoc, a85Output_collects mode _ (fun c hc => hg c (.inl hc)) (by simp; omega), List.nil_append,
      List.singleton_append, a85Output_fifth _ (hg b (.inr rfl)) (by omega)]

/-- With SPLIT a byte that is no character ends the group in progress. -/
theorem a85Output_split_close {b : Byte} (t g : List Byte) (hb : charClass b ≠ .alpha) :
    a85Output .split (b :: t) g = Option.map₂ (· ++ ·) (pendingOutput g) (a85Output .split (b :: t) []) := by
  cases hc : charClass b with
  | alpha => exact absurd hc hb
  | zero => simp [a85Output_zero _ hc]
  | ws => simp [a85Output_ws _ hc]
  | tilde =>
    rw [a85Output_tilde _ hc, a85Output_tilde _ hc]
    split <;> simp
  | other => simp [a85Output_other _ hc]

/-! ### The end marker, and payloads with white space -/

theorem a85Output_endMarker (mode : A85Ws) (trail g : List Byte) (ht : ∀ b ∈ trail, charClass b = .ws) :
    a85Output mode (0x7E :: 0x3E :: trail) g = pendingOutput g := by
  rw [a85Output_tilde _ (by decide), if_pos (endsText_iff.mpr ⟨trail, rfl, ht⟩)]

/-- A `~` before the end marker does not end a text: what follows it is not white space alone. -/
theorem endsText_append_endMarker (payload trail : List Byte) :
    endsText (payload ++ 0x7E :: 0x3E :: trail) = false := by
  cases payload with
  | nil => rfl
  | cons b q =>
    have h : charClass (0x7E : Byte) ≠ .ws := by decide
    rw [List.cons_append, endsText, List.all_append, List.all_cons, decide_eq_false h]
    simp

/-- With SKIP the white space of a payload plays no part (R152). -/
theorem a85Output_skip_eq_split_filter (payload trail g : List Byte) :
    a85Output .skip (payload ++ 0x7E :: 0x3E :: trail) g =
      a85Output .split (payload.filter (fun b => decide (charClass b ≠ .ws)) ++ 0x7E :: 0x3E :: trail) g := by
  induction payload generalizing g with
  | nil => exact (a85Output_tilde _ (by decide)).trans (a85Output_tilde _ (by decide)).symm
  | cons b payload ih =>
    cases hb : charClass b with
    | alpha =>
      rw [List.filter_cons_of_pos (by simp [hb]), List.cons_append, List.cons_append]
      by_cases hg : g.length = 4
      · rw [a85Output_fifth _ hb hg, a85Output_fifth _ hb hg, ih]
      · rw [a85Output_alpha _ hb hg, a85Output_alpha _ hb hg, ih]
    | zero =>
      rw [List.filter_cons_of_pos (by simp [hb]), List.cons_append, List.cons_append, a85Output_zero _ hb,
        a85Output_zero _ hb, ih]
    | ws =>
      rw [List.filter_cons_of_neg (by simp [hb]), List.cons_append, ← ih]
      by_cases hg : g = []
      · rw [a85Output_ws _ hb (fun h => h.2 hg), hg]
        simp
      · rw [a85Output_skipped _ hb hg]
    | tilde =>
      rw [List.filter_cons_of_pos (by simp [hb]), List.cons_append, List.cons_append, a85Output_tilde _ hb,
        a85Output_tilde _ hb, endsText_append_endMarker, endsText_append_endMarker]
    | other =>
      rw [List.filter_cons_of_pos (by simp [hb]), List.cons_append, List.cons_append, a85Output_other _ hb,
        a85Output_other _ hb]

/-! ### The bound of R157 -/

/-- A group in progress has at most one byte of output per character, and every later byte at most four. -/
theorem length_a85Output {mode : A85Ws} {t g y : List Byte} (h : a85Output mode t g = some y) :
    2 ≤ t.length ∧ y.length ≤ 4 * (t.length - 2) + g.length := by
  have hpending {g x : List Byte} (hx : pendingOutput g = some x) : x.length ≤ g.length := by
    by_cases hg : g = []
    · cases hg; cases hx; rfl
    · have hle := length_output_group ((pendingOutput_of_ne_nil hg).symm.trans hx)
      omega
  induction t generalizing g y with
  | nil => cases h
  | cons b t ih =>
    rw [List.length_cons]
    cases hb : charClass b with
    | alpha =>
      by_cases hg : g.length = 4
      · rw [a85Output_fifth _ hb hg, Option.map₂_eq_some_iff] at h
        obtain ⟨x, z, hx, hz, rfl⟩ := h
        have hle := length_output_group hx
        have hrest := ih hz
        simp only [List.length_append, List.length_nil] at hrest ⊢
        omega
      · rw [a85Output_alpha _ hb hg] at h
        have hrest := ih h
        simp only [List.length_append, List.length_singleton] at hrest
        omega
    | zero =>
      rw [a85Output_zero _ hb, Option.map₂_eq_some_iff] at h
      obtain ⟨x, z, hx, hz, rfl⟩ := h
      obtain ⟨zeros, w, hzeros, hw, rfl⟩ := Option.map₂_eq_some_iff.mp hz
      cases hzeros
      have hle := hpending hx
      have hrest := ih hw
      simp only [List.length_append, List.length_cons, List.length_nil] at hrest ⊢
      omega
    | ws =>
      by_cases hm : mode = .skip ∧ g ≠ []
      · obtain ⟨rfl, hg⟩ := hm
        rw [a85Output_skipped _ hb hg] at h
        have hrest := ih h
        omega
      · rw [a85Output_ws _ hb hm, Option.map₂_eq_some_iff] at h
        obtain ⟨x, z, hx, hz, rfl⟩ := h
        have hle := hpending hx
        have hrest := ih hz
        simp only [List.length_append, List.length_nil] at hrest ⊢
        omega
    | tilde =>
      rw [a85Output_tilde _ hb, Option.ite_none_right_eq_some] at h
      obtain ⟨hend, hx⟩ := h
      obtain ⟨trail, rfl, _⟩ := endsText_iff.mp hend
      have hle := hpending hx
      simp only [List.length_cons]
      omega
    | other =>
      rw [a85Output_other _ hb] at h
      cases h

/-! ### The encoder's text -/

theorem a85Output_encode_short (mode : A85Ws) {bytes : List Byte} (h1 : 1 ≤ bytes.length) (h3 : bytes.length ≤ 3) :
    a85Output mode (a85Encode bytes ++ [0x7E, 0x3E]) [] = some bytes := by
  have hlen := length_encodedGroup (show bytes.length ≤ 4 by omega)
  have hne : encodedGroup bytes ≠ [] := by
    rw [← List.length_pos_iff]
    omega
  rw [a85Encode_short h1 h3, a85Output_collects mode _ charClass_of_mem_encodedGroup (by simp; omega),
    List.nil_append, a85Output_endMarker mode [] _ (by simp), pendingOutput_of_ne_nil hne,
    output_encodedGroup h1 (by omega)]

/-- The encoder's text decodes to the bytes it was made of, in both modes: there is no white space in it. -/
theorem a85Output_encode (mode : A85Ws) (bytes : List Byte) :
    a85Output mode (a85Encode bytes ++ [0x7E, 0x3E]) [] = some bytes := by
  induction bytes using a85Encode.induct with
  | case1 b0 b1 b2 b3 t ih =>
    rw [a85Encode_cons4, List.append_assoc,
      a85Output_group mode _ charClass_of_mem_encodedGroup (length_encodedGroup (by simp)),
      output_encodedGroup (by simp) (by simp), ih]
    rfl
  | case2 | case3 | case4 => exact a85Output_encode_short mode (by simp) (by simp)
  | case5 => exact a85Output_endMarker mode [] [] (by simp)

/-! ### The tokens of a text -/

theorem tokensOutput_cons (k : Token) (ts : List Token) :
    tokensOutput (k :: ts) = Option.map₂ (· ++ ·) k.output (tokensOutput ts) := by
  rw [tokensOutput]
  cases k.output <;> cases tokensOutput ts <;> rfl

/-- After a group that could take more characters, the text goes on with a byte that is none. -/
theorem exists_cons_of_munched {g trail : List Byte} {ts : List Token} (hl : g.length ≠ 5)
    (hm : munched (.group g :: ts) = true) (hok : ∀ k ∈ ts, Token.ok k = true) :
    ∃ b t, ts.flatMap Token.bytes ++ 0x7E :: 0x3E :: trail = b :: t ∧ charClass b ≠ .alpha := by
  match ts, hm, hok with
  | [], _, _ => exact ⟨0x7E, _, rfl, by decide⟩
  | .z :: ts, _, _ => exact ⟨0x7A, _, rfl, by decide⟩
  | .ws b :: ts, _, hok =>
    have hb : charClass b = .ws := by simpa [Token.ok] using hok (.ws b) (List.mem_cons_self ..)
    exact ⟨b, _, rfl, by rw [hb]; decide⟩
  | .group h :: ts, hm, _ => simp [munched, hl] at hm

theorem munched_tail {k : Token} {ts : List Token} (h : munched (k :: ts) = true) : munched ts = true := by
  unfold munched at h
  split at h
  · next heq => cases heq; exact (Bool.and_eq_true_iff.mp h).2
  · next heq => cases heq; exact h
  · next heq => cases heq

/-- With SPLIT the tokens of a text give its output. -/
theorem a85Output_flatMap_bytes {tokens : List Token} {trail : List Byte} (hok : ∀ k ∈ tokens, Token.ok k = true)
    (hm : munched tokens = true) (ht : ∀ b ∈ trail, charClass b = .ws) :
    a85Output .split (tokens.flatMap Token.bytes ++ 0x7E :: 0x3E :: trail) [] = tokensOutput tokens := by
  induction tokens with
  | nil => exact a85Output_endMarker _ trail [] ht
  | cons k ts ih =>
    obtain ⟨hk, hts⟩ := List.forall_mem_cons.mp hok
    have hrest := ih hts (munched_tail hm)
    rw [tokensOutput_cons, ← hrest, List.flatMap_cons, List.append_assoc]
    cases k with
    | ws b =>
      have hb : charClass b = .ws := by simpa [Token.ok] using hk
      exact a85Output_ws _ hb (by simp)
    | z => exact (a85Output_zero _ (by decide)).trans (by simp)
    | group g =>
      simp only [Token.ok, Bool.and_eq_true, decide_eq_true_eq, List.all_eq_true] at hk
      obtain ⟨⟨hpos, hle⟩, hg⟩ := hk
      by_cases hl : g.length = 5
      · exact a85Output_group _ _ hg hl
      · have hne : g ≠ [] := List.length_pos_iff.mp hpos
        obtain ⟨b, t, he, hb⟩ := exists_cons_of_munched (trail := trail) hl hm hts
        rw [Token.bytes, a85Output_collects _ _ hg (by simp; omega), he, a85Output_split_close t _ hb,
          List.nil_append, pendingOutput_of_ne_nil hne]

/-- The group in progress as tokens: none, or one. -/
def pendingTokens (g : List Byte) : List Token :=
  if g = [] then [] else [.group g]

theorem flatMap_bytes_pendingTokens (g : List Byte) : (pendingTokens g).flatMap Token.bytes = g := by
  by_cases hg : g = [] <;> simp [pendingTokens, hg, Token.bytes]

theorem ok_of_mem_pendingTokens {g : List Byte} (hl : g.length ≤ 4) (hg : ∀ b ∈ g, charClass b = .alpha) :
    ∀ k ∈ pendingTokens g, Token.ok k = true := by
  by_cases hne : g = []
  · simp [pendingTokens, hne]
  · have hpos := List.length_pos_iff.mpr hne
    simp only [pendingTokens, hne, if_false, List.mem_singleton, forall_eq, Token.ok, Bool.and_eq_true,
      decide_eq_true_eq, List.all_eq_true]
    exact ⟨⟨hpos, by omega⟩, hg⟩

theorem munched_pendingTokens_append {k : Token} (g : List Byte) (ts : List Token) (hk : ∀ h, k ≠ .group h) :
    munched (pendingTokens g ++ k :: ts) = munched ts := by
  cases k with
  | group h => exact absurd rfl (hk h)
  | _ => by_cases hg : g = [] <;> simp [pendingTokens, hg, munched]

theorem munched_pendingTokens (g : List Byte) : munched (pendingTokens g) = true := by
  by_cases hg : g = [] <;> simp [pendingTokens, hg, munched]

theorem munched_cons_group {g : List Byte} (ts : List Token) (hl : g.length = 5) :
    munched (.group g :: ts) = munched ts := by
  cases ts with
  | nil => rfl
  | cons k ts => cases k <;> simp [munched, hl]

theorem tokensOutput_pendingTokens_append (g : List Byte) (ts : List Token) :
    tokensOutput (pendingTokens g ++ ts) = Option.map₂ (· ++ ·) (pendingOutput g) (tokensOutput ts) := by
  by_cases hg : g = []
  · simp [pendingTokens, hg]
  · simp [pendingTokens, pendingOutput, hg, tokensOutput_cons]

/-- What the grammar asks of the part of a text after its start marker. -/
structure IsParse (tokens : List Token) (trail text out : List Byte) : Prop where
  text_eq : text = tokens.flatMap Token.bytes ++ 0x7E :: 0x3E :: trail
  ok : ∀ k ∈ tokens, Token.ok k = true
  munched_eq : munched tokens = true
  trail_ws : ∀ b ∈ trail, charClass b = .ws
  output : tokensOutput tokens = some out

theorem isParse_end {g trail x : List Byte} (hl : g.length ≤ 4) (hg : ∀ b ∈ g, charClass b = .alpha)
    (hx : pendingOutput g = some x) (ht : ∀ b ∈ trail, charClass b = .ws) :
    IsParse (pendingTokens g) trail (g ++ 0x7E :: 0x3E :: trail) x where
  text_eq := by rw [flatMap_bytes_pendingTokens]
  ok := ok_of_mem_pendingTokens hl hg
  munched_eq := munched_pendingTokens g
  trail_ws := ht
  output := by
    have h := tokensOutput_pendingTokens_append g []
    rw [List.append_nil] at h
    simp [h, hx, tokensOutput]

/-- A group in progress, then a token that is no group, before what is parsed. -/
theorem IsParse.cons {tokens : List Token} {g trail t x z y : List Byte} {k : Token} (h : IsParse tokens trail t y)
    (hl : g.length ≤ 4) (hg : ∀ b ∈ g, charClass b = .alpha) (hx : pendingOutput g = some x)
    (hk : ∀ h, k ≠ .group h) (hok : k.ok = true) (hz : k.output = some z) :
    IsParse (pendingTokens g ++ k :: tokens) trail (g ++ (k.bytes ++ t)) (x ++ (z ++ y)) where
  text_eq := by simp [flatMap_bytes_pendingTokens, h.text_eq]
  ok := List.forall_mem_append.mpr ⟨ok_of_mem_pendingTokens hl hg, List.forall_mem_cons.mpr ⟨hok, h.ok⟩⟩
  munched_eq := by rw [munched_pendingTokens_append g tokens hk, h.munched_eq]
  trail_ws := h.trail_ws
  output := by simp [tokensOutput_pendingTokens_append, tokensOutput_cons, hx, hz, h.output]

/-- A group of five before what is parsed. -/
theorem IsParse.cons_group {tokens : List Token} {g trail t x y : List Byte} (h : IsParse tokens trail t y)
    (hl : g.length = 5) (hg : ∀ b ∈ g, charClass b = .alpha) (hx : (Token.group g).output = some x) :
    IsParse (.group g :: tokens) trail (g ++ t) (x ++ y) where
  text_eq := by simp [Token.bytes, h.text_eq]
  ok := List.forall_mem_cons.mpr ⟨by simpa [Token.ok, hl] using hg, h.ok⟩
  munched_eq := by rw [munched_cons_group tokens hl, h.munched_eq]
  trail_ws := h.trail_ws
  output := by simp [tokensOutput_cons, hx, h.output]

/-- With SPLIT what has an output is parsed, the group in progress being its first characters. -/
theorem exists_isParse {t g y : List Byte} (hl : g.length ≤ 4) (hg : ∀ b ∈ g, charClass b = .alpha)
    (h : a85Output .split t g = some y) : ∃ tokens trail, IsParse tokens trail (g ++ t) y := by
  have hnil : ∀ b ∈ ([] : List Byte), charClass b = .alpha := by simp
  induction t generalizing g y with
  | nil => cases h
  | cons b t ih =>
    cases hb : charClass b with
    | alpha =>
      have hgb : ∀ c ∈ g ++ [b], charClass c = .alpha := List.forall_mem_append.mpr ⟨hg, by simpa using hb⟩
      rw [List.append_cons]
      by_cases h4 : g.length = 4
      · rw [a85Output_fifth _ hb h4, Option.map₂_eq_some_iff] at h
        obtain ⟨x, z, hx, hz, rfl⟩ := h
        obtain ⟨tokens, trail, hp⟩ := ih (by simp) hnil hz
        exact ⟨_, trail, hp.cons_group (by simp [h4]) hgb hx⟩
      · rw [a85Output_alpha _ hb h4] at h
        exact ih (by simp; omega) hgb h
    | zero =>
      rw [a85Output_zero _ hb, Option.map₂_eq_some_iff] at h
      obtain ⟨x, w, hx, hw, rfl⟩ := h
      obtain ⟨z, y, hz, hy, rfl⟩ := Option.map₂_eq_some_iff.mp hw
      obtain ⟨tokens, trail, hp⟩ := ih (by simp) hnil hy
      rw [charClass_eq_zero_iff.mp hb]
      exact ⟨_, trail, hp.cons (k := .z) hl hg hx (by simp) rfl hz⟩
    | ws =>
      rw [a85Output_ws _ hb (by simp), Option.map₂_eq_some_iff] at h
      obtain ⟨x, y, hx, hy, rfl⟩ := h
      obtain ⟨tokens, trail, hp⟩ := ih (by simp) hnil hy
      exact ⟨_, trail, hp.cons (k := .ws b) hl hg hx (by simp) (by simp [Token.ok, hb]) rfl⟩
    | tilde =>
      rw [a85Output_tilde _ hb, Option.ite_none_right_eq_some] at h
      obtain ⟨hend, hx⟩ := h
      obtain ⟨trail, rfl, ht⟩ := endsText_iff.mp hend
      rw [charClass_eq_tilde_iff.mp hb]
      exact ⟨_, trail, isParse_end hl hg hx ht⟩
    | other =>
      rw [a85Output_other _ hb] at h
      cases h

theorem a85Text_eq (tokens : List Token) (trail : List Byte) :
    a85Text tokens trail = [0x3C, 0x7E] ++ (tokens.flatMap Token.bytes ++ 0x7E :: 0x3E :: trail) := by
  simp [a85Text]

end Sys2Proof.Machine
end

section
/-! The ASCII85 unit (40_ascii85.md). -/

open Sys2Proof.Machine Sys2Proof.Safety

namespace Sys2Proof.Proofs

/-- Settles O39: the model's group value is the padded digits in base 85, and its bytes are read off it by position. -/
theorem groupDecodesItsLeadingBytes : Obligations.GroupDecodesItsLeadingBytes := by
  intro g p h1 h5 digits value
  have hv : value = groupValue g := groupValue_eq_foldl h1 h5
  rw [hv, decodeGroup_eq]
  refine ⟨fun hover => ?_, fun hfits => ?_⟩
  · rw [(output_group_eq_none_iff g).mpr hover]
    rfl
  · refine ⟨(toBe (groupValue g) 4).take (g.length - 1), by simp [Token.output, hfits], ?_, fun k hk => ?_⟩
    · rw [List.length_take, length_toBe]
      omega
    · rw [byteAt_take _ hk, byteAt_toBe _ (by omega)]

/-- Settles O40: the tokens of a text give its output, and an output comes from the tokens read off the scan. -/
theorem ascii85AcceptsExactlyTheGrammar : Obligations.Ascii85AcceptsExactlyTheGrammar := by
  intro text out
  constructor
  · intro h
    obtain ⟨t, rfl, hout⟩ := fAscii85_eq_ok h
    obtain ⟨tokens, trail, hp⟩ := exists_isParse (by simp) (by simp) hout
    exact ⟨tokens, trail, by rw [a85Text_eq, ← hp.text_eq]; rfl, hp.ok, hp.munched_eq, hp.trail_ws, hp.output⟩
  · rintro ⟨tokens, trail, rfl, hok, hm, ht, hout⟩
    rw [a85Text_eq, fAscii85_start_eq_ok_iff, a85Output_flatMap_bytes hok hm ht, hout]

/-- Settles O41: byte by byte the two scans of the payload come to the same output. -/
theorem skipModeReadsThroughWhiteSpace : Obligations.SkipModeReadsThroughWhiteSpace := by
  intro payload trail out _
  simp only [List.append_assoc]
  rw [fAscii85_start_eq_ok_iff, fAscii85_start_eq_ok_iff]
  exact iff_of_eq (congrArg (· = some out) (a85Output_skip_eq_split_filter payload trail []))

/-- Settles O42: the job's input is the written text, and the text decodes to the bytes in both modes. -/
theorem ascii85JobUndoesTheEncoder : Obligations.Ascii85JobUndoesTheEncoder := by
  intro s bytes hb hh hp hin hl hfit
  have hresult (mode : A85Ws) : fAscii85 mode ([0x3C, 0x7E] ++ a85Encode bytes ++ [0x7E, 0x3E]) = .ok bytes := by
    rw [List.append_assoc, fAscii85_start_eq_ok_iff, a85Output_encode]
  generalize [0x3C, 0x7E] ++ a85Encode bytes ++ [0x7E, 0x3E] = text at hin hresult
  have hstart := startJob_of_fits 0 (commandJob .jobAscii85) hb hl
  rw [inputSnapshot_of_hostWrote hin] at hstart
  obtain ⟨u, hu, hdone, _⟩ := unitJobEndsWithItsResult (startJob 0 (commandJob .jobAscii85) s) .ascii85 text
    (by rw [hstart]; rfl) (by rw [hstart]; exact hh) (by rw [hstart]; exact hp)
  exact ⟨_, u, exec_command rfl s, by rw [hstart], hu, hdone bytes (hresult _) (by rw [hstart]; exact hfit)⟩

/-- Settles O43, from the bound on the output of any rest of a text. -/
theorem ascii85OutputLengthBound : Obligations.Ascii85OutputLengthBound := by
  intro mode text out h
  obtain ⟨t, rfl, hout⟩ := fAscii85_eq_ok h
  have hlen := length_a85Output hout
  simp only [List.length_append, List.length_cons, List.length_nil] at hlen ⊢
  omega

end Sys2Proof.Proofs
end

section
/-! SUPPORT. The first fault of the ASCII85 scan (40_ascii85.md R155, R156): the scan of a text comes to the result of the
one offset that is in the payload still and has a fault. -/

namespace Sys2Proof.Machine

open Sys2Proof.Safety

/-! ### A text from an offset on -/

section atOffset
variable {text t : List Byte} {b : Byte} {i : Nat}

theorem getElem?_of_drop (h : text.drop i = b :: t) : text[i]? = some b := by
  have hget := List.getElem?_drop (xs := text) (i := i) (j := 0)
  simpa [h] using hget.symm

theorem byteAt_of_getElem? (h : text[i]? = some b) : byteAt text i = b := by
  simp [byteAt, h]

theorem lt_length_of_getElem? (h : text[i]? = some b) : i < text.length :=
  (List.getElem?_eq_some_iff.mp h).1

theorem getElem?_of_lt_length (h : i < text.length) : text[i]? = some (byteAt text i) := by
  simp [byteAt, h]

theorem drop_succ_of_drop (h : text.drop i = b :: t) : text.drop (i + 1) = t := by
  rw [← List.tail_drop, h, List.tail_cons]

/-- The payload before an offset, last byte first, grows by the byte at the offset. -/
theorem reverse_before_succ (h : text[i]? = some b) (hi : 2 ≤ i) :
    ((text.take (i + 1)).drop 2).reverse = b :: ((text.take i).drop 2).reverse := by
  have hlen := lt_length_of_getElem? h
  rw [List.take_add_one, h, List.drop_append_of_le_length (by rw [List.length_take]; omega)]
  simp

end atOffset

/-! ### Faults -/

/-- No fault of the payload at this offset: what `scansTo` asks of every offset before its own. -/
def NoFault (mode : A85Ws) (text : List Byte) (m : Nat) : Prop :=
  charClass (byteAt text m) ≠ .tilde ∧ charClass (byteAt text m) ≠ .other ∧
    (startsGroup mode text m → groupValue (groupAt mode text m) ≤ 0xFFFFFFFF)

/-- A fault of the scan at this offset: the end of the input, a `~`, an OTHER byte, a group past 2^32 − 1. -/
inductive FaultAt (mode : A85Ws) (text : List Byte) (k : Nat) : Prop
  | atEnd (h : k = text.length)
  | tilde (h : text[k]?.map charClass = some .tilde)
  | other (h : text[k]?.map charClass = some .other)
  | overflow (h : startsGroup mode text k) (hv : 0xFFFFFFFF < groupValue (groupAt mode text k))

/-- The first fault of the scan. -/
structure FirstFault (mode : A85Ws) (text : List Byte) (k : Nat) : Prop where
  scans : scansTo mode text k
  fault : FaultAt mode text k

/-- What the scan ends with at the fault at k, with the output so far. -/
def faultResult (text : List Byte) (k : Nat) (out : List Byte) : UnitResult :=
  match text[k]?.map charClass with
  | none => .err .a85ParseError k
  | some .tilde => a85EndMarker k out (text.drop (k + 1))
  | some .other => .err .a85InvalidCharacter k
  | some _ => .err .a85Overflow k

theorem faultResult_length (text out : List Byte) :
    faultResult text text.length out = .err .a85ParseError text.length := by
  simp [faultResult]

theorem faultResult_tilde {text : List Byte} {k : Nat} (out : List Byte)
    (h : text[k]?.map charClass = some .tilde) :
    faultResult text k out = a85EndMarker k out (text.drop (k + 1)) := by
  rw [faultResult, h]

theorem faultResult_other {text : List Byte} {k : Nat} (out : List Byte)
    (h : text[k]?.map charClass = some .other) : faultResult text k out = .err .a85InvalidCharacter k := by
  rw [faultResult, h]

theorem faultResult_overflow {mode : A85Ws} {text : List Byte} {k : Nat} (out : List Byte)
    (h : startsGroup mode text k) : faultResult text k out = .err .a85Overflow k := by
  rw [faultResult, h.1]

/-- An offset of the input has a fault or has none. -/
theorem not_faultAt_of_noFault {mode : A85Ws} {text : List Byte} {k : Nat} (hk : k < text.length)
    (h : NoFault mode text k) : ¬ FaultAt mode text k := by
  obtain ⟨htilde, hother, hfits⟩ := h
  have hget := getElem?_of_lt_length hk
  intro hf
  cases hf with
  | atEnd he => omega
  | tilde ht => exact htilde (by simpa [hget] using ht)
  | other ho => exact hother (by simpa [hget] using ho)
  | overflow hs hv => exact absurd (hfits hs) (Nat.not_le.mpr hv)

theorem FirstFault.unique {mode : A85Ws} {text : List Byte} {j k : Nat} (hj : FirstFault mode text j)
    (hk : FirstFault mode text k) : j = k := by
  have hle {j k : Nat} (hj : FirstFault mode text j) (hk : FirstFault mode text k) : k ≤ j := by
    obtain ⟨_, hlen, hclean⟩ := hk.scans
    by_contra hlt
    exact not_faultAt_of_noFault (by omega) (hclean j hj.scans.1 (by omega)) hj.fault
  exact Nat.le_antisymm (hle hk hj) (hle hj hk)

/-- A byte of the payload that is no fault by its class and starts no group. -/
theorem noFault_of_getElem? {mode : A85Ws} {text : List Byte} {m : Nat} {b : Byte} (h : text[m]? = some b)
    (ht : charClass b ≠ .tilde) (ho : charClass b ≠ .other) (hs : ¬ startsGroup mode text m) :
    NoFault mode text m := by
  rw [NoFault, byteAt_of_getElem? h]
  exact ⟨ht, ho, fun hstart => absurd hstart hs⟩

theorem not_startsGroup_of_ne_alpha {mode : A85Ws} {text : List Byte} {m : Nat} {b : Byte} (h : text[m]? = some b)
    (ha : charClass b ≠ .alpha) : ¬ startsGroup mode text m := by
  intro hs
  exact ha (by simpa [h] using hs.1)

/-! ### The scan at an offset -/

/-- What holds when the scan is at offset i with the group g in progress since p: a fault before i can only be that
group's, and the characters of the group are those of the run that starts at p. -/
structure ScanAt (mode : A85Ws) (text : List Byte) (i : Nat) (g : List Byte) (p : Nat) : Prop where
  two_le : 2 ≤ i
  le_length : i ≤ text.length
  clean : ∀ m, 2 ≤ m → m < i → (g ≠ [] → m ≠ p) → NoFault mode text m
  run : (groupRun mode ((text.take i).drop 2).reverse).length % 5 = g.length
  start : g ≠ [] → 2 ≤ p ∧ p < i ∧ startsGroup mode text p
  group : g ≠ [] → groupRun mode (text.drop p) = g ++ groupRun mode (text.drop i)

theorem scanAt_start (mode : A85Ws) {text : List Byte} (h : text.take 2 = [0x3C, 0x7E]) : ScanAt mode text 2 [] 2 where
  two_le := Nat.le_refl 2
  le_length := by
    have hlen := congrArg List.length h
    simp only [List.length_take, List.length_cons, List.length_nil] at hlen
    omega
  clean m h2 hlt := by omega
  run := by simp [h]
  start hg := absurd rfl hg
  group hg := absurd rfl hg

section scanAt
variable {mode : A85Ws} {text t g : List Byte} {b : Byte} {i p : Nat}

/-- A group that does not decode is the first fault. -/
theorem ScanAt.overflow (h : ScanAt mode text i g p) (hg : g ≠ [])
    (hn : (Token.group (groupAt mode text p)).output = none) (out : List Byte) :
    FirstFault mode text p ∧ faultResult text p out = .err .a85Overflow p := by
  obtain ⟨h2, hp, hs⟩ := h.start hg
  refine ⟨⟨⟨h2, ?_, fun m hm hlt => h.clean m hm (by omega) fun _ => by omega⟩, ?_⟩, faultResult_overflow out hs⟩
  · exact Nat.le_trans (Nat.le_of_lt hp) h.le_length
  · exact .overflow hs ((output_group_eq_none_iff _).mp hn)

/-- Once its group has decoded, the scan has found no fault. -/
theorem ScanAt.scansTo_of_decodes (h : ScanAt mode text i g p)
    (hd : g ≠ [] → ∃ x, (Token.group (groupAt mode text p)).output = some x) : scansTo mode text i := by
  refine ⟨h.two_le, h.le_length, fun m h2 hlt => ?_⟩
  by_cases hm : g ≠ [] ∧ m = p
  · obtain ⟨hg, rfl⟩ := hm
    obtain ⟨x, hx⟩ := hd hg
    obtain ⟨_, _, hs⟩ := h.start hg
    have ha : charClass (byteAt text m) = .alpha := by
      have hget := getElem?_of_lt_length (text := text) (i := m) (Nat.lt_of_lt_of_le hlt h.le_length)
      simpa [hget] using hs.1
    exact ⟨by simp [ha], by simp [ha], fun _ => (output_group_eq_some hx).1⟩
  · exact h.clean m h2 hlt fun hg he => hm ⟨hg, he⟩

theorem ScanAt.length_lt (h : ScanAt mode text i g p) : g.length < 5 := by
  rw [← h.run]
  exact Nat.mod_lt _ (by decide)

/-- A group whose run ends here is the group in progress. -/
theorem ScanAt.groupAt_of_end (h : ScanAt mode text i g p) (hg : g ≠ []) (he : groupRun mode (text.drop i) = []) :
    groupAt mode text p = g := by
  have hlen := h.length_lt
  rw [groupAt, h.group hg, he, List.append_nil, List.take_of_length_le (by omega)]

theorem ScanAt.groupAt_of_fifth (h : ScanAt mode text i g p) (hdrop : text.drop i = b :: t)
    (hb : charClass b = .alpha) (hg : g.length = 4) : groupAt mode text p = g ++ [b] := by
  have hne : g ≠ [] := by rintro rfl; cases hg
  rw [groupAt, h.group hne, hdrop, groupRun_cons_alpha mode t hb, List.append_cons,
    List.take_append_of_le_length (by simp [hg]), List.take_of_length_le (by simp [hg])]

/-- Closing the group in progress where its run ends: it is the first fault, or there is none before i. -/
theorem ScanAt.close (h : ScanAt mode text i g p) (he : g ≠ [] → groupRun mode (text.drop i) = []) :
    (pendingOutput g = none ∧ ∀ out, FirstFault mode text p ∧ faultResult text p out = .err .a85Overflow p) ∨
      ∃ x, pendingOutput g = some x ∧ scansTo mode text i := by
  by_cases hg : g = []
  · exact .inr ⟨[], by rw [hg, pendingOutput_nil], h.scansTo_of_decodes fun hne => absurd hg hne⟩
  · have hat := h.groupAt_of_end hg (he hg)
    rw [pendingOutput_of_ne_nil hg, ← hat]
    cases ho : (Token.group (groupAt mode text p)).output with
    | none => exact .inl ⟨rfl, h.overflow hg ho⟩
    | some x => exact .inr ⟨x, rfl, h.scansTo_of_decodes fun _ => ⟨x, ho⟩⟩

/-- With no group left in progress the scan goes on after a byte that is no fault. -/
theorem scanAt_succ_nil (hs : scansTo mode text i) (hb : text[i]? = some b) (hn : NoFault mode text i)
    (hrun : (groupRun mode (b :: ((text.take i).drop 2).reverse)).length % 5 = 0) (q : Nat) :
    ScanAt mode text (i + 1) [] q where
  two_le := Nat.le_succ_of_le hs.1
  le_length := lt_length_of_getElem? hb
  clean m h2 hlt _ := by
    rcases Nat.lt_succ_iff_lt_or_eq.mp hlt with hm | rfl
    · exact hs.2.2 m h2 hm
    · exact hn
  run := by rw [reverse_before_succ hb hs.1, hrun]; rfl
  start hg := absurd rfl hg
  group hg := absurd rfl hg

theorem ScanAt.fifth (h : ScanAt mode text i g p) (hs : scansTo mode text i) (hb : text[i]? = some b)
    (ha : charClass b = .alpha) (hg : g.length = 4) (q : Nat) : ScanAt mode text (i + 1) [] q := by
  have hrun := h.run
  refine scanAt_succ_nil hs hb (noFault_of_getElem? hb (by simp [ha]) (by simp [ha]) fun hstart => ?_) ?_ q
  · have h0 := hstart.2
    omega
  · rw [groupRun_cons_alpha mode _ ha, List.length_cons]
    omega

theorem scanAt_succ_zero (hs : scansTo mode text i) (hb : text[i]? = some b) (hz : charClass b = .zero) (q : Nat) :
    ScanAt mode text (i + 1) [] q := by
  refine scanAt_succ_nil hs hb (noFault_of_getElem? hb (by simp [hz]) (by simp [hz]) ?_) ?_ q
  · exact not_startsGroup_of_ne_alpha hb (by simp [hz])
  · rw [groupRun_cons_end _ (by simp [hz]) (by simp [hz])]
    rfl

theorem ScanAt.ws (h : ScanAt mode text i g p) (hs : scansTo mode text i) (hb : text[i]? = some b)
    (hw : charClass b = .ws) (hm : ¬(mode = .skip ∧ g ≠ [])) (q : Nat) : ScanAt mode text (i + 1) [] q := by
  refine scanAt_succ_nil hs hb (noFault_of_getElem? hb (by simp [hw]) (by simp [hw]) ?_) ?_ q
  · exact not_startsGroup_of_ne_alpha hb (by simp [hw])
  · cases mode with
    | split =>
      rw [groupRun_cons_end _ (by simp [hw]) (by simp)]
      rfl
    | skip =>
      have hg : g = [] := by simpa using hm
      rw [groupRun_skip_cons_ws _ hw, h.run, hg]
      rfl

/-- With SKIP white space leaves the group in progress as it is. -/
theorem ScanAt.skipped (h : ScanAt .skip text i g p) (hdrop : text.drop i = b :: t) (hw : charClass b = .ws)
    (hg : g ≠ []) : ScanAt .skip text (i + 1) g p where
  two_le := Nat.le_succ_of_le h.two_le
  le_length := lt_length_of_getElem? (getElem?_of_drop hdrop)
  clean m h2 hlt hne := by
    rcases Nat.lt_succ_iff_lt_or_eq.mp hlt with hm | rfl
    · exact h.clean m h2 hm hne
    · have hb := getElem?_of_drop hdrop
      exact noFault_of_getElem? hb (by simp [hw]) (by simp [hw]) (not_startsGroup_of_ne_alpha hb (by simp [hw]))
  run := by rw [reverse_before_succ (getElem?_of_drop hdrop) h.two_le, groupRun_skip_cons_ws _ hw, h.run]
  start _ := by
    obtain ⟨h2, hp, hs⟩ := h.start hg
    exact ⟨h2, Nat.lt_succ_of_lt hp, hs⟩
  group _ := by rw [h.group hg, hdrop, groupRun_skip_cons_ws t hw, drop_succ_of_drop hdrop]

/-- A character that does not complete its group joins it, or starts one. -/
theorem ScanAt.alpha (h : ScanAt mode text i g p) (hdrop : text.drop i = b :: t) (ha : charClass b = .alpha)
    (h4 : g.length ≠ 4) : ScanAt mode text (i + 1) (g ++ [b]) (if g = [] then i else p) := by
  have hb := getElem?_of_drop hdrop
  have hlt5 := h.length_lt
  have hrun := h.run
  have hrest : groupRun mode (text.drop i) = b :: groupRun mode (text.drop (i + 1)) := by
    rw [hdrop, groupRun_cons_alpha mode t ha, drop_succ_of_drop hdrop]
  refine ⟨Nat.le_succ_of_le h.two_le, lt_length_of_getElem? hb, fun m h2 hlt hne => ?_, ?_, fun _ => ?_, fun _ => ?_⟩
  · have hm := hne (by simp)
    by_cases hg : g = []
    · rw [if_pos hg] at hm
      exact h.clean m h2 (by omega) fun hne => absurd hg hne
    · rw [if_neg hg] at hm
      rcases Nat.lt_succ_iff_lt_or_eq.mp hlt with hmi | rfl
      · exact h.clean m h2 hmi fun _ => hm
      · refine noFault_of_getElem? hb (by simp [ha]) (by simp [ha]) fun hstart => ?_
        exact hg (List.eq_nil_of_length_eq_zero (hrun.symm.trans hstart.2))
  · rw [reverse_before_succ hb h.two_le, groupRun_cons_alpha mode _ ha]
    simp only [List.length_cons, List.length_append, List.length_nil]
    omega
  · by_cases hg : g = []
    · rw [if_pos hg]
      exact ⟨h.two_le, Nat.lt_succ_self i, by simp [hb, ha], by rw [hrun, hg]; rfl⟩
    · rw [if_neg hg]
      obtain ⟨h2, hp, hs⟩ := h.start hg
      exact ⟨h2, Nat.lt_succ_of_lt hp, hs⟩
  · by_cases hg : g = []
    · rw [if_pos hg, hrest, hg]
      rfl
    · rw [if_neg hg, h.group hg, hrest, List.append_cons]

end scanAt

/-! ### Where the scan ends -/

/-- The scan comes to the result of a first fault. -/
def EndsAtFirstFault (mode : A85Ws) (text : List Byte) (r : UnitResult) : Prop :=
  ∃ k out, FirstFault mode text k ∧ r = faultResult text k out

/-- A step that closes the group in progress: the scan ends with its overflow, or goes on from its bytes. -/
theorem ScanAt.endsAtFirstFault_close {mode : A85Ws} {text g : List Byte} {i p : Nat} (h : ScanAt mode text i g p)
    (he : g ≠ [] → groupRun mode (text.drop i) = []) {f : List Byte → UnitResult}
    (hf : ∀ x, scansTo mode text i → EndsAtFirstFault mode text (f x)) :
    EndsAtFirstFault mode text ((pendingOutput g).elim (.err .a85Overflow p) f) := by
  rcases h.close he with ⟨hn, hover⟩ | ⟨x, hx, hs⟩
  · obtain ⟨hfirst, hr⟩ := hover []
    exact ⟨p, [], hfirst, by rw [hn, hr]; rfl⟩
  · rw [hx]
    exact hf x hs

/-- The scan ends at the first fault of the text, whatever it has put out so far. -/
theorem ScanAt.endsAtFirstFault {mode : A85Ws} {text t g : List Byte} {i p : Nat} (h : ScanAt mode text i g p)
    (hdrop : text.drop i = t) (out : List Byte) : EndsAtFirstFault mode text (a85Scan mode t i g p out) := by
  induction t generalizing i g p out with
  | nil =>
    have hi : i = text.length := Nat.le_antisymm h.le_length (List.drop_eq_nil_iff.mp hdrop)
    rw [a85Scan_end]
    refine h.endsAtFirstFault_close (fun _ => by rw [hdrop, groupRun_nil]) fun x hs => ?_
    exact ⟨i, [], ⟨hs, .atEnd hi⟩, by rw [hi, faultResult_length]⟩
  | cons b t ih =>
    have hb := getElem?_of_drop hdrop
    have hnext := drop_succ_of_drop hdrop
    have hend (ha : charClass b ≠ .alpha) (hw : mode = .skip → charClass b ≠ .ws) :
        g ≠ [] → groupRun mode (text.drop i) = [] := fun _ => by rw [hdrop, groupRun_cons_end t ha hw]
    cases hc : charClass b with
    | alpha =>
      by_cases h4 : g.length = 4
      · have hne : g ≠ [] := by rintro rfl; cases h4
        rw [a85Scan_fifth _ _ _ _ hc h4, ← h.groupAt_of_fifth hdrop hc h4]
        cases ho : (Token.group (groupAt mode text p)).output with
        | none =>
          obtain ⟨hfirst, hr⟩ := h.overflow hne ho []
          exact ⟨p, [], hfirst, hr.symm⟩
        | some x =>
          have hs := h.scansTo_of_decodes fun _ => ⟨x, ho⟩
          exact ih (h.fifth hs hb hc h4 i) hnext _
      · rw [a85Scan_alpha _ _ _ _ hc h4]
        exact ih (h.alpha hdrop hc h4) hnext _
    | zero =>
      rw [a85Scan_zero _ _ _ _ hc]
      exact h.endsAtFirstFault_close (hend (by simp [hc]) (by simp [hc])) fun x hs =>
        ih (scanAt_succ_zero hs hb hc i) hnext _
    | ws =>
      by_cases hm : mode = .skip ∧ g ≠ []
      · obtain ⟨rfl, hg⟩ := hm
        rw [a85Scan_skipped _ _ _ _ hc hg]
        exact ih (h.skipped hdrop hc hg) hnext _
      · rw [a85Scan_ws _ _ _ _ hc hm]
        refine h.endsAtFirstFault_close (fun hg => ?_) fun x hs => ih (h.ws hs hb hc hm i) hnext _
        exact hend (by simp [hc]) (fun hskip => absurd ⟨hskip, hg⟩ hm) hg
    | tilde =>
      rw [a85Scan_tilde _ _ _ _ hc]
      refine h.endsAtFirstFault_close (hend (by simp [hc]) (by simp [hc])) fun x hs => ?_
      have ht : text[i]?.map charClass = some .tilde := by simp [hb, hc]
      exact ⟨i, out ++ x, ⟨hs, .tilde ht⟩, by rw [faultResult_tilde _ ht, hnext]⟩
    | other =>
      rw [a85Scan_other _ _ _ _ hc]
      refine h.endsAtFirstFault_close (hend (by simp [hc]) (by simp [hc])) fun x hs => ?_
      have ho : text[i]?.map charClass = some .other := by simp [hb, hc]
      exact ⟨i, [], ⟨hs, .other ho⟩, by rw [faultResult_other _ ho]⟩

theorem fAscii85_endsAtFirstFault (mode : A85Ws) {text : List Byte} (h : text.take 2 = [0x3C, 0x7E]) :
    EndsAtFirstFault mode text (fAscii85 mode text) := by
  have hscan := (scanAt_start mode h).endsAtFirstFault rfl []
  rwa [← fAscii85_start, ← eq_start_append h] at hscan

/-! ### The errors of the end marker -/

/-- After the end marker the first byte that is not white space is the error. -/
theorem a85Trailing_drop_eq_err_iff {text : List Byte} {i : Nat} {out : List Byte} {code : ErrCode} {info : Nat} :
    a85Trailing (text.drop i) i out = .err code info ↔
      code = .a85ParseError ∧ i ≤ info ∧ info < text.length ∧ charClass (byteAt text info) ≠ .ws ∧
        ∀ m, i ≤ m → m < info → charClass (byteAt text m) = .ws := by
  generalize hdrop : text.drop i = t
  induction t generalizing i with
  | nil =>
    have hlen := List.drop_eq_nil_iff.mp hdrop
    simp only [a85Trailing, reduceCtorEq, false_iff]
    rintro ⟨_, hi, hlt, _⟩
    omega
  | cons b t ih =>
    have hget := getElem?_of_drop hdrop
    have hb := byteAt_of_getElem? hget
    have hlen := lt_length_of_getElem? hget
    rw [a85Trailing]
    split
    · next hws =>
      rw [ih (drop_succ_of_drop hdrop)]
      constructor
      · rintro ⟨hcode, hi, hlt, hne, hall⟩
        refine ⟨hcode, by omega, hlt, hne, fun m hm hmi => ?_⟩
        rcases Nat.eq_or_lt_of_le hm with rfl | hm
        · rw [hb, hws]
        · exact hall m hm hmi
      · rintro ⟨hcode, hi, hlt, hne, hall⟩
        have hi' : i ≠ info := by
          rintro rfl
          exact hne (by rw [hb, hws])
        exact ⟨hcode, by omega, hlt, hne, fun m hm hmi => hall m (by omega) hmi⟩
    · next hws =>
      constructor
      · rintro ⟨⟩
        exact ⟨rfl, Nat.le_refl _, hlen, by rwa [hb], fun m hm hmi => by omega⟩
      · rintro ⟨rfl, hi, _, _, hall⟩
        rcases Nat.eq_or_lt_of_le hi with rfl | hlt
        · rfl
        · exact absurd (by rw [← hb, hall i (Nat.le_refl i) hlt]) hws

theorem a85EndMarker_of_noMarker {text : List Byte} {k : Nat} (out : List Byte) (h : text[k + 1]? ≠ some 0x3E) :
    a85EndMarker k out (text.drop (k + 1)) = .err .a85ParseError k := by
  cases hdrop : text.drop (k + 1) with
  | nil => rfl
  | cons e u =>
    rw [getElem?_of_drop hdrop] at h
    exact if_neg fun he => h (congrArg some he)

theorem a85EndMarker_of_marker {text : List Byte} {k : Nat} (out : List Byte) (h : text[k + 1]? = some 0x3E) :
    a85EndMarker k out (text.drop (k + 1)) = a85Trailing (text.drop (k + 2)) (k + 2) out := by
  obtain ⟨hlt, he⟩ := List.getElem?_eq_some_iff.mp h
  rw [List.drop_eq_getElem_cons hlt, he, a85EndMarker, if_pos rfl]

theorem map_charClass_eq_tilde_iff {text : List Byte} {k : Nat} :
    text[k]?.map charClass = some .tilde ↔ text[k]? = some 0x7E := by
  simp [charClass_eq_tilde_iff]

end Sys2Proof.Machine
end

section
/-! The errors of the ASCII85 unit (40_ascii85.md R156). -/

open Sys2Proof.Machine Sys2Proof.Safety

namespace Sys2Proof.Proofs

/-- Settles O44: the scan ends at its first fault, and there is one alone, so each situation is that fault's. -/
theorem ascii85ErrorsPointAtTheirCause : Obligations.Ascii85ErrorsPointAtTheirCause := by
  intro mode text code info
  by_cases hstart : text.take 2 = [0x3C, 0x7E]
  swap
  · simp only [fAscii85_noStart mode hstart, UnitResult.err.injEq, hstart, ne_eq, not_false_eq_true, and_true,
      false_and, or_false, eq_comm (b := code), eq_comm (b := info)]
  obtain ⟨k, out, hk, hr⟩ := fAscii85_endsAtFirstFault mode hstart
  simp only [hr, hstart, ne_eq, not_true_eq_false, and_false, false_or, true_and]
  constructor
  · intro he
    cases hk.fault with
    | atEnd h =>
      subst h
      cases (faultResult_length text out).symm.trans he
      exact .inl ⟨rfl, hk.scans, rfl⟩
    | tilde h =>
      rw [faultResult_tilde out h] at he
      have h7E := map_charClass_eq_tilde_iff.mp h
      by_cases h3E : text[k + 1]? = some 0x3E
      · rw [a85EndMarker_of_marker out h3E, a85Trailing_drop_eq_err_iff] at he
        obtain ⟨hcode, htrail⟩ := he
        exact .inr (.inr (.inl ⟨hcode, k, hk.scans, h7E, h3E, htrail⟩))
      · cases (a85EndMarker_of_noMarker out h3E).symm.trans he
        exact .inr (.inl ⟨rfl, hk.scans, h7E, h3E⟩)
    | other h =>
      cases (faultResult_other out h).symm.trans he
      exact .inr (.inr (.inr (.inl ⟨rfl, hk.scans, h⟩)))
    | overflow h hv =>
      cases (faultResult_overflow out h).symm.trans he
      exact .inr (.inr (.inr (.inr ⟨rfl, hk.scans, h, hv⟩)))
  · have hat {j : Nat} (hs : scansTo mode text j) (hf : FaultAt mode text j) : k = j := hk.unique ⟨hs, hf⟩
    rintro (⟨rfl, hs, hend⟩ | ⟨rfl, hs, h7E, h3E⟩ | ⟨hcode, j, hs, h7E, h3E, htrail⟩ | ⟨rfl, hs, h⟩ |
      ⟨rfl, hs, h, hv⟩)
    · rw [hat hs (.atEnd hend), hend, faultResult_length]
    · have ht := map_charClass_eq_tilde_iff.mpr h7E
      rw [hat hs (.tilde ht), faultResult_tilde out ht, a85EndMarker_of_noMarker out h3E]
    · have ht := map_charClass_eq_tilde_iff.mpr h7E
      rw [hat hs (.tilde ht), faultResult_tilde out ht, a85EndMarker_of_marker out h3E, a85Trailing_drop_eq_err_iff]
      exact ⟨hcode, htrail⟩
    · rw [hat hs (.other h), faultResult_other out h]
    · rw [hat hs (.overflow h hv), faultResult_overflow out h]

end Sys2Proof.Proofs
end

section
/-! The rules of the BITFLIP unit (41_bit_transposer.md R190–R192). FLIP-ROTATE is a rotation and a XOR, so its iterates
come from how rotations compose and pass through a XOR. -/

namespace Sys2Proof.Machine

/-! ### Rotations, bit by bit -/

theorem getLsbD_rotateRight_eq_mod {w : Nat} (x : BitVec w) (r : Nat) {j : Nat} (h : j < w) :
    (x.rotateRight r).getLsbD j = x.getLsbD ((j + r) % w) := by
  have hr : r % w < w := Nat.mod_lt r (by omega)
  rw [BitVec.getLsbD_rotateRight, ← Nat.add_mod_mod]
  by_cases hj : j < w - r % w
  · rw [Nat.mod_eq_of_lt (by omega : j + r % w < w)]
    simp [hj, Nat.add_comm]
  · have hwrap : (j + r % w) % w = j - (w - r % w) := by
      rw [Nat.mod_eq_sub_mod (by omega), Nat.mod_eq_of_lt (by omega)]
      omega
    simp [hj, h, hwrap]

theorem rotateRight_rotateRight {w : Nat} (x : BitVec w) (r k : Nat) :
    (x.rotateRight r).rotateRight k = x.rotateRight (r + k) := by
  refine BitVec.eq_of_getLsbD_eq fun j hj => ?_
  rw [getLsbD_rotateRight_eq_mod _ _ hj, getLsbD_rotateRight_eq_mod _ _ (Nat.mod_lt _ (by omega)),
    getLsbD_rotateRight_eq_mod _ _ hj, Nat.mod_add_mod, Nat.add_assoc, Nat.add_comm k]

theorem rotateRight_width {w : Nat} (x : BitVec w) : x.rotateRight w = x := by
  refine BitVec.eq_of_getLsbD_eq fun j hj => ?_
  rw [getLsbD_rotateRight_eq_mod _ _ hj, Nat.add_mod_right, Nat.mod_eq_of_lt hj]

theorem rotateRight_xor {w : Nat} (x y : BitVec w) (r : Nat) :
    (x ^^^ y).rotateRight r = x.rotateRight r ^^^ y.rotateRight r := by
  refine BitVec.eq_of_getLsbD_eq fun j hj => ?_
  simp only [BitVec.getLsbD_xor, getLsbD_rotateRight_eq_mod _ _ hj]

/-- A byte rotated left by one is rotated right by the other seven. -/
theorem rotateLeft_one_eq_rotateRight_seven (x : Byte) : x.rotateLeft 1 = x.rotateRight 7 :=
  BitVec.or_comm _ _

/-! ### FLIP-ROTATE -/

/-- The bit that FLIP-ROTATE moves to place j (R190). -/
theorem getLsbD_flipRotate (x : Byte) {j : Nat} (h : j < 8) :
    (flipRotate x).getLsbD j = (x ^^^ 0x55).getLsbD ((j + 1) % 8) :=
  getLsbD_rotateRight_eq_mod _ 1 h

theorem rotateLeft_flipRotate (x : Byte) : (flipRotate x).rotateLeft 1 ^^^ 0x55 = x := by
  rw [rotateLeft_one_eq_rotateRight_seven, flipRotate, rotateRight_rotateRight, rotateRight_width, BitVec.xor_assoc,
    BitVec.xor_self, BitVec.xor_zero]

theorem flipRotate_rotateLeft (y : Byte) : flipRotate (y.rotateLeft 1 ^^^ 0x55) = y := by
  rw [rotateLeft_one_eq_rotateRight_seven, flipRotate, BitVec.xor_assoc, BitVec.xor_self, BitVec.xor_zero,
    rotateRight_rotateRight, rotateRight_width]

/-- Twice, the two flips meet in alternate places and together flip every bit. -/
theorem flipRotate_flipRotate (x : Byte) : flipRotate (flipRotate x) = x.rotateRight 2 ^^^ 0xFF := by
  simp only [flipRotate, rotateRight_xor, rotateRight_rotateRight, BitVec.xor_assoc]
  rfl

/-- Four times, the flips cancel and the rotation by half a byte is left. -/
theorem flipRotate_iterate_four (x : Byte) : flipRotate^[4] x = x.rotateRight 4 := by
  calc flipRotate^[4] x = flipRotate (flipRotate (flipRotate (flipRotate x))) := rfl
    _ = x.rotateRight 4 ^^^ ((0xFF : Byte).rotateRight 2 ^^^ 0xFF) := by
      rw [flipRotate_flipRotate, flipRotate_flipRotate, rotateRight_xor, rotateRight_rotateRight, BitVec.xor_assoc]
    _ = x.rotateRight 4 := BitVec.xor_zero

theorem flipRotate_iterate_eight (x : Byte) : flipRotate^[8] x = x := by
  rw [Function.iterate_add_apply flipRotate 4 4, flipRotate_iterate_four, flipRotate_iterate_four,
    rotateRight_rotateRight, rotateRight_width]

/-! ### The unit's output -/

theorem byteAt_map (f : Byte → Byte) {l : List Byte} {k : Nat} (h : k < l.length) :
    byteAt (l.map f) k = f (byteAt l k) := by
  simp [byteAt, h]

end Sys2Proof.Machine
end

section
/-! The BITFLIP unit (41_bit_transposer.md). -/

open Sys2Proof.Machine Sys2Proof.Safety

namespace Sys2Proof.Proofs

/-- Where a unit has an output that OUT can hold, its job is BUSY after the command and DONE after the block's next
turn (10_state.md R34; log 2). -/
theorem unitJob_done {s : State} {u : UnitFn} {input out : List Byte} (hb : s.state ≠ .busy) (hh : s.host = [])
    (hp : s.params.ok = true) (hin : hostWrote s input) (hl : s.inLen.toNat ≤ s.params.inCap)
    (hr : unitResult s.params u input = .ok out) (hfit : out.length ≤ s.params.outCap) :
    ∃ t v, exec (unitCommand u) s = .next t ∧ t.state = .busy ∧ step t = .next v ∧ doneWith v out := by
  obtain ⟨t, hexec, hbusy, _, _, _, _, _, hparams, hhost, _, hjob⟩ :=
    (jobCommandMakesTheBlockBusy _ _ s (commandCode_unitCommand u)).2 hb hl
  rw [← hparams] at hp hr hfit
  obtain ⟨v, hstep, hdone, _⟩ := unitJobEndsWithItsResult t u input ((hjob input hin).1 u rfl) (hhost.trans hh) hp
  exact ⟨t, v, hexec, hbusy, hstep, hdone out hr hfit⟩

/-- Settles O46: the job's output is the input with FLIP-ROTATE on each byte, whose bits the rotation places. -/
theorem bitflipJobFlipsAndRotatesEachByte : Obligations.BitflipJobFlipsAndRotatesEachByte := by
  intro s input hb hh hp hin hl hfit
  have hlen : (input.map flipRotate).length = input.length := List.length_map ..
  obtain ⟨t, u, hexec, hbusy, hstep, hdone⟩ :=
    unitJob_done (u := .bitflip) (out := input.map flipRotate) hb hh hp hin hl rfl (hlen.trans_le hfit)
  refine ⟨t, u, _, hexec, hbusy, hstep, hdone, hlen, fun k hk j hj => ?_⟩
  rw [byteAt_map flipRotate hk, getLsbD_flipRotate _ hj]

/-- Settles O45: the inverse and the eighth iterate by composing rotations, the shorter cycles by running through the
bytes. -/
theorem flipRotateAlgebra : Obligations.FlipRotateAlgebra :=
  ⟨rotateLeft_flipRotate, flipRotate_rotateLeft, by decide, by decide, by decide, flipRotate_iterate_eight, by decide⟩

end Sys2Proof.Proofs
end

section
/-! The rules of the PARITY unit (42_parity_repacker.md R200–R202): which bytes are valid, and which bit of the stream
a bit of a packed byte is. -/

namespace Sys2Proof.Machine

/-! ### Valid bytes -/

/-- A byte's bits from the most significant down are its data bits and then its parity bit (R200, R201). -/
theorem length_filter_getLsbD (x : Byte) :
    ((List.range 8).filter (x.getLsbD ·)).length = (dataBits x).count true + (x.getLsbD 0).toNat := by
  have hbits : ((List.range 8).map x.getLsbD).reverse = dataBits x ++ [x.getLsbD 0] := rfl
  calc ((List.range 8).filter (x.getLsbD ·)).length
    _ = ((List.range 8).map x.getLsbD).reverse.count true := by
      rw [List.count_reverse, List.count, List.countP_map, List.countP_eq_length_filter]
      simp [Function.comp_def]
    _ = (dataBits x).count true + (x.getLsbD 0).toNat := by
      rw [hbits, List.count_append]
      cases x.getLsbD 0 <;> rfl

/-- The parity bit matches the data bits exactly where the whole byte has an even number of 1 bits. -/
theorem parityValid_eq_even (x : Byte) :
    parityValid x = decide (((List.range 8).filter (x.getLsbD ·)).length % 2 = 0) := by
  rw [length_filter_getLsbD, parityValid]
  have hbit := Bool.toNat_le (x.getLsbD 0)
  exact decide_eq_decide.mpr (by omega)

theorem length_parityBits (input : List Byte) :
    (parityBits input).length = 7 * (input.filter parityValid).length := by
  simp [parityBits, dataBits, Nat.mul_comm]

/-! ### Packing -/

theorem exists_eq_cons_of_eight_le : ∀ {bits : List Bool}, 8 ≤ bits.length →
    ∃ b7 b6 b5 b4 b3 b2 b1 b0 t, bits = b7 :: b6 :: b5 :: b4 :: b3 :: b2 :: b1 :: b0 :: t
  | b7 :: b6 :: b5 :: b4 :: b3 :: b2 :: b1 :: b0 :: t, _ => ⟨b7, b6, b5, b4, b3, b2, b1, b0, t, rfl⟩

theorem length_packBits (bits : List Bool) : (packBits bits).length = bits.length / 8 := by
  induction bits using packBits.induct with
  | case1 b7 b6 b5 b4 b3 b2 b1 b0 t ih =>
    exact (congrArg (· + 1) ih).trans (Nat.add_div_right t.length (by decide)).symm
  | case2 bits hshort =>
    have hlt : bits.length < 8 := Nat.lt_of_not_le fun h => by
      obtain ⟨b7, b6, b5, b4, b3, b2, b1, b0, t, rfl⟩ := exists_eq_cons_of_eight_le h
      exact hshort b7 b6 b5 b4 b3 b2 b1 b0 t rfl
    rw [packBits.eq_2 _ hshort, List.length_nil, Nat.div_eq_of_lt hlt]

theorem byteOfBits_eq_ofBoolListBE : ∀ b7 b6 b5 b4 b3 b2 b1 b0 : Bool,
    byteOfBits b7 b6 b5 b4 b3 b2 b1 b0 = BitVec.ofBoolListBE [b7, b6, b5, b4, b3, b2, b1, b0] := by
  decide

theorem getMsbD_byteOfBits (b7 b6 b5 b4 b3 b2 b1 b0 : Bool) (j : Nat) :
    (byteOfBits b7 b6 b5 b4 b3 b2 b1 b0).getMsbD j = [b7, b6, b5, b4, b3, b2, b1, b0].getD j false := by
  rw [byteOfBits_eq_ofBoolListBE]
  exact BitVec.getMsbD_ofBoolListBE

/-- Packed byte k holds the stream's bits from 8k on, the first the most significant (R202). -/
theorem getMsbD_packBits {bits : List Bool} {k j : Nat} (hk : k < (packBits bits).length) (hj : j < 8) :
    some ((byteAt (packBits bits) k).getMsbD j) = bits[8 * k + j]? := by
  induction bits using packBits.induct generalizing k with
  | case1 b7 b6 b5 b4 b3 b2 b1 b0 t ih =>
    cases k with
    | zero =>
      calc some ((byteOfBits b7 b6 b5 b4 b3 b2 b1 b0).getMsbD j)
        _ = [b7, b6, b5, b4, b3, b2, b1, b0][j]? := by simp [getMsbD_byteOfBits, hj]
        _ = ([b7, b6, b5, b4, b3, b2, b1, b0] ++ t)[8 * 0 + j]? := by
          rw [Nat.mul_zero, Nat.zero_add, List.getElem?_append_left hj]
    | succ k =>
      rw [Nat.mul_succ, Nat.add_right_comm]
      exact ih (Nat.lt_of_succ_lt_succ hk)
  | case2 bits hshort =>
    rw [packBits.eq_2 _ hshort] at hk
    cases hk

end Sys2Proof.Machine
end

section
/-! The PARITY unit (42_parity_repacker.md). -/

open Sys2Proof.Machine Sys2Proof.Safety

namespace Sys2Proof.Proofs

/-- Settles O47: the statement's stream is the unit's own, and packing keeps its bits in their places. -/
theorem parityJobPacksTheDataBits : Obligations.ParityJobPacksTheDataBits := by
  intro s input hb hh hp hin hl valid bits hfit
  have hvalid : valid = input.filter parityValid := List.filter_congr fun x _ => (parityValid_eq_even x).symm
  have hbits : parityBits input = bits := congrArg (List.flatMap dataBits) hvalid.symm
  have hlen : (packBits bits).length = 7 * valid.length / 8 := by
    rw [length_packBits, ← hbits, length_parityBits, ← hvalid]
  have hunit : unitResult s.params .parity input = .ok (packBits bits) := hbits ▸ rfl
  obtain ⟨t, u, hexec, hbusy, hstep, hdone⟩ := unitJob_done hb hh hp hin hl hunit (hlen.trans_le hfit)
  refine ⟨t, u, packBits bits, hexec, hbusy, hstep, hdone, hlen, fun k hk j hj => ?_⟩
  rw [← getMsbD_packBits hk hj, BitVec.getMsbD, decide_eq_true hj, Bool.true_and]

end Sys2Proof.Proofs
end

section
/-! The rules of the PACKET unit (43_packet_extractor.md R222–R230): the checksum as the end-around value of a sum of
words, the words each check covers, and the scan over packets back to back. -/

namespace Sys2Proof.Machine

open Sys2Proof.Safety

/-! ### Words of a byte string -/

theorem byteAt_drop (d : List Byte) (i k : Nat) : byteAt (d.drop i) k = byteAt d (i + k) := by
  simp [byteAt]

@[simp] theorem be16_drop (d : List Byte) (i k : Nat) : be16 (d.drop i) k = be16 d (i + k) := by
  simp [be16, byteAt_drop, Nat.add_assoc]

theorem be16_take (d : List Byte) {m k : Nat} (h : k + 1 < m) : be16 (d.take m) k = be16 d k := by
  rw [be16, byteAt_take d (Nat.lt_of_succ_lt h), byteAt_take d h, be16]

theorem be16_slice (d : List Byte) {i j k : Nat} (h : k + 1 < j - i) : be16 (slice d i j) k = be16 d (i + k) := by
  rw [slice, be16_take _ h, be16_drop]

theorem be16_append (d t : List Byte) {k : Nat} (h : k + 1 < d.length) : be16 (d ++ t) k = be16 d k := by
  simp [be16, byteAt, List.getElem?_append_left, h, Nat.lt_of_succ_lt h]

theorem be16_le (d : List Byte) (k : Nat) : be16 d k ≤ 0xFFFF := by
  have hhigh := (byteAt d k).isLt
  have hlow := (byteAt d (k + 1)).isLt
  unfold be16
  omega

theorem length_slice {d : List Byte} {i j : Nat} (h : j ≤ d.length) : (slice d i j).length = j - i := by
  rw [slice, List.length_take, List.length_drop]
  omega

theorem slice_to_length (d : List Byte) (i : Nat) : slice d i d.length = d.drop i :=
  List.take_of_length_le (List.length_drop ..).le

/-! ### The sum of the words -/

theorem wordSum_eq_be16_add (d : List Byte) : wordSum d = be16 d 0 + wordSum (d.drop 2) := by
  match d with
  | [] => rfl
  | [x] => simp [wordSum, be16, byteAt]
  | x :: y :: t => rfl

theorem wordSum_eq_sum_add (d : List Byte) (n : Nat) :
    wordSum d = ∑ k ∈ Finset.range n, be16 d (2 * k) + wordSum (d.drop (2 * n)) := by
  induction n with
  | zero => simp
  | succ n ih =>
    rw [ih, wordSum_eq_be16_add (d.drop (2 * n)), Finset.sum_range_succ, be16_drop, List.drop_drop, Nat.add_assoc]
    rfl

theorem wordSum_slice (d : List Byte) (i n : Nat) :
    wordSum (slice d i (i + 2 * n)) = ∑ k ∈ Finset.range n, be16 d (i + 2 * k) := by
  have hend : (slice d i (i + 2 * n)).drop (2 * n) = [] := by simp [slice]
  rw [wordSum_eq_sum_add _ n, hend, wordSum, Nat.add_zero]
  refine Finset.sum_congr rfl fun k hk => be16_slice d ?_
  have := Finset.mem_range.mp hk
  omega

theorem wordSum_append {d : List Byte} (h : d.length % 2 = 0) (t : List Byte) :
    wordSum (d ++ t) = wordSum d + wordSum t := by
  induction d using wordSum.induct with
  | case1 => simp [wordSum]
  | case2 x => cases h
  | case3 x y d ih =>
    have hd : d.length % 2 = 0 := (Nat.add_mod_right d.length 2).symm.trans h
    rw [List.cons_append, List.cons_append, wordSum, wordSum, ih hd, ← Nat.add_assoc]

/-- Zeroing a word takes it out of the sum. -/
theorem wordSum_zeroed2_add (d : List Byte) (n : Nat) :
    wordSum (zeroed2 d (2 * n)) + be16 d (2 * n) = wordSum d := by
  induction d using wordSum.induct generalizing n with
  | case1 => simp [zeroed2, be16, byteAt, wordSum]
  | case2 x =>
    cases n with
    | zero => simp [zeroed2, be16, byteAt, wordSum]
    | succ n => simp [zeroed2, be16, byteAt, Nat.mul_succ]
  | case3 x y t ih =>
    cases n with
    | zero => simp [zeroed2, wordSum, be16, byteAt, Nat.add_comm]
    | succ n =>
      have hzero : zeroed2 (x :: y :: t) (2 * (n + 1)) = x :: y :: zeroed2 t (2 * n) := rfl
      have hword : be16 (x :: y :: t) (2 * (n + 1)) = be16 t (2 * n) := rfl
      rw [hzero, hword, wordSum, wordSum, Nat.add_assoc, ih]

theorem wordSum_toBe_two {v : Nat} (h : v ≤ 0xFFFF) : wordSum (toBe v 2) = v := by
  have hvalue : wordSum (toBe v 2) = beVal (toBe v 2) := by simp [toBe, wordSum, beVal]
  rw [hvalue, beVal_toBe, Nat.mod_eq_of_lt (by omega)]

/-! ### The checksum (R222) -/

theorem csumFrom_endAround (n : Nat) (d : List Byte) : csumFrom (endAround n) d = endAround (n + wordSum d) := by
  induction d using wordSum.induct generalizing n with
  | case1 => rfl
  | case2 x =>
    have hx := x.isLt
    exact foldCarry_endAround_add n (by omega)
  | case3 x y t ih =>
    have hx := x.isLt
    have hy := y.isLt
    rw [csumFrom, foldCarry_endAround_add n (by omega), ih, wordSum, Nat.add_assoc]

theorem csum16_eq_endAround (d : List Byte) : csum16 d = endAround (wordSum d) := by
  rw [csum16, ← endAround_zero, csumFrom_endAround, Nat.zero_add]

theorem endAround_mod (n : Nat) : endAround n % 0xFFFF = n % 0xFFFF := by
  unfold endAround
  split <;> omega

theorem endAround_eq_zero_iff (n : Nat) : endAround n = 0 ↔ n = 0 := by
  unfold endAround
  split <;> omega

/-! ### The header checksum (R224) -/

theorem wordSum_header (p : List Byte) : wordSum (slice p 0 20) = headerSum p + be16 p 10 := by
  rw [wordSum_slice p 0 10]
  simp only [Finset.sum_range_succ, Finset.sum_range_zero, headerSum, Nat.zero_add, Nat.reduceMul]
  omega

theorem wordSum_zeroed_header (p : List Byte) : wordSum (zeroed2 (slice p 0 20) 10) = headerSum p := by
  have hzero := wordSum_zeroed2_add (slice p 0 20) 5
  rw [be16_slice p (by decide), Nat.zero_add, wordSum_header] at hzero
  exact Nat.add_right_cancel hzero

theorem csum16_zeroed_header (p : List Byte) :
    csum16 (zeroed2 (slice p 0 20) 10) = endAround (headerSum p) := by
  rw [csum16_eq_endAround, wordSum_zeroed_header]

theorem ipOk_compare (p : List Byte) :
    ipOk .compare p = decide (0xFFFF - endAround (headerSum p) = be16 p 10) := by
  rw [ipOk, csum16_zeroed_header, not16]

theorem ipOk_sumFFFF (p : List Byte) :
    ipOk .sumFFFF p = decide (endAround (headerSum p + be16 p 10) = 0xFFFF) := by
  rw [ipOk, csum16_eq_endAround, wordSum_header]

/-! ### The other checks (R225–R227) -/

theorem toNat_append_eq {m n : Nat} (x : BitVec m) (y : BitVec n) : (x ++ y).toNat = x.toNat * 2 ^ n + y.toNat := by
  rw [BitVec.toNat_append, ← Nat.shiftLeft_add_eq_or_of_lt y.isLt, Nat.shiftLeft_eq]

theorem toNat_two_bytes (p : List Byte) (i : Nat) : (byteAt p i ++ byteAt p (i + 1)).toNat = be16 p i :=
  toNat_append_eq _ _

theorem toNat_four_bytes (p : List Byte) (i : Nat) :
    (byteAt p i ++ byteAt p (i + 1) ++ byteAt p (i + 2) ++ byteAt p (i + 3)).toNat = be32 p i := by
  have hlast : byteAt p (i + 2 + 1) = byteAt p (i + 3) := rfl
  simp only [toNat_append_eq, be32, be16, hlast]
  omega

theorem be16_eq_toNat_iff (p : List Byte) (i : Nat) (v : BitVec 16) :
    be16 p i = v.toNat ↔ byteAt p i ++ byteAt p (i + 1) = v := by
  rw [← toNat_two_bytes, BitVec.toNat_inj]

theorem be32_eq_toNat_iff (p : List Byte) (i : Nat) (v : BitVec 32) :
    be32 p i = v.toNat ↔ byteAt p i ++ byteAt p (i + 1) ++ byteAt p (i + 2) ++ byteAt p (i + 3) = v := by
  rw [← toNat_four_bytes, BitVec.toNat_inj]

theorem srcOk_eq (prm : Params) (p : List Byte) :
    srcOk prm p = decide (byteAt p 12 ++ byteAt p 13 ++ byteAt p 14 ++ byteAt p 15 = prm.authSrc) :=
  decide_eq_decide.mpr (be32_eq_toNat_iff p 12 prm.authSrc)

theorem dstOk_eq (prm : Params) (p : List Byte) :
    dstOk prm p = decide (byteAt p 16 ++ byteAt p 17 ++ byteAt p 18 ++ byteAt p 19 = prm.authDst) :=
  decide_eq_decide.mpr (be32_eq_toNat_iff p 16 prm.authDst)

theorem portOk_eq (prm : Params) (p : List Byte) :
    portOk prm p = decide (byteAt p 22 ++ byteAt p 23 = prm.authDport) :=
  decide_eq_decide.mpr (be16_eq_toNat_iff p 22 prm.authDport)

theorem length_pseudoHeader {p : List Byte} (h : 20 ≤ p.length) (len : Nat) : (pseudoHeader p len).length = 12 := by
  have hfrom := length_slice (i := 12) (j := 16) (d := p) (by omega)
  have hto := length_slice (i := 16) (j := 20) (d := p) (by omega)
  simp [pseudoHeader, hfrom, hto]

theorem wordSum_pseudoHeader {p : List Byte} (h : 20 ≤ p.length) {len : Nat} (hlen : len ≤ 0xFFFF) :
    wordSum (pseudoHeader p len) = be16 p 12 + be16 p 14 + be16 p 16 + be16 p 18 + 17 + len := by
  have hfrom : (slice p 12 16).length = 4 := length_slice (by omega)
  have hto : (slice p 16 20).length = 4 := length_slice (by omega)
  have hsource : wordSum (slice p 12 16) = be16 p 12 + be16 p 14 := by
    simpa [Finset.sum_range_succ] using wordSum_slice p 12 2
  have hdest : wordSum (slice p 16 20) = be16 p 16 + be16 p 18 := by
    simpa [Finset.sum_range_succ] using wordSum_slice p 16 2
  rw [pseudoHeader, List.append_assoc, List.append_assoc, wordSum_append (by rw [hfrom]), wordSum_append (by rw [hto]),
    wordSum_append rfl, hsource, hdest, wordSum_toBe_two hlen]
  have hproto : wordSum [0x00, 0x11] = 17 := rfl
  omega

/-- The datagram with its checksum field zeroed: the rest of the UDP header and the payload. -/
theorem wordSum_zeroed_datagram (p : List Byte) :
    wordSum (zeroed2 (p.drop 20) 6) = be16 p 20 + be16 p 22 + be16 p 24 + wordSum (p.drop 28) := by
  have hzero := wordSum_zeroed2_add (p.drop 20) 3
  rw [wordSum_eq_sum_add (p.drop 20) 4] at hzero
  simp only [Finset.sum_range_succ, Finset.sum_range_zero, be16_drop, List.drop_drop, Nat.reduceMul, Nat.reduceAdd]
    at hzero
  omega

theorem udpOk_of_length {p : List Byte} (h : 20 ≤ p.length) (hmax : p.length ≤ 0xFFFF) :
    udpOk p = decide (0xFFFF - endAround (datagramSum p) = be16 p 26) := by
  have hsum : wordSum (pseudoHeader p (p.length - 20) ++ zeroed2 (p.drop 20) 6) = datagramSum p := by
    rw [wordSum_append (by rw [length_pseudoHeader h]), wordSum_pseudoHeader h (by omega), wordSum_zeroed_datagram,
      datagramSum]
    omega
  rw [udpOk, slice_to_length, csum16_eq_endAround, hsum, not16]

/-! ### Acceptance (R228) -/

theorem readablePacket_iff {p : List Byte} : readablePacket p = true ↔ 28 ≤ p.length ∧ be16 p 2 = p.length :=
  decide_eq_true_iff

theorem acceptPacket_eq_passesChecks (prm : Params) {p : List Byte} (h : readablePacket p = true) :
    acceptPacket prm p = passesChecks prm p := by
  obtain ⟨hmin, hfield⟩ := readablePacket_iff.mp h
  have hudp := udpOk_of_length (by omega) (hfield ▸ be16_le p 2)
  rw [acceptPacket, passesChecks, srcOk_eq, dstOk_eq, hudp, portOk_eq]
  cases prm.ipCsumMode with
  | compare => rw [ipOk_compare]
  | sumFFFF => rw [ipOk_sumFFFF]

theorem contribution_eq (prm : Params) {p : List Byte} (h : readablePacket p = true) :
    contribution prm p = if passesChecks prm p = true then p.drop 28 else [] := by
  rw [contribution, acceptPacket_eq_passesChecks prm h, slice_to_length]

/-! ### The scan (R229, R230) -/

theorem packetScan_of_short (prm : Params) (fuel off : Nat) {rest : List Byte} (out : List Byte)
    (h : rest.length < 20) : packetScan prm fuel off rest out = .ok out := by
  cases fuel with
  | zero => rfl
  | succ fuel => rw [packetScan, if_pos h]

theorem packetScan_of_malformed (prm : Params) (fuel off : Nat) {rest : List Byte} (out : List Byte)
    (h : 20 ≤ rest.length) (hbad : be16 rest 2 < 28 ∨ rest.length < be16 rest 2) :
    packetScan prm (fuel + 1) off rest out = .err .pktMalformed off := by
  rw [packetScan, if_neg (Nat.not_lt.mpr h)]
  exact if_pos hbad

theorem packetScan_append (prm : Params) (fuel off : Nat) {p : List Byte} (t out : List Byte)
    (h : readablePacket p = true) :
    packetScan prm (fuel + 1) off (p ++ t) out =
      packetScan prm fuel (off + p.length) t (out ++ contribution prm p) := by
  obtain ⟨hmin, hfield⟩ := readablePacket_iff.mp h
  have hlen : (p ++ t).length = p.length + t.length := List.length_append
  have htl : be16 (p ++ t) 2 = p.length := (be16_append p t (by omega)).trans hfield
  rw [packetScan, if_neg (by omega)]
  dsimp only
  rw [htl, if_neg (by omega), List.drop_left, List.take_left]

theorem packetScan_flatten_append (prm : Params) (fuel off : Nat) {packets : List (List Byte)} (t out : List Byte)
    (h : ∀ p ∈ packets, readablePacket p = true) :
    packetScan prm (packets.length + fuel) off (packets.flatten ++ t) out =
      packetScan prm fuel (off + packets.flatten.length) t (out ++ packets.flatMap (contribution prm)) := by
  induction packets generalizing off out with
  | nil => simp
  | cons p packets ih =>
    obtain ⟨hp, hrest⟩ := List.forall_mem_cons.mp h
    rw [List.flatten_cons, List.append_assoc, List.length_cons, Nat.add_right_comm, packetScan_append _ _ _ _ _ hp,
      ih _ _ hrest, List.length_append, Nat.add_assoc, List.append_assoc, List.flatMap_cons]

theorem length_le_length_flatten {packets : List (List Byte)} (h : ∀ p ∈ packets, readablePacket p = true) :
    packets.length ≤ packets.flatten.length := by
  induction packets with
  | nil => exact Nat.le_refl 0
  | cons p packets ih =>
    obtain ⟨hp, hrest⟩ := List.forall_mem_cons.mp h
    have hmin := (readablePacket_iff.mp hp).1
    have := ih hrest
    simp only [List.length_cons, List.flatten_cons, List.length_append]
    omega

/-- Past the packets back to back, the scan goes on with a byte of fuel for each byte left, and more. -/
theorem fPacket_flatten_append (prm : Params) {packets : List (List Byte)} (t : List Byte)
    (h : ∀ p ∈ packets, readablePacket p = true) :
    ∃ fuel, fPacket prm (packets.flatten ++ t) = packetScan prm (fuel + t.length) packets.flatten.length t
      (packets.flatMap (contribution prm)) := by
  obtain ⟨fuel, hfuel⟩ := Nat.exists_eq_add_of_le (length_le_length_flatten h)
  refine ⟨fuel, ?_⟩
  rw [fPacket, List.length_append]
  nth_rw 1 [hfuel]
  rw [Nat.add_assoc, packetScan_flatten_append prm _ _ _ _ h, Nat.zero_add, List.nil_append]

end Sys2Proof.Machine
end

section
/-! The PACKET unit (43_packet_extractor.md). -/

open Sys2Proof.Machine Sys2Proof.Safety

namespace Sys2Proof.Proofs

/-- Settles O48: the fold after each word keeps the end-around value of the sum so far. -/
theorem checksumIsTheEndAroundSum : Obligations.ChecksumIsTheEndAroundSum := by
  intro d
  rw [csum16_eq_endAround]
  exact ⟨endAround_le _, endAround_mod _, endAround_eq_zero_iff _⟩

/-- Settles O49: COMPARE asks that the checksum of the zeroed header and the stored one add up to 0xFFFF, SUM_FFFF that
they fold to it, which 2 * 0xFFFF does too. -/
theorem headerChecksumModesDifferOnlyAtFFFF : Obligations.HeaderChecksumModesDifferOnlyAtFFFF := by
  intro p _
  have hsum := endAround_le (headerSum p)
  have hstored := be16_le p 10
  rw [Bool.eq_iff_iff, ipOk_compare, ipOk_sumFFFF, csum16_zeroed_header, decide_eq_true_iff, decide_eq_true_iff,
    ← foldCarry_endAround_add _ hstored, foldCarry]
  split <;> omega

/-- Settles O50: the scan takes the packets one by one, what each contributes is what the statement's checks say, and
the tail ends it. -/
theorem packetOutputIsTheAcceptedPayloads : Obligations.PacketOutputIsTheAcceptedPayloads := by
  intro prm packets tail hpackets htail
  obtain ⟨fuel, hscan⟩ := fPacket_flatten_append prm tail hpackets
  rw [hscan, packetScan_of_short _ _ _ _ htail]
  exact congrArg UnitResult.ok (List.flatMap_congr fun p hp => contribution_eq prm (hpackets p hp))

/-- Settles O51: the scan reaches the packet it cannot read with fuel left. -/
theorem malformedPacketEndsTheJob : Obligations.MalformedPacketEndsTheJob := by
  intro prm packets rest hpackets hlen hbad
  obtain ⟨fuel, hscan⟩ := fPacket_flatten_append prm rest hpackets
  obtain ⟨n, hn⟩ := Nat.exists_eq_succ_of_ne_zero (show fuel + rest.length ≠ 0 by omega)
  rw [hscan, hn, packetScan_of_malformed _ _ _ _ hlen hbad]

end Sys2Proof.Proofs
end

section
/-! The rules of the AES-256 block cipher (45_aes_block_cipher.md R291–R299): each step of a round is undone by its
inverse step, so the decryption undoes the encryption one round key at a time. -/

namespace Sys2Proof.Machine

/-! ### Blocks as byte strings -/

@[simp] theorem length_bytes (st : Block) : st.bytes.length = 16 := rfl

@[simp] theorem loadBlock_bytes (st : Block) : loadBlock st.bytes = st := rfl

theorem bytes_loadBlock {b : List Byte} (h : b.length = 16) : (loadBlock b).bytes = b := by
  refine List.ext_getElem (by rw [length_bytes, h]) fun i hi hb => ?_
  rw [length_bytes] at hi
  interval_cases i <;> exact List.getD_eq_getElem _ _ hb

@[simp] theorem length_aesEncrypt (key block : List Byte) : (aesEncrypt key block).length = 16 := rfl

/-! ### The field and MixColumns are additive -/

/-- xtime without its branch: the reduction is a XOR of 0x1B or of 0 (R292). -/
theorem xtime_eq (x : Byte) : xtime x = (x <<< 1) ^^^ (if x.getLsbD 7 then 0x1B else 0) := by
  unfold xtime
  split <;> simp

theorem xtime_xor (x y : Byte) : xtime (x ^^^ y) = xtime x ^^^ xtime y := by
  have hfold : (if (x ^^^ y).getLsbD 7 then (0x1B : Byte) else 0)
      = (if x.getLsbD 7 then 0x1B else 0) ^^^ (if y.getLsbD 7 then 0x1B else 0) := by
    rw [BitVec.getLsbD_xor]
    cases x.getLsbD 7 <;> cases y.getLsbD 7 <;> rfl
  rw [xtime_eq, xtime_eq x, xtime_eq y, hfold, BitVec.shiftLeft_xor_distrib]
  ac_rfl

theorem gmul_xor (x y c : Byte) : gmul (x ^^^ y) c = gmul x c ^^^ gmul y c := by
  have hterm (b : Bool) (p q : Byte) :
      (if b = true then p ^^^ q else 0) = (if b = true then p else 0) ^^^ (if b = true then q else 0) := by
    cases b <;> simp
  simp only [gmul, xtime_xor, hterm]
  ac_rfl

theorem gmul_two (x : Byte) : gmul x 2 = xtime x := by simp [gmul]

theorem gmul_three (x : Byte) : gmul x 3 = x ^^^ xtime x := by simp [gmul]

theorem gmul_nine (x : Byte) : gmul x 9 = x ^^^ xtime (xtime (xtime x)) := by simp [gmul]

theorem gmul_eleven (x : Byte) : gmul x 11 = x ^^^ xtime x ^^^ xtime (xtime (xtime x)) := by simp [gmul]

theorem gmul_thirteen (x : Byte) : gmul x 13 = x ^^^ xtime (xtime x) ^^^ xtime (xtime (xtime x)) := by simp [gmul]

theorem gmul_fourteen (x : Byte) : gmul x 14 = xtime x ^^^ xtime (xtime x) ^^^ xtime (xtime (xtime x)) := by
  simp [gmul]

/-! ### MixColumns: additive, the same for every row, and undone on a column of one byte -/

theorem mixCol_xor (w u : Col) : mixCol (w.xor u) = (mixCol w).xor (mixCol u) := by
  simp only [mixCol, Col.xor, gmul_xor, Col.mk.injEq]
  refine ⟨?_, ?_, ?_, ?_⟩ <;> ac_rfl

theorem invMixCol_xor (w u : Col) : invMixCol (w.xor u) = (invMixCol w).xor (invMixCol u) := by
  simp only [invMixCol, Col.xor, gmul_xor, Col.mk.injEq]
  refine ⟨?_, ?_, ?_, ?_⟩ <;> ac_rfl

theorem mixCol_rotWord (w : Col) : mixCol (rotWord w) = rotWord (mixCol w) := by
  simp only [mixCol, rotWord, Col.mk.injEq]
  refine ⟨?_, ?_, ?_, ?_⟩ <;> ac_rfl

theorem invMixCol_rotWord (w : Col) : invMixCol (rotWord w) = rotWord (invMixCol w) := by
  simp only [invMixCol, rotWord, Col.mk.injEq]
  refine ⟨?_, ?_, ?_, ?_⟩ <;> ac_rfl

/-- A column is the XOR of four columns of one byte, each turned to its row. -/
theorem xor_rotWord_singles (w : Col) :
    (Col.xor ⟨w.s0, 0, 0, 0⟩ (rotWord (rotWord (rotWord ⟨w.s1, 0, 0, 0⟩)))).xor
      (Col.xor (rotWord (rotWord ⟨w.s2, 0, 0, 0⟩)) (rotWord ⟨w.s3, 0, 0, 0⟩)) = w := by
  simp [Col.xor, rotWord]

theorem invMixCol_mixCol_single (x : Byte) : invMixCol (mixCol ⟨x, 0, 0, 0⟩) = ⟨x, 0, 0, 0⟩ := by
  have hmix : mixCol ⟨x, 0, 0, 0⟩ = ⟨xtime x, x, x, x ^^^ xtime x⟩ := by
    have hzero : xtime 0#8 = 0#8 := rfl
    simp only [mixCol, gmul_two, gmul_three]
    simp [hzero]
  simp only [hmix, invMixCol, gmul_nine, gmul_eleven, gmul_thirteen, gmul_fourteen, xtime_xor, Col.mk.injEq]
  refine ⟨?_, ?_, ?_, ?_⟩ <;>
  · ext i
    simp only [BitVec.getElem_xor]
    grind

theorem invMixCol_mixCol (w : Col) : invMixCol (mixCol w) = w := by
  rw [← xor_rotWord_singles w]
  simp only [mixCol_xor, mixCol_rotWord, invMixCol_xor, invMixCol_rotWord, invMixCol_mixCol_single]

/-! ### Each step of a round is undone -/

/-- The inverse table undoes the table (R294). -/
theorem invSbox_sbox : ∀ x : Byte, invSbox (sbox x) = x := by decide +kernel

theorem invSubBytes_subBytes (st : Block) : invSubBytes (subBytes st) = st := by
  simp [invSubBytes, subBytes, Block.mapCols, Col.map, invSbox_sbox]

theorem invShiftRows_shiftRows (st : Block) : invShiftRows (shiftRows st) = st := rfl

theorem invMixColumns_mixColumns (st : Block) : invMixColumns (mixColumns st) = st := by
  simp [invMixColumns, mixColumns, Block.mapCols, invMixCol_mixCol]

theorem addRoundKey_addRoundKey (rk st : Block) : addRoundKey rk (addRoundKey rk st) = st := by
  simp [addRoundKey, Col.xor]

/-! ### The rounds -/

theorem encryptRounds_cons_cons (rk rk' : Block) (rks : List Block) (st : Block) :
    encryptRounds (rk :: rk' :: rks) st
      = encryptRounds (rk' :: rks) (addRoundKey rk (mixColumns (shiftRows (subBytes st)))) := rfl

theorem decryptRounds_cons_cons (rk rk' : Block) (rks : List Block) (st : Block) :
    decryptRounds (rk :: rk' :: rks) st
      = decryptRounds (rk' :: rks) (invMixColumns (addRoundKey rk (invSubBytes (invShiftRows st)))) := rfl

/-- Decryption takes the keys in the opposite order, so the last round of the encryption is undone first; what is left
is the state in which the rounds began, past the substitution of their first. -/
theorem decryptWith_encryptRounds (rks : List Block) (rk k : Block) (ks : List Block) (st : Block) :
    decryptWith ((rk :: rks).reverse ++ k :: ks) (encryptRounds (rk :: rks) st)
      = decryptRounds (k :: ks) (shiftRows (subBytes st)) := by
  induction rks generalizing rk k ks st with
  | nil => exact congrArg (decryptRounds (k :: ks)) (addRoundKey_addRoundKey rk _)
  | cons rk' rks ih =>
    rw [List.reverse_cons, List.append_assoc, List.singleton_append, encryptRounds_cons_cons, ih,
      decryptRounds_cons_cons, invShiftRows_shiftRows, invSubBytes_subBytes, addRoundKey_addRoundKey,
      invMixColumns_mixColumns]

theorem decryptWith_encryptWith (rks : List Block) (st : Block) :
    decryptWith rks.reverse (encryptWith rks st) = st := by
  match rks with
  | [] => rfl
  | [rk] => exact addRoundKey_addRoundKey rk st
  | rk :: rk' :: rks =>
    rw [List.reverse_cons, encryptWith, decryptWith_encryptRounds, decryptRounds, invShiftRows_shiftRows,
      invSubBytes_subBytes, addRoundKey_addRoundKey]

theorem aesDecrypt_aesEncrypt (key : List Byte) {block : List Byte} (h : block.length = 16) :
    aesDecrypt key (aesEncrypt key block) = block := by
  rw [aesDecrypt, aesEncrypt, loadBlock_bytes, decryptWith_encryptWith, bytes_loadBlock h]

end Sys2Proof.Machine
end

section
/-! The rules of counter mode (44_key_unwrap_ctr.md R264): its output byte by byte, from which running it twice gives
the payload back. -/

namespace Sys2Proof.Machine

open Sys2Proof.Safety

/-! ### Byte strings by position -/

theorem byteAt_append_left {s : List Byte} (t : List Byte) {m : Nat} (h : m < s.length) :
    byteAt (s ++ t) m = byteAt s m := by
  rw [byteAt, byteAt, List.getD_append _ _ _ _ h]

theorem byteAt_append_right {s : List Byte} (t : List Byte) {m : Nat} (h : s.length ≤ m) :
    byteAt (s ++ t) m = byteAt t (m - s.length) := by
  rw [byteAt, byteAt, List.getD_append_right _ _ _ _ h]

theorem eq_of_byteAt {s t : List Byte} (hl : s.length = t.length) (h : ∀ m < t.length, byteAt s m = byteAt t m) :
    s = t := by
  refine List.ext_getElem hl fun m hs ht => ?_
  simpa [byteAt, hs, ht] using h m ht

theorem length_xorBytes {s t : List Byte} (h : s.length ≤ t.length) : (xorBytes s t).length = s.length := by
  rw [xorBytes, List.length_zipWith, Nat.min_eq_left h]

theorem byteAt_xorBytes {s t : List Byte} {m : Nat} (hs : m < s.length) (ht : m < t.length) :
    byteAt (xorBytes s t) m = byteAt s m ^^^ byteAt t m := by
  simp [xorBytes, byteAt, hs, ht]

/-! ### The blocks -/

@[simp] theorem length_keystream (cek : List Byte) (ctr : U128) : (keystream cek ctr).length = 16 := rfl

theorem keystreamByte_eq_byteAt_keystream (cek : List Byte) (ctr : U128) {m : Nat} (h : m < 16) :
    keystreamByte cek ctr m = byteAt (keystream cek ctr) m := by
  rw [keystreamByte, keystream, Nat.div_eq_of_lt h, Nat.mod_eq_of_lt h, Nat.add_zero, Nat.mod_eq_of_lt ctr.isLt]

theorem keystreamByte_nextCounter (width : CtrIncWidth) (cek : List Byte) (ctr : U128) (m : Nat) :
    keystreamByte cek (nextCounter width ctr) m = keystreamByte cek ctr (m + 16) := by
  have hblock : ((nextCounter width ctr).toNat + m / 16) % 2 ^ 128 = (ctr.toNat + (m + 16) / 16) % 2 ^ 128 := by
    have hone : (1 : U128).toNat = 1 := rfl
    rw [nextCounter, BitVec.toNat_add, hone, Nat.mod_add_mod, Nat.add_div_right m (by decide)]
    congr 1
    omega
  rw [keystreamByte, keystreamByte, hblock, Nat.add_mod_right]

theorem length_ctrBlocks (width : CtrIncWidth) (cek : List Byte) {n : Nat} (ctr : U128) {p : List Byte}
    (h : p.length ≤ 16 * n) : (ctrBlocks width cek n ctr p).length = p.length := by
  induction n generalizing ctr p with
  | zero => exact (Nat.le_zero.mp h).symm
  | succ n ih =>
    rw [ctrBlocks, List.length_append, length_xorBytes (by simp), List.length_take, ih _ (by simp; omega),
      List.length_drop]
    omega

theorem byteAt_ctrBlocks (width : CtrIncWidth) (cek : List Byte) {n : Nat} (ctr : U128) {p : List Byte} {m : Nat}
    (h : p.length ≤ 16 * n) (hm : m < p.length) :
    byteAt (ctrBlocks width cek n ctr p) m = byteAt p m ^^^ keystreamByte cek ctr m := by
  induction n generalizing ctr p m with
  | zero => omega
  | succ n ih =>
    have hlen : (xorBytes (p.take 16) (keystream cek ctr)).length = min 16 p.length := by
      rw [length_xorBytes (by simp), List.length_take]
    rw [ctrBlocks]
    by_cases hfirst : m < 16
    · rw [byteAt_append_left _ (by omega), byteAt_xorBytes (by simp; omega) hfirst, byteAt_take _ hfirst,
        keystreamByte_eq_byteAt_keystream _ _ hfirst]
    · have hmin : min 16 p.length = 16 := by omega
      rw [byteAt_append_right _ (by omega), hlen, hmin, ih _ (by simp; omega) (by simp; omega), byteAt_drop,
        keystreamByte_nextCounter, Nat.add_sub_cancel' (by omega), Nat.sub_add_cancel (by omega)]

/-! ### The whole payload -/

@[simp] theorem length_ctrDecrypt (width : CtrIncWidth) (cek : List Byte) (nonce : U128) (p : List Byte) :
    (ctrDecrypt width cek nonce p).length = p.length :=
  length_ctrBlocks width cek nonce (by omega)

theorem byteAt_ctrDecrypt (width : CtrIncWidth) (cek : List Byte) (nonce : U128) {p : List Byte} {m : Nat}
    (h : m < p.length) : byteAt (ctrDecrypt width cek nonce p) m = byteAt p m ^^^ keystreamByte cek nonce m :=
  byteAt_ctrBlocks width cek nonce (by omega) h

theorem ctrDecrypt_ctrDecrypt (width : CtrIncWidth) (cek : List Byte) (nonce : U128) (p : List Byte) :
    ctrDecrypt width cek nonce (ctrDecrypt width cek nonce p) = p := by
  refine eq_of_byteAt (by simp) fun m hm => ?_
  rw [byteAt_ctrDecrypt _ _ _ (by simpa using hm), byteAt_ctrDecrypt _ _ _ hm, BitVec.xor_assoc, BitVec.xor_self,
    BitVec.xor_zero]

end Sys2Proof.Machine
end

section
/-! The rules of the key unwrap and of the unit's input (44_key_unwrap_ctr.md R260–R265): a round of the unwrap
undoes a round of the wrap, and each field of an input is read back at its place. -/

namespace Sys2Proof.Machine

open Sys2Proof.Safety

/-! ### The key blocks -/

section keyBlocks

variable (w : WrapState) (k : Nat) (x : List Byte) (a : U64)

@[simp] theorem getR_setA : ({ w with a := a } : WrapState).getR k = w.getR k := by
  match k with
  | 0 | 1 | 2 | _ + 3 => rfl

@[simp] theorem getR_setR_same : (w.setR k x).getR k = x := by
  match k with
  | 0 | 1 | 2 | _ + 3 => rfl

theorem getR_setR_cases (i : Nat) : (w.setR k x).getR i = x ∨ (w.setR k x).getR i = w.getR i := by
  match i, k with
  | 0, 0 | 1, 1 | 2, 2 | _ + 3, _ + 3 => exact .inl rfl
  | 0, 1 | 0, 2 | 0, _ + 3 | 1, 0 | 1, 2 | 1, _ + 3 | 2, 0 | 2, 1 | 2, _ + 3 | _ + 3, 0 | _ + 3, 1 | _ + 3, 2 =>
    exact .inr rfl

theorem setR_setR_getR (b : U64) :
    ({ ({ w.setR k x with a := a } : WrapState).setR k (w.getR k) with a := b } : WrapState) = { w with a := b } := by
  match k with
  | 0 | 1 | 2 | _ + 3 => rfl

end keyBlocks

/-- Every key block holds 8 bytes (R262). -/
def WrapState.blocksOk (w : WrapState) : Prop :=
  ∀ k, (w.getR k).length = 8

theorem blocksOk_of_lengths {w : WrapState} (h0 : w.r0.length = 8) (h1 : w.r1.length = 8) (h2 : w.r2.length = 8)
    (h3 : w.r3.length = 8) : w.blocksOk
  | 0 => h0
  | 1 => h1
  | 2 => h2
  | _ + 3 => h3

/-! ### The 64-bit block and the two halves of a cipher block -/

theorem toBe_be64 {b : List Byte} (h : b.length = 8) : toBe (be64 b).toNat 8 = b := by
  have hlt : beVal b < 2 ^ 64 := by simpa [h] using beVal_lt b
  rw [be64, BitVec.toNat_ofNat, Nat.mod_eq_of_lt hlt, ← h, toBe_beVal]

theorem slice_self {s : List Byte} {n : Nat} (h : s.length = n) : slice s 0 n = s := by
  simp [slice, ← h]

theorem slice_append_of_le {s : List Byte} (t : List Byte) {i j : Nat} (h : j ≤ s.length) :
    slice (s ++ t) i j = slice s i j := by
  have hnone : j - i - (s.length - i) = 0 := by omega
  rw [slice, slice, List.drop_append, List.take_append, List.length_drop, hnone, List.take_zero, List.append_nil]

theorem slice_append_right {s t : List Byte} {m n : Nat} (hs : s.length = m) (ht : t.length = n - m) :
    slice (s ++ t) m n = t := by
  rw [slice, List.drop_left' hs, List.take_of_length_le ht.le]

theorem slice_append_slice {b : List Byte} {m n : Nat} (hm : m ≤ n) (hb : b.length = n) :
    slice b 0 m ++ slice b m n = b := by
  rw [slice, slice, List.drop_zero, Nat.sub_zero, ← List.take_add, Nat.add_sub_cancel' hm,
    List.take_of_length_le hb.le]

/-! ### Wrap and unwrap -/

/-- The unwrap's cipher block is the wrap's, whose decryption is the block A and the key block that the wrap began
with. -/
theorem unwrapRound_wrapRound (kek : List Byte) (j i : Nat) {w : WrapState} (h : w.blocksOk) :
    unwrapRound kek j i (wrapRound kek j i w) = w := by
  have hlen : (toBe w.a.toNat 8).length = 8 := length_toBe _ _
  have hblock : (toBe w.a.toNat 8 ++ w.getR (i - 1)).length = 16 := by rw [List.length_append, hlen, h]
  have hcipher (b : List Byte) (hb : b.length = 16) :
      toBe (be64 (slice b 0 8)).toNat 8 ++ slice b 8 16 = b := by
    rw [toBe_be64 (length_slice (by omega)), slice_append_slice (by decide) hb]
  simp only [wrapRound, unwrapRound, getR_setA, getR_setR_same, BitVec.xor_assoc, BitVec.xor_self, BitVec.xor_zero]
  rw [hcipher _ (length_aesEncrypt _ _), aesDecrypt_aesEncrypt kek hblock, slice_append_of_le _ hlen.ge,
    slice_self hlen, slice_append_right hlen (h _), be64_toBe, setR_setR_getR]

theorem blocksOk_wrapRound (kek : List Byte) (j i : Nat) {w : WrapState} (h : w.blocksOk) :
    (wrapRound kek j i w).blocksOk := by
  intro k
  rw [wrapRound, getR_setA]
  rcases getR_setR_cases w (i - 1) _ k with hk | hk
  · rw [hk]
    exact length_slice (by simp)
  · rw [hk, h k]

theorem blocksOk_wrapPass (kek : List Byte) (j : Nat) {w : WrapState} (h : w.blocksOk) :
    (wrapPass kek j w).blocksOk :=
  blocksOk_wrapRound _ _ _ (blocksOk_wrapRound _ _ _ (blocksOk_wrapRound _ _ _ (blocksOk_wrapRound _ _ _ h)))

theorem unwrapPass_wrapPass (kek : List Byte) (j : Nat) {w : WrapState} (h : w.blocksOk) :
    unwrapPass kek j (wrapPass kek j w) = w := by
  have h1 := blocksOk_wrapRound kek j 1 h
  have h2 := blocksOk_wrapRound kek j 2 h1
  have h3 := blocksOk_wrapRound kek j 3 h2
  rw [wrapPass, unwrapPass, unwrapRound_wrapRound kek j 4 h3, unwrapRound_wrapRound kek j 3 h2,
    unwrapRound_wrapRound kek j 2 h1, unwrapRound_wrapRound kek j 1 h]

theorem blocksOk_wrapKey (kek : List Byte) {w : WrapState} (h : w.blocksOk) : (wrapKey kek w).blocksOk :=
  blocksOk_wrapPass _ _ (blocksOk_wrapPass _ _ (blocksOk_wrapPass _ _ (blocksOk_wrapPass _ _ (blocksOk_wrapPass _ _
    (blocksOk_wrapPass _ _ h)))))

theorem unwrapKey_wrapKey (kek : List Byte) {w : WrapState} (h : w.blocksOk) : unwrapKey kek (wrapKey kek w) = w := by
  have h0 := blocksOk_wrapPass kek 0 h
  have h1 := blocksOk_wrapPass kek 1 h0
  have h2 := blocksOk_wrapPass kek 2 h1
  have h3 := blocksOk_wrapPass kek 3 h2
  have h4 := blocksOk_wrapPass kek 4 h3
  rw [wrapKey, unwrapKey, unwrapPass_wrapPass kek 5 h4, unwrapPass_wrapPass kek 4 h3, unwrapPass_wrapPass kek 3 h2,
    unwrapPass_wrapPass kek 2 h1, unwrapPass_wrapPass kek 1 h0, unwrapPass_wrapPass kek 0 h]

/-! ### The fields of an input -/

theorem slice_eq_of_take_eq {s t : List Byte} {n i j : Nat} (h : s.take n = t.take n) (hj : j ≤ n) :
    slice s i j = slice t i j := by
  have hslice (u : List Byte) : slice u i j = ((u.take n).take j).drop i := by
    rw [slice, List.take_take, Nat.min_eq_left hj, List.drop_take]
  rw [hslice, hslice, h]

theorem slice_eq_of_drop_eq {s t : List Byte} {n i : Nat} (h : s.drop n = t.drop n) (hi : n ≤ i) (j : Nat) :
    slice s i j = slice t i j := by
  have hslice (u : List Byte) : slice u i j = ((u.drop n).drop (i - n)).take (j - i) := by
    rw [slice, List.drop_drop, Nat.add_sub_cancel' hi]
  rw [hslice, hslice, h]

/-- Each field of an input is read back at its place (R260). -/
theorem fields_unwrapJobInput {kek iv nonce : List Byte} {w : WrapState} (payload : List Byte) (hkek : kek.length = 32)
    (hiv : iv.length = 8) (hw : w.blocksOk) (hnonce : nonce.length = 16) :
    slice (unwrapJobInput kek iv w nonce payload) 0 32 = kek ∧
    slice (unwrapJobInput kek iv w nonce payload) 32 40 = iv ∧
    wrappedKey (unwrapJobInput kek iv w nonce payload) = w ∧
    slice (unwrapJobInput kek iv w nonce payload) 80 96 = nonce ∧
    (unwrapJobInput kek iv w nonce payload).drop 96 = payload := by
  have h0 : w.r0.length = 8 := hw 0
  have h1 : w.r1.length = 8 := hw 1
  have h2 : w.r2.length = 8 := hw 2
  have h3 : w.r3.length = 8 := hw 3
  refine ⟨?_, ?_, ?_, ?_, List.drop_left' (by simp [hkek, hiv, h0, h1, h2, h3, hnonce])⟩ <;>
    simp (disch := simp [hkek, hiv, h0, h1, h2, h3, hnonce]) only [unwrapJobInput, wrappedKey, slice_append_of_le,
      slice_append_right, slice_self, be64_toBe]

/-! ### The unit's result -/

/-- The output of an input whose check does not fail (R265). -/
def unwrappedPayload (prm : Params) (s : List Byte) : List Byte :=
  ctrDecrypt prm.ctrIncWidth (unwrapInput s).cek (BitVec.ofNat 128 (beVal (slice s 80 96))) (s.drop 96)

theorem length_unwrappedPayload (prm : Params) (s : List Byte) : (unwrappedPayload prm s).length = s.length - 96 := by
  rw [unwrappedPayload, length_ctrDecrypt, List.length_drop]

theorem fUnwrap_of_short (prm : Params) {s : List Byte} (h : s.length < 96) :
    fUnwrap prm s = .err .unwrapShortInput s.length :=
  if_pos h

theorem fUnwrap_of_length (prm : Params) {s : List Byte} (h : 96 ≤ s.length) :
    fUnwrap prm s =
      if prm.unwrapCheckIv = true ∧ (unwrapInput s).a ≠ be64 (slice s 32 40) then .err .unwrapIntegrity 0
      else .ok (unwrappedPayload prm s) := by
  simp only [fUnwrap, if_neg h.not_gt, slice_to_length, Bool.and_eq_true, decide_eq_true_eq, unwrappedPayload]

/-- Without the check, the unit reads the first 32 bytes of an input and those from 40 on (R263). -/
theorem fUnwrap_congr {prm : Params} (hcheck : prm.unwrapCheckIv = false) {s t : List Byte} (hs : 96 ≤ s.length)
    (ht : t.take 32 = s.take 32) (hd : t.drop 40 = s.drop 40) : fUnwrap prm t = fUnwrap prm s := by
  have hlen : 96 ≤ t.length := by
    have := congrArg List.length hd
    simp only [List.length_drop] at this
    omega
  have hkek := slice_eq_of_take_eq ht (i := 0) (le_refl _)
  have hfield {i : Nat} (hi : 40 ≤ i) (j : Nat) := slice_eq_of_drop_eq hd hi j
  have hpayload : t.drop 96 = s.drop 96 := by
    simpa only [List.drop_drop] using congrArg (List.drop 56) hd
  have hkey : unwrapInput t = unwrapInput s := by
    simp (disch := decide) only [unwrapInput, wrappedKey, hkek, hfield]
  have hresult : unwrappedPayload prm t = unwrappedPayload prm s := by
    rw [unwrappedPayload, unwrappedPayload, hkey, hfield (by decide), hpayload]
  rw [fUnwrap_of_length prm hlen, fUnwrap_of_length prm hs, if_neg (by simp [hcheck]), if_neg (by simp [hcheck]),
    hresult]

end Sys2Proof.Machine
end

section
/-! The UNWRAP unit (44_key_unwrap_ctr.md). -/

open Sys2Proof.Machine Sys2Proof.Safety

namespace Sys2Proof.Proofs

/-- Settles O52: the length and the check decide the result, and without the check the field at 32 is not read. -/
theorem unwrapErrorsAndOutputLength : Obligations.UnwrapErrorsAndOutputLength := by
  intro prm s
  refine ⟨fUnwrap_of_short prm, fun hs =>
    ⟨fun hcheck => ⟨?_, fun iv hiv => ?_⟩, fun hcheck => ⟨fun hne => ?_, fun heq => ?_⟩⟩⟩
  · refine ⟨unwrappedPayload prm s, ?_, length_unwrappedPayload prm s⟩
    rw [fUnwrap_of_length prm hs, if_neg (by simp [hcheck])]
  · have hhead : (s.take 32).length = 32 := by rw [List.length_take]; omega
    refine fUnwrap_congr hcheck hs ?_ ?_
    · rw [List.append_assoc, List.take_left' hhead]
    · exact List.drop_left' (by rw [List.length_append, hhead, hiv])
  · rw [fUnwrap_of_length prm hs, if_pos ⟨hcheck, hne⟩]
  · refine ⟨unwrappedPayload prm s, ?_, length_unwrappedPayload prm s⟩
    rw [fUnwrap_of_length prm hs, if_neg (fun h => h.2 heq)]

/-- Settles O53, by the position of a byte in its block. -/
theorem counterModeXorsTheKeystream : Obligations.CounterModeXorsTheKeystream :=
  fun width cek nonce p => ⟨length_ctrDecrypt width cek nonce p, fun _ => byteAt_ctrDecrypt width cek nonce⟩

/-- Settles O55: the unwrap gives the wrapped key back, and counter mode under it undoes itself. -/
theorem unwrapRecoversTheWrappedPayload : Obligations.UnwrapRecoversTheWrappedPayload := by
  intro prm kek iv nonce payload w hkek hiv hnonce h0 h1 h2 h3
  have hw := blocksOk_of_lengths h0 h1 h2 h3
  obtain ⟨hk, hi, hwrapped, hn, hp⟩ := fields_unwrapJobInput
    (ctrDecrypt prm.ctrIncWidth w.cek (BitVec.ofNat 128 (beVal nonce)) payload) hkek hiv
    (blocksOk_wrapKey kek hw) hnonce
  generalize unwrapJobInput kek iv (wrapKey kek w) nonce _ = s at hk hi hwrapped hn hp ⊢
  have hkey : unwrapInput s = w := by rw [unwrapInput, hk, hwrapped, unwrapKey_wrapKey kek hw]
  have hlen : 96 ≤ s.length := by
    have hslice := congrArg List.length hn
    simp only [slice, List.length_take, List.length_drop, hnonce] at hslice
    omega
  rw [fUnwrap_of_length prm hlen, unwrappedPayload, hkey, hi, hn, hp, ctrDecrypt_ctrDecrypt]
  simp only [ne_comm (a := w.a)]

end Sys2Proof.Proofs
end

section
/-! The rules of the AES-256 block cipher that need the whole of its finite domain (45_aes_block_cipher.md R293, R294,
R299): the encryption undoes the decryption as well, and the S-box is the affine map of the field inverse. -/

namespace Sys2Proof.Machine

open Sys2Proof.Safety

/-! ### The encryption undoes the decryption -/

theorem finite_block : Finite Block :=
  .of_injective (β := List.Vector Byte 16) (fun st => ⟨st.bytes, length_bytes st⟩) fun _ _ h =>
    Function.LeftInverse.injective loadBlock_bytes (congrArg Subtype.val h)

/-- There are finitely many blocks, so the injective encryption is onto, and its left inverse is a right inverse. -/
theorem encryptWith_decryptWith (rks : List Block) (st : Block) :
    encryptWith rks (decryptWith rks.reverse st) = st := by
  have hinv : Function.LeftInverse (decryptWith rks.reverse) (encryptWith rks) := decryptWith_encryptWith rks
  have := finite_block
  exact hinv.rightInverse_of_surjective (Finite.surjective_of_injective hinv.injective) st

theorem aesEncrypt_aesDecrypt (key : List Byte) {block : List Byte} (h : block.length = 16) :
    aesEncrypt key (aesDecrypt key block) = block := by
  rw [aesEncrypt, aesDecrypt, loadBlock_bytes, encryptWith_decryptWith, bytes_loadBlock h]

/-! ### The S-box -/

/-- The inverse of the affine map of R293 step 2: what step 1 must have given for the result `y`. -/
def invAffine (y : Byte) : Byte :=
  y.rotateLeft 1 ^^^ y.rotateLeft 3 ^^^ y.rotateLeft 6 ^^^ 0x05

theorem sboxBit_invAffine : ∀ (y : Byte) (j : Fin 8), sboxBit (invAffine y) j = y.getLsbD j := by decide +kernel

/-- The 256 table entries against x^254: the only place where the powers are computed. -/
theorem gfInverse_eq_invAffine_sbox : ∀ x : Byte, gfInverse x = invAffine (sbox x) := by decide +kernel

theorem gmul_invAffine_sbox : ∀ x : Byte, x ≠ 0 → gmul x (invAffine (sbox x)) = 1 := by decide +kernel

theorem gmul_gfInverse {x : Byte} (h : x ≠ 0) : gmul x (gfInverse x) = 1 := by
  rw [gfInverse_eq_invAffine_sbox, gmul_invAffine_sbox x h]

theorem gfInverse_zero : gfInverse 0 = 0 := rfl

theorem getLsbD_sbox (x : Byte) (j : Fin 8) : (sbox x).getLsbD j = sboxBit (gfInverse x) j := by
  rw [gfInverse_eq_invAffine_sbox, sboxBit_invAffine]

end Sys2Proof.Machine
end

section
/-! The AES-256 block cipher (45_aes_block_cipher.md). -/

open Sys2Proof.Machine Sys2Proof.Safety

namespace Sys2Proof.Proofs

/-- Settles O54: the rounds undo each other one key at a time, and an injection of the finitely many blocks is onto. -/
theorem aesDecryptAndEncryptAreInverse : Obligations.AesDecryptAndEncryptAreInverse :=
  fun key _ hlen => ⟨aesDecrypt_aesEncrypt key hlen, aesEncrypt_aesDecrypt key hlen⟩

/-- Settles O56: the inverse affine map of a table entry is both x^254 and the field inverse. -/
theorem sboxTablesMatchTheirDefinition : Obligations.SboxTablesMatchTheirDefinition := by
  refine ⟨fun x => ?_, getLsbD_sbox, invSbox_sbox⟩
  by_cases hx : x = 0
  · exact .inl ⟨hx ▸ gfInverse_zero, hx⟩
  · exact .inr (gmul_gfInverse hx)

end Sys2Proof.Proofs
end

section
/-! SUPPORT. The decoder for the fetch: what a valid opcode byte decodes to with any bytes after it, and the move
opcodes as the numbers the rules write them (30_encoding.md R121–R125). -/

namespace Sys2Proof

open Sys2Proof.Machine Sys2Proof.Safety

/-- Further bytes after those of an instruction are left over (30_encoding.md R127). -/
theorem decodeBytes_append {bytes rest : List Byte} {i : Instr} (h : decodeBytes bytes = .ok (i, rest))
    (more : List Byte) : decodeBytes (bytes ++ more) = .ok (i, rest ++ more) := by
  cases bytes with
  | nil => cases h
  | cons op t =>
    obtain ⟨imm, he, rfl⟩ := encodeBytes_of_decodeBytes h
    rw [← List.cons_append, ← he, List.append_assoc]
    exact decodeBytes_encodeBytes_append (isVm_of_decodeBytes h) _

theorem decodeBytes_of_invalid {op : Byte} (h : validOpcode op = false) (rest : List Byte) :
    decodeBytes (op :: rest) = .error .invalidOpcode :=
  invalidOpcode_of_invalidOpcode rest ((decodeBytes_singleton_eq_invalidOpcode_iff op).mpr h)

/-- Four bytes are enough after any valid opcode byte (30_encoding.md R120). -/
theorem exists_decodeBytes_of_valid {op : Byte} (h : validOpcode op = true) :
    ∃ i rest, decodeBytes [op, 0, 0, 0, 0] = .ok (i, rest) := by
  cases opcodeCase op with
  | alone i hd => exact ⟨i, _, hd _⟩
  | imm8 mk hd => exact ⟨_, _, hd _⟩
  | imm32 mk hd => exact ⟨_, _, hd _⟩
  | invalid hd =>
    have hf := (decodeBytes_singleton_eq_invalidOpcode_iff op).mp (hd [])
    exact absurd (h.symm.trans hf) (by decide)

/-- A valid opcode byte with too few bytes after it is truncated (46_bytecode_vm.md R321). -/
theorem decodeBytes_of_short {op : Byte} {rest : List Byte} (hv : validOpcode op = true)
    (hl : rest.length + 1 < opcodeLength op) : decodeBytes (op :: rest) = .error .truncated := by
  obtain ⟨_, _, h⟩ := exists_decodeBytes_of_valid hv
  rcases decodeBytes_of_opcodeLength h rest with ⟨_, e⟩ | ⟨hlong, _⟩
  · exact e
  · omega

/-- A valid opcode byte with exactly the bytes of its format decodes (46_bytecode_vm.md R321). -/
theorem exists_decodeBytes_of_length {op : Byte} {rest : List Byte} (hv : validOpcode op = true)
    (hl : rest.length + 1 = opcodeLength op) : ∃ i, decodeBytes (op :: rest) = .ok (i, []) := by
  obtain ⟨_, _, h⟩ := exists_decodeBytes_of_valid hv
  rcases decodeBytes_of_opcodeLength h rest with ⟨hshort, _⟩ | ⟨_, i, e⟩
  · omega
  · exact ⟨i, by rw [e, ← hl, Nat.add_sub_cancel, List.drop_length]⟩

theorem opcodeLength_bounds (op : Byte) : 1 ≤ opcodeLength op ∧ opcodeLength op ≤ 5 := by
  simp only [opcodeLength]
  split
  · decide
  · split <;> decide

/-- A move opcode as a number: kk = op[7:6], ddd = op[5:3], sss = op[2:0] (30_encoding.md R121). -/
theorem ofNat_eq_moveOpcode (kk : BitVec 2) (ddd sss : BitVec 3) :
    BitVec.ofNat 8 (64 * kk.toNat + 8 * ddd.toNat + sss.toNat) = moveOpcode kk ddd sss := by
  refine BitVec.eq_of_toNat_eq ?_
  rw [moveOpcode, BitVec.toNat_ofNat, toNat_append_eq, toNat_append_eq]
  omega

theorem toNat_le32 (b0 b1 b2 b3 : Byte) :
    (le32 b0 b1 b2 b3).toNat = b0.toNat + 256 * b1.toNat + 65536 * b2.toNat + 16777216 * b3.toNat := by
  simp only [le32, toNat_append_eq]
  omega

end Sys2Proof
end

section
/-! SUPPORT. The fetch (46_bytecode_vm.md R321). -/

namespace Sys2Proof.Machine

open Sys2Proof.Safety

/-- A run of bytes inside a memory with no holes is cut where we like. -/
theorem run_add {m : Memory} (hd : dense m = true) {a n : Nat} (h : a + n ≤ Memory.size m) (k : Nat) :
    Memory.run m a (n + k) = Memory.run m a n ++ Memory.run m (a + n) k := by
  induction n generalizing a with
  | zero => simp [Memory.run]
  | succ n ih =>
    obtain ⟨x, hx⟩ := exists_get?_of_lt hd (show a < Memory.size m by omega)
    rw [Nat.add_right_comm, run_succ_of_get? hx, run_succ_of_get? hx, ih (by omega), List.cons_append,
      Nat.add_right_comm a 1 n, Nat.add_assoc]

theorem vmFetch_of_ok {v : VmState} {i : Instr} {rest : List Byte} (h : decodeBytes (fetchWindow v) = .ok (i, rest)) :
    vmFetch v = .ok i := by
  simp [vmFetch, h]

theorem fetchWindow_of_get? {v : VmState} {op : Byte} (hop : Memory.get? v.mem v.pc.toNat = some op) :
    fetchWindow v = op :: Memory.run v.mem (v.pc.toNat + 1) 4 :=
  run_succ_of_get? hop

theorem vmFetch_of_invalid {v : VmState} {op : Byte} (hop : Memory.get? v.mem v.pc.toNat = some op)
    (h : validOpcode op = false) : vmFetch v = .error .vmInvalidOpcode := by
  simp [vmFetch, fetchWindow_of_get? hop, decodeBytes_of_invalid h]

section fetch
variable {v : VmState} (hd : dense v.mem = true)
include hd

theorem vmFetch_of_past_end (h : Memory.size v.mem ≤ v.pc.toNat) : vmFetch v = .error .vmFetchOob := by
  have hw : fetchWindow v = [] := run_succ_of_none (get?_eq_none_of_size_le hd h)
  simp [vmFetch, hw, decodeBytes]

/-- An instruction that the memory ends within (46_bytecode_vm.md R321). -/
theorem vmFetch_of_cut_short {op : Byte} (hop : Memory.get? v.mem v.pc.toNat = some op)
    (hv : validOpcode op = true) (h : Memory.size v.mem < v.pc.toNat + opcodeLength op) :
    vmFetch v = .error .vmFetchOob := by
  have hpc := (get?_isSome_iff_lt hd v.pc.toNat).mp (by rw [hop]; rfl)
  have hdec := decodeBytes_of_short (rest := Memory.run v.mem (v.pc.toNat + 1) 4) hv (by rw [length_run hd]; omega)
  simp [vmFetch, fetchWindow_of_get? hop, hdec]

/-- An instruction that lies in memory is decoded from exactly its own bytes (46_bytecode_vm.md R321). -/
theorem exists_vmFetch_eq_ok {op : Byte} (hop : Memory.get? v.mem v.pc.toNat = some op)
    (hv : validOpcode op = true) (h : v.pc.toNat + opcodeLength op ≤ Memory.size v.mem) :
    ∃ i, decodeBytes (Memory.run v.mem v.pc.toNat (opcodeLength op)) = .ok (i, []) ∧ vmFetch v = .ok i := by
  obtain ⟨hpos, hle⟩ := opcodeLength_bounds op
  obtain ⟨n, hn⟩ := Nat.exists_eq_add_of_le' hpos
  have hrun : Memory.run v.mem v.pc.toNat (opcodeLength op) = op :: Memory.run v.mem (v.pc.toNat + 1) n := by
    rw [hn, run_succ_of_get? hop]
  obtain ⟨i, hi⟩ := exists_decodeBytes_of_length (rest := Memory.run v.mem (v.pc.toNat + 1) n) hv
    (by rw [length_run hd]; omega)
  rw [← hrun] at hi
  have hwindow := run_add hd h (5 - opcodeLength op)
  rw [Nat.add_sub_cancel' hle] at hwindow
  have hdec := decodeBytes_append hi (Memory.run v.mem (v.pc.toNat + opcodeLength op) (5 - opcodeLength op))
  rw [← hwindow] at hdec
  exact ⟨i, hi, vmFetch_of_ok hdec⟩

end fetch

theorem blockTurn_vmExec {s : State} {v : VmState} {i : Instr} (hj : s.job = .vm v) (hf : vmFetch v = .ok i) :
    blockTurn s = .run i s := by
  simp [blockTurn, hj, hf]

/-- A fetch that fails ends the job at its own pc (46_bytecode_vm.md R321, 60_exceptions.md R380). -/
theorem step_failedWith_of_vmFetch {s : State} {v : VmState} {code : ErrCode} (hh : s.host = []) (hj : s.job = .vm v)
    (hf : vmFetch v = .error code) : ∃ t, step s = .next t ∧ failedWith t code v.pc.toNat :=
  ⟨_, step_vmFetchFault hh hj hf, failedWith_jobFault s code v.pc⟩

/-- A state that steps to itself stays for ever. -/
theorem run_of_step_eq_self {s : State} (h : step s = .next s) (n : Nat) : Host.Core.run core n s = .next s := by
  have hcore : core.step s = .next s := h
  induction n with
  | zero => rfl
  | succ n ih => simp only [Host.Core.run, hcore, ih]

end Sys2Proof.Machine
end

section
/-! SUPPORT. The VM instructions as equations on the run (46_bytecode_vm.md R330–R343). -/

namespace Sys2Proof.Machine

open Sys2Proof.Safety

theorem withVm_self {s : State} {v : VmState} (hj : s.job = .vm v) : withVm s v = s := by
  rw [withVm, ← hj]

/-- A VM instruction whose body raises an error ends the job at its own address (46_bytecode_vm.md R343). -/
theorem vmInstr_failedWith {len : Nat} {body : VmState → Except ErrCode VmState} {s : State} {v : VmState}
    {code : ErrCode} (hj : s.job = .vm v) (hb : body (past v (BitVec.ofNat 32 len)) = .error code) :
    ∃ t, vmInstr len body s = .next t ∧ failedWith t code v.pc.toNat :=
  ⟨_, vmInstr_of_error hj hb, failedWith_jobFault s code v.pc⟩

/-! ### Operands of the byte moves (46_bytecode_vm.md R322, R323) -/

theorem exists_read8_eq_ok {v : VmState} {src : Opnd8} (hd : dense v.mem = true)
    (h : src = .ptrC → v.ea < Memory.size v.mem) : ∃ x, v.read8 src = .ok x := by
  cases src with
  | reg r => exact ⟨_, rfl⟩
  | ptrC =>
    obtain ⟨x, hx⟩ := exists_get?_of_lt hd (h rfl)
    exact ⟨x, by simp [VmState.read8, VmState.memRead, hx]⟩

theorem write8_ptrC_of_lt {v : VmState} (hd : dense v.mem = true) (h : v.ea < Memory.size v.mem) (x : Byte) :
    v.write8 .ptrC x = .ok { v with mem := Memory.set v.mem v.ea x } := by
  obtain ⟨b, hb⟩ := exists_get?_of_lt hd h
  simp [VmState.write8, VmState.memWrite, hb]

theorem write8_ptrC_of_size_le {v : VmState} (hd : dense v.mem = true) (h : Memory.size v.mem ≤ v.ea) (x : Byte) :
    v.write8 .ptrC x = .error .vmMemOob := by
  simp [VmState.write8, VmState.memWrite, get?_eq_none_of_size_le hd h]

theorem moveOpnd8_of_read8 {v : VmState} {src : Opnd8} {x : Byte} (h : v.read8 src = .ok x) (dst : Opnd8) :
    moveOpnd8 v dst src = v.write8 dst x := by
  simp [moveOpnd8, h]

/-- A move with a memory operand outside memory fails, whichever of its operands it is (46_bytecode_vm.md R339). -/
theorem moveOpnd8_of_size_le {v : VmState} {dst src : Opnd8} (hd : dense v.mem = true)
    (ho : dst = .ptrC ∨ src = .ptrC) (h : Memory.size v.mem ≤ v.ea) : moveOpnd8 v dst src = .error .vmMemOob := by
  cases hr : v.read8 src with
  | error code =>
    obtain ⟨_, rfl, _⟩ := read8_error hr
    simp [moveOpnd8, hr]
  | ok x =>
    rw [moveOpnd8_of_read8 hr]
    rcases ho with rfl | rfl
    · exact write8_ptrC_of_size_le hd h x
    · rcases read8_ok hr with ⟨_, hreg, _⟩ | ⟨_, hx⟩
      · cases hreg
      · cases hx.symm.trans (get?_eq_none_of_size_le hd h)

/-! ### What each instruction answers -/

section execEquations
variable {s : State} {v : VmState} (hj : s.job = .vm v)
include hj

theorem exec_out (h : v.out.length ≠ s.params.outCap) :
    exec .out s = .next (withVm s { past v 1 with out := v.out ++ [v.a] }) :=
  vmInstr_of_ok (len := lenN) (body := appendOut s.params.outCap) hj (if_neg h)

theorem exec_out_full (h : v.out.length = s.params.outCap) :
    ∃ t, exec .out s = .next t ∧ failedWith t .outOverflow v.pc.toNat :=
  vmInstr_failedWith (len := lenN) (body := appendOut s.params.outCap) hj (if_pos h)

theorem exec_cmp : exec .cmp s = .next (withVm s { past v 1 with f := cmpFlag v.a v.b }) := by
  rw [exec, execCmp]
  exact vmInstr_of_ok hj rfl

theorem exec_add : exec .add s = .next (withVm s { past v 1 with a := v.a + v.b }) := by
  rw [exec, execAdd]
  exact vmInstr_of_ok hj rfl

theorem exec_sub : exec .sub s = .next (withVm s { past v 1 with a := v.a - v.b }) := by
  rw [exec, execSub]
  exact vmInstr_of_ok hj rfl

theorem exec_xor : exec .xor s = .next (withVm s { past v 1 with a := v.a ^^^ v.b }) := by
  rw [exec, execXor]
  exact vmInstr_of_ok hj rfl

theorem exec_jez (imm32 : Word) :
    exec (.jez imm32) s = .next (withVm s (if v.f = 0 then { v with pc := imm32 } else past v 5)) := by
  rw [exec, execJez]
  exact vmInstr_of_ok hj (congrArg Except.ok (if_congr decide_eq_true_iff rfl rfl))

theorem exec_jnz (imm32 : Word) :
    exec (.jnz imm32) s = .next (withVm s (if v.f = 0 then past v 5 else { v with pc := imm32 })) := by
  rw [exec, execJnz]
  exact vmInstr_of_ok hj (congrArg Except.ok (if_congr decide_eq_true_iff rfl rfl))

theorem exec_aptr {imm8 : Byte} (h : v.ptr.toNat + imm8.toNat ≤ 0xFFFFFFFF) : exec (.aptr imm8) s =
    .next (withVm s { past v 2 with ptr := BitVec.ofNat 32 (v.ptr.toNat + imm8.toNat) }) :=
  vmInstr_of_ok (len := lenI8) (body := (advancePtr · imm8)) hj (if_neg (Nat.not_lt.mpr h))

theorem exec_aptr_overflow {imm8 : Byte} (h : 0xFFFFFFFF < v.ptr.toNat + imm8.toNat) :
    ∃ t, exec (.aptr imm8) s = .next t ∧ failedWith t .vmPtrOverflow v.pc.toNat :=
  vmInstr_failedWith (len := lenI8) (body := (advancePtr · imm8)) hj (if_pos h)

theorem exec_mv_outside {dst src : Opnd8} (hd : dense v.mem = true) (ho : dst = .ptrC ∨ src = .ptrC)
    (h : Memory.size v.mem ≤ v.ea) : ∃ t, exec (.mv dst src) s = .next t ∧ failedWith t .vmMemOob v.pc.toNat :=
  vmInstr_failedWith (len := lenN) (body := (moveOpnd8 · dst src)) hj (moveOpnd8_of_size_le (v := past v 1) hd ho h)

/-- A move writes its destination with the byte that the old registers and memory give (46_bytecode_vm.md R339). -/
theorem exec_mv {dst src : Opnd8} {x : Byte} {w : VmState} (hr : v.read8 src = .ok x)
    (hw : (past v 1).write8 dst x = .ok w) : exec (.mv dst src) s = .next (withVm s w) := by
  have hr' : (past v 1).read8 src = .ok x := (setPc_read8 v _ src).trans hr
  rw [exec, execMv]
  exact vmInstr_of_ok hj ((moveOpnd8_of_read8 hr' dst).trans hw)

theorem exec_mvi {dst : Opnd8} {imm8 : Byte} {w : VmState} (hw : (past v 2).write8 dst imm8 = .ok w) :
    exec (.mvi dst imm8) s = .next (withVm s w) := by
  rw [exec, execMvi]
  exact vmInstr_of_ok hj hw

theorem exec_mvi_outside (imm8 : Byte) (hd : dense v.mem = true) (h : Memory.size v.mem ≤ v.ea) :
    ∃ t, exec (.mvi .ptrC imm8) s = .next t ∧ failedWith t .vmMemOob v.pc.toNat :=
  vmInstr_failedWith (len := lenI8) (body := (VmState.write8 · .ptrC imm8)) hj
    (write8_ptrC_of_size_le (v := past v 2) hd h imm8)

theorem exec_mv32 (dst src : Reg32) :
    exec (.mv32 dst src) s = .next (withVm s ((past v 1).set32 dst ((past v 1).get32 src))) := by
  rw [exec, execMv32]
  exact vmInstr_of_ok hj rfl

theorem exec_mvi32 (dst : Reg32) (imm32 : Word) :
    exec (.mvi32 dst imm32) s = .next (withVm s ((past v 5).set32 dst imm32)) := by
  rw [exec, execMvi32]
  exact vmInstr_of_ok hj rfl

end execEquations

end Sys2Proof.Machine
end

section
/-! SUPPORT. What a VM instruction may write and which errors it may raise, by its body (46_bytecode_vm.md R324,
R343). -/

namespace Sys2Proof.Machine

open Sys2Proof.Safety

/-- Of a VM state only what the instruction may write, and pc, changes. -/
structure WritesOnly (i : Instr) (v w : VmState) : Prop where
  get8 : ∀ r, r ∉ dest8 i → w.get8 r = v.get8 r
  get32 : ∀ r, r ∉ dest32 i → r ≠ .pc → w.get32 r = v.get32 r
  out : i ≠ .out → w.out = v.out
  mem : ∀ addr, storeAddr v i ≠ some addr → Memory.get? w.mem addr = Memory.get? v.mem addr

theorem writesOnly_refl (i : Instr) (v : VmState) : WritesOnly i v v :=
  ⟨fun _ _ => rfl, fun _ _ _ => rfl, fun _ => rfl, fun _ _ => rfl⟩

theorem writesOnly_set8 {i : Instr} {r : Reg8} (hr : r ∈ dest8 i) (v : VmState) (x : Byte) :
    WritesOnly i v (v.set8 r x) where
  get8 _ hq := set8_get8_other v r x fun e => hq (e ▸ hr)
  get32 q _ _ := set8_get32 v r x q
  out _ := set8_out v r x
  mem _ _ := by rw [set8_mem]

theorem writesOnly_set32 {i : Instr} {r : Reg32} (hr : r ∈ dest32 i ∨ r = .pc) (v : VmState) (x : Word) :
    WritesOnly i v (v.set32 r x) where
  get8 q _ := set32_get8 v r x q
  get32 _ hq hpc := set32_get32_other v r x fun e => hr.elim (fun h => hq (e ▸ h)) fun h => hpc (e.trans h)
  out _ := set32_out v r x
  mem _ _ := by rw [set32_mem]

theorem writesOnly_out (v : VmState) (o : List Byte) : WritesOnly .out v { v with out := o } :=
  ⟨fun _ _ => rfl, fun _ _ _ => rfl, fun h => absurd rfl h, fun _ _ => rfl⟩

theorem writesOnly_store {i : Instr} {v : VmState} (ha : storeAddr v i = some v.ea) (x : Byte) :
    WritesOnly i v { v with mem := Memory.set v.mem v.ea x } :=
  ⟨fun _ _ => rfl, fun _ _ _ => rfl, fun _ => rfl,
    fun _ haddr => get?_set_other x fun e => haddr (ha.trans (congrArg some e.symm))⟩

/-- Neither a register but pc nor the address stored to depends on pc. -/
theorem writesOnly_of_past {i : Instr} {v w : VmState} {n : Word} (h : WritesOnly i (past v n) w) :
    WritesOnly i v w where
  get8 r hr := (h.get8 r hr).trans (setPc_get8 v _ r)
  get32 r hr hpc := (h.get32 r hr hpc).trans (setPc_get32 v _ hpc)
  out := h.out
  mem := h.mem

/-- The body of a VM instruction writes only what the instruction may, or raises one of its own errors. -/
def BodyWithin (i : Instr) (body : VmState → Except ErrCode VmState) : Prop :=
  ∀ v, (∃ w, body v = .ok w ∧ WritesOnly i v w) ∨ ∃ code ∈ execErrors i, body v = .error code

theorem bodyWithin_total {i : Instr} {g : VmState → VmState} (hg : ∀ v, WritesOnly i v (g v)) :
    BodyWithin i fun v => .ok (g v) :=
  fun v => .inl ⟨g v, rfl, hg v⟩

theorem bodyWithin_appendOut (cap : Nat) : BodyWithin .out (appendOut cap) := by
  intro v
  by_cases h : v.out.length = cap
  · exact .inr ⟨_, List.mem_singleton_self _, if_pos h⟩
  · exact .inl ⟨_, if_neg h, writesOnly_out v _⟩

theorem bodyWithin_advancePtr (imm8 : Byte) : BodyWithin (.aptr imm8) fun v => advancePtr v imm8 := by
  intro v
  by_cases h : v.ptr.toNat + imm8.toNat > 0xFFFFFFFF
  · exact .inr ⟨_, List.mem_singleton_self _, if_pos h⟩
  · exact .inl ⟨_, if_neg h, writesOnly_set32 (r := .ptr) (.inl (List.mem_singleton_self _)) v _⟩

/-- Writing an operand that the instruction may write. -/
theorem writesOnly_of_write8 {i : Instr} {v w : VmState} {dst : Opnd8} {x : Byte}
    (hreg : ∀ r, dst = .reg r → r ∈ dest8 i) (hmem : dst = .ptrC → storeAddr v i = some v.ea)
    (h : v.write8 dst x = .ok w) : WritesOnly i v w := by
  rcases write8_ok h with ⟨r, hd, rfl⟩ | ⟨hd, _, rfl⟩
  · exact writesOnly_set8 (hreg r hd) v x
  · exact writesOnly_store (hmem hd) x

theorem bodyWithin_mv (dst src : Opnd8) : BodyWithin (.mv dst src) fun v => moveOpnd8 v dst src := by
  intro v
  cases hm : moveOpnd8 v dst src with
  | ok w =>
    obtain ⟨x, _, hw⟩ := moveOpnd8_ok hm
    refine .inl ⟨w, hm, writesOnly_of_write8 ?_ ?_ hw⟩
    · rintro r rfl; exact List.mem_singleton_self r
    · rintro rfl; rfl
  | error code =>
    obtain ⟨_, rfl, _⟩ := moveOpnd8_error hm
    exact .inr ⟨_, List.mem_singleton_self _, hm⟩

theorem bodyWithin_mvi (dst : Opnd8) (imm8 : Byte) : BodyWithin (.mvi dst imm8) fun v => v.write8 dst imm8 := by
  intro v
  cases hw : v.write8 dst imm8 with
  | ok w =>
    refine .inl ⟨w, hw, writesOnly_of_write8 ?_ ?_ hw⟩
    · rintro r rfl; exact List.mem_singleton_self r
    · rintro rfl; rfl
  | error code =>
    obtain ⟨_, rfl, _⟩ := write8_error hw
    exact .inr ⟨_, List.mem_singleton_self _, hw⟩

theorem writesOnly_ite {i : Instr} {v w₁ w₂ : VmState} (c : Bool) (h₁ : WritesOnly i v w₁) (h₂ : WritesOnly i v w₂) :
    WritesOnly i v (if c then w₁ else w₂) := by
  cases c with
  | true => exact h₁
  | false => exact h₂

/-- A jump writes pc alone. -/
theorem writesOnly_setPc (i : Instr) (v : VmState) (x : Word) : WritesOnly i v { v with pc := x } :=
  writesOnly_set32 (.inr rfl) v x

/-- The instruction executes as a body that stays within what it may do. -/
def ExecWithin (i : Instr) (s : State) : Prop :=
  ∃ len body, BodyWithin i body ∧ exec i s = vmInstr len body s

theorem execWithin_of_total {i : Instr} {s : State} {len : Nat} {g : VmState → VmState}
    (he : exec i s = vmInstr len (fun v => .ok (g v)) s) (hg : ∀ v, WritesOnly i v (g v)) : ExecWithin i s :=
  ⟨len, _, bodyWithin_total hg, he⟩

theorem execWithin_of_isVm {i : Instr} (hvm : i.isVm = true) (hne : i ≠ .halt) (s : State) : ExecWithin i s := by
  cases i with
  | halt => exact absurd rfl hne
  | out => exact ⟨lenN, _, bodyWithin_appendOut s.params.outCap, rfl⟩
  | cmp =>
    refine execWithin_of_total (by rw [exec, execCmp]) ?_
    exact fun v => writesOnly_set8 (r := .f) (List.mem_singleton_self _) v _
  | add =>
    refine execWithin_of_total (by rw [exec, execAdd]) ?_
    exact fun v => writesOnly_set8 (r := .a) (List.mem_singleton_self _) v _
  | sub =>
    refine execWithin_of_total (by rw [exec, execSub]) ?_
    exact fun v => writesOnly_set8 (r := .a) (List.mem_singleton_self _) v _
  | xor =>
    refine execWithin_of_total (by rw [exec, execXor]) ?_
    exact fun v => writesOnly_set8 (r := .a) (List.mem_singleton_self _) v _
  | aptr imm8 => exact ⟨lenI8, _, bodyWithin_advancePtr imm8, rfl⟩
  | jez imm32 =>
    refine execWithin_of_total (by rw [exec, execJez]) ?_
    exact fun v => writesOnly_ite _ (writesOnly_setPc _ v imm32) (writesOnly_refl _ v)
  | jnz imm32 =>
    refine execWithin_of_total (by rw [exec, execJnz]) ?_
    exact fun v => writesOnly_ite _ (writesOnly_refl _ v) (writesOnly_setPc _ v imm32)
  | mv dst src => exact ⟨lenN, _, bodyWithin_mv dst src, rfl⟩
  | mvi dst imm8 => exact ⟨lenI8, _, bodyWithin_mvi dst imm8, rfl⟩
  | mv32 dst src =>
    refine execWithin_of_total (by rw [exec, execMv32]) ?_
    exact fun v => writesOnly_set32 (.inl (List.mem_singleton_self dst)) v _
  | mvi32 dst imm32 =>
    refine execWithin_of_total (by rw [exec, execMvi32]) ?_
    exact fun v => writesOnly_set32 (.inl (List.mem_singleton_self dst)) v _
  | _ => cases hvm

/-- All a VM instruction but HALT can do in a run: change what it may, or end the job in one of its own errors. -/
theorem exec_within {i : Instr} {s : State} {v : VmState} (hvm : i.isVm = true) (hne : i ≠ .halt)
    (hj : s.job = .vm v) :
    (∃ w, exec i s = .next (withVm s w) ∧ WritesOnly i v w) ∨
    (∃ code ∈ execErrors i, exec i s = .next (jobFault s code v.pc)) := by
  obtain ⟨len, body, hbody, he⟩ := execWithin_of_isVm hvm hne s
  rw [he]
  rcases hbody (past v (BitVec.ofNat 32 len)) with ⟨w, hb, honly⟩ | ⟨code, hcode, hb⟩
  · exact .inl ⟨w, vmInstr_of_ok hj hb, writesOnly_of_past honly⟩
  · exact .inr ⟨code, hcode, vmInstr_of_error hj hb⟩

end Sys2Proof.Machine
end

section
/-! The VM's fetch and its instructions (46_bytecode_vm.md). -/

open Sys2Proof.Machine Sys2Proof.Safety

namespace Sys2Proof.Proofs

/-- Settles O22: the window of the fetch starts with the bytes of the instruction, as far as memory has them. -/
theorem fetchFaultsOrRuns : Obligations.FetchFaultsOrRuns := by
  intro s v hj hh hd
  refine ⟨fun h => step_failedWith_of_vmFetch hh hj (vmFetch_of_past_end hd h), fun hpc => ?_⟩
  obtain ⟨op, hop⟩ := exists_get?_of_lt hd hpc
  refine ⟨op, hop, fun hv => ?_, fun hv hlen => ?_, fun hv hlen => ?_⟩
  · exact step_failedWith_of_vmFetch hh hj (vmFetch_of_invalid hop hv)
  · exact step_failedWith_of_vmFetch hh hj (vmFetch_of_cut_short hd hop hv hlen)
  · obtain ⟨i, hdec, hf⟩ := exists_vmFetch_eq_ok hd hop hv hlen
    exact ⟨i, hdec, step_vmExec hh hj hf⟩

/-- Settles O30: the move reads its source, then writes its destination, both at the old registers. -/
theorem mvMovesAByte : Obligations.MvMovesAByte := by
  refine ⟨fun dst src rest => ?_, fun s v dst src hj hd => ⟨exec_mv_outside hj hd, fun hin => ?_⟩⟩
  · exact ofNat_eq_moveOpcode 1 _ _ ▸ decodeBytes_mv dst src rest
  · obtain ⟨x, hx⟩ := exists_read8_eq_ok (src := src) hd fun h => hin (.inr h)
    refine ⟨x, ?_, ?_, ?_, ?_⟩
    · rintro r rfl
      exact (Except.ok.inj hx).symm
    · rintro rfl
      rcases read8_ok hx with ⟨_, h, _⟩ | ⟨_, h⟩
      · cases h
      · exact h
    · rintro r rfl
      exact exec_mv hj hx rfl
    · rintro rfl
      exact exec_mv hj hx (write8_ptrC_of_lt (v := past v 1) hd (hin (.inl rfl)) x)

/-- Settles O31: the write of the destination at the old registers. -/
theorem mviWritesTheImmediate : Obligations.MviWritesTheImmediate := by
  refine ⟨fun dst imm8 rest => ?_, fun s v imm8 hj hd => ⟨fun r => exec_mvi hj rfl, fun h => ?_, ?_⟩⟩
  · exact ofNat_eq_moveOpcode 1 _ 0 ▸ decodeBytes_mvi dst (imm8 :: rest)
  · exact exec_mvi hj (write8_ptrC_of_lt (v := past v 2) hd h imm8)
  · exact exec_mvi_outside hj imm8 hd

/-- Settles O34: an instruction that goes on answers the state with its new run, within what it may write. -/
theorem vmInstructionFrame : Obligations.VmInstructionFrame := by
  intro i s t v v' hvm hj he hv'
  by_cases hi : i = .halt
  · subst hi
    cases (exec_halt hj).symm.trans he
    rw [(finishJob_keeps s _).1] at hv'
    cases hv'
  · rcases exec_within hvm hi hj with ⟨w, hw, honly⟩ | ⟨code, _, hf⟩
    · cases hw.symm.trans he
      cases hv'
      obtain ⟨h8, h32, hout, hmem⟩ := honly
      exact ⟨rfl, h8, h32, hout, fun addr ha => hmem addr (ha.elim (fun h => by simp [h]) id)⟩
    · cases hf.symm.trans he
      cases hv'

/-- Settles O35: HALT finishes the job; the body of any other instruction goes on or raises an error of its list. -/
theorem vmInstructionEnds : Obligations.VmInstructionEnds := by
  intro i s v hvm hj
  by_cases hi : i = .halt
  · subst hi
    exact ⟨_, exec_halt hj, fun h => absurd rfl h, fun _ => ⟨(finishJob_keeps s _).1, finishJob_state s _⟩⟩
  · rcases exec_within hvm hi hj with ⟨w, hw, _⟩ | ⟨code, hcode, hf⟩
    · exact ⟨_, hw, fun _ => .inl ⟨w, rfl⟩, fun h => absurd h hi⟩
    · exact ⟨_, hf, fun _ => .inr ⟨code, hcode, failedWith_jobFault s code v.pc⟩, fun h => absurd h hi⟩

/-- Settles O37: the jump is taken and writes the pc that is already there, so the state steps to itself. -/
theorem jumpToItselfNeverEnds : Obligations.JumpToItselfNeverEnds := by
  intro s v rest hj hh hf hdec
  have hstep : step s = .next s := by
    rw [step_vmExec hh hj (vmFetch_of_ok hdec), exec_jez hj, if_pos hf]
    exact congrArg _ (withVm_self hj)
  exact run_of_step_eq_self hstep

/-- Settles O5: each literal byte string and word, decoded. -/
theorem writtenOutWordsDecode : Obligations.WrittenOutWordsDecode :=
  ⟨rfl, rfl, rfl, rfl, rfl, rfl, rfl, rfl, rfl⟩

/-- Settles O20: on an empty list and on the action `turn` the block's turn runs what it fetches. -/
theorem stepRunsTheDecodedVmInstruction : Obligations.StepRunsTheDecodedVmInstruction := by
  intro s v i rest moves hj hdec
  have hf : vmFetch v = .ok i := vmFetch_of_ok hdec
  refine ⟨fun hh => step_vmExec hh hj hf, step_of_run ?_⟩
  exact blockTurn_vmExec (s := { s with host := moves }) hj hf

/-- Settles O24: HALT finishes the job with an output that fits. -/
theorem haltEndsTheJobWithTheOutput : Obligations.HaltEndsTheJobWithTheOutput := by
  refine ⟨decodeBytes_encodeBytes_append (i := .halt) rfl, fun s v hj hp hl => ⟨jobDone s v.out, ?_, ?_⟩⟩
  · rw [exec_halt hj, finishJob_of_fits hl]
  · exact ⟨doneWith_jobDone hp hl, rfl, rfl, rfl, rfl, rfl, rfl, rfl⟩

/-- Settles O25: the append of OUT on both sides of OUT_CAP. -/
theorem outAppendsA : Obligations.OutAppendsA :=
  ⟨decodeBytes_encodeBytes_append (i := .out) rfl, fun _ _ hj => ⟨exec_out hj, exec_out_full hj⟩⟩

/-- Settles O26: the value of f is `cmpFlag` of a and b. -/
theorem cmpWritesFOnly : Obligations.CmpWritesFOnly := by
  refine ⟨decodeBytes_encodeBytes_append (i := .cmp) rfl, fun s v hj => ⟨fun h => ?_, fun h => ?_⟩⟩
  · have hflag : cmpFlag v.a v.b = 0 := if_pos (BitVec.eq_of_toNat_eq h)
    rw [exec_cmp hj, hflag]
    rfl
  · have hflag : cmpFlag v.a v.b = 1 := if_neg fun e => h (congrArg BitVec.toNat e)
    rw [exec_cmp hj, hflag]
    rfl

/-- Settles O27: the byte operations are those of the numbers modulo 256. -/
theorem addSubXorWriteAOnly : Obligations.AddSubXorWriteAOnly := by
  refine ⟨fun rest => ⟨decodeBytes_encodeBytes_append (i := .add) rfl rest,
    decodeBytes_encodeBytes_append (i := .sub) rfl rest, decodeBytes_encodeBytes_append (i := .xor) rfl rest⟩, ?_⟩
  intro s v hj
  have hadd : v.a + v.b = BitVec.ofNat 8 ((v.a.toNat + v.b.toNat) % 256) := BitVec.eq_of_toNat_eq (by simp)
  have hsub : v.a - v.b = BitVec.ofNat 8 ((v.a.toNat + 256 - v.b.toNat) % 256) := by bv_omega
  have hxor : v.a ^^^ v.b = BitVec.ofNat 8 (Nat.xor v.a.toNat v.b.toNat) :=
    ((BitVec.ofNat_toNat 8 (v.a ^^^ v.b)).trans (BitVec.setWidth_eq _)).symm
  rw [exec_add hj, exec_sub hj, exec_xor hj, hadd, hsub, hxor]
  exact ⟨rfl, rfl, rfl⟩

/-- Settles O28: both branches test f against 0. -/
theorem jezAndJnzTestF : Obligations.JezAndJnzTestF := by
  refine ⟨fun imm32 rest => ⟨decodeBytes_encodeBytes_append (i := .jez imm32) rfl rest,
    decodeBytes_encodeBytes_append (i := .jnz imm32) rfl rest⟩, fun s v imm32 hj => ?_⟩
  rw [exec_jez hj, exec_jnz hj]
  refine ⟨fun hf => ?_, fun hf => ?_⟩
  · rw [if_pos hf, if_pos hf]; exact ⟨rfl, rfl⟩
  · rw [if_neg hf, if_neg hf]; exact ⟨rfl, rfl⟩

/-- Settles O29: below 2^32 the sum of the numbers is the sum of the words. -/
theorem aptrAdvancesPtr : Obligations.AptrAdvancesPtr := by
  refine ⟨fun imm8 => decodeBytes_encodeBytes_append (i := .aptr imm8) rfl, fun s v imm8 hj => ⟨fun h => ?_, ?_⟩⟩
  · have hsum : BitVec.ofNat 32 (v.ptr.toNat + imm8.toNat) = v.ptr + imm8.zeroExtend 32 := by
      rw [BitVec.ofNat_add, BitVec.ofNat_toNat, BitVec.ofNat_toNat, BitVec.setWidth_eq]
    rw [exec_aptr hj h, hsum]
    rfl
  · exact exec_aptr_overflow hj

/-- Settles O32: only pc, which is past the instruction by then, reads otherwise than before it. -/
theorem mv32MovesAWord : Obligations.Mv32MovesAWord := by
  refine ⟨fun dst src rest => ?_, fun s v dst src hj => ⟨fun h => ?_, ?_⟩⟩
  · exact ofNat_eq_moveOpcode 2 _ _ ▸ decodeBytes_mv32 dst src rest
  · rw [exec_mv32 hj, past, setPc_get32 v _ h]
  · rintro rfl
    exact exec_mv32 hj dst .pc

/-- Settles O33: the immediate is the little-endian word of the four bytes. -/
theorem mvi32WritesTheImmediate : Obligations.Mvi32WritesTheImmediate := by
  refine ⟨fun dst b0 b1 b2 b3 rest => ⟨le32 b0 b1 b2 b3, ?_, toNat_le32 b0 b1 b2 b3⟩, fun s v dst imm32 hj => ?_⟩
  · exact ofNat_eq_moveOpcode 2 _ 0 ▸ decodeBytes_mvi32 dst (b0 :: b1 :: b2 :: b3 :: rest)
  · exact exec_mvi32 hj dst imm32

end Sys2Proof.Proofs
end

section
/-! SUPPORT. What a unit's error says (60_exceptions.md R381): its detail is an offset into the input, or the input's
length. -/

namespace Sys2Proof.Machine

open Sys2Proof.Safety

theorem info_le_of_fAscii85 {mode : A85Ws} {text : List Byte} {code : ErrCode} {info : Nat}
    (h : fAscii85 mode text = .err code info) : info ≤ text.length := by
  have hle : scansTo mode text info → info ≤ text.length := fun ⟨_, hlen, _⟩ => hlen
  rcases (Proofs.ascii85ErrorsPointAtTheirCause mode text code info).mp h with
    ⟨_, rfl, _⟩ | ⟨_, ⟨_, hs, _⟩ | ⟨_, hs, _⟩ | ⟨_, _, _, _, _, _, hlt, _⟩ | ⟨_, hs, _⟩ | ⟨_, hs, _⟩⟩
  · exact Nat.zero_le _
  · exact hle hs
  · exact hle hs
  · exact Nat.le_of_lt hlt
  · exact hle hs
  · exact hle hs

/-- The offset of the rest and the length of the rest always add up to the same end. -/
theorem info_le_of_packetScan {prm : Params} {fuel off : Nat} {rest out : List Byte} {code : ErrCode} {info : Nat}
    (h : packetScan prm fuel off rest out = .err code info) : info ≤ off + rest.length := by
  induction fuel generalizing off rest out with
  | zero => cases h
  | succ fuel ih =>
    rw [packetScan] at h
    split at h
    · cases h
    · dsimp only at h
      split at h
      · cases h
        exact Nat.le_add_right _ _
      · next hfits =>
        have hrest := ih h
        rw [List.length_drop] at hrest
        omega

theorem info_le_of_fUnwrap {prm : Params} {input : List Byte} {code : ErrCode} {info : Nat}
    (h : fUnwrap prm input = .err code info) : info ≤ input.length := by
  by_cases hlen : input.length < 96
  · cases (fUnwrap_of_short prm hlen).symm.trans h
    exact Nat.le_refl _
  · rw [fUnwrap_of_length prm (Nat.le_of_not_lt hlen)] at h
    split at h
    · cases h
      exact Nat.zero_le _
    · cases h

theorem info_le_of_unitResult {prm : Params} {u : UnitFn} {input : List Byte} {code : ErrCode} {info : Nat}
    (h : unitResult prm u input = .err code info) : info ≤ input.length := by
  cases u with
  | ascii85 => exact info_le_of_fAscii85 h
  | bitflip => cases h
  | parity => cases h
  | packet => exact Nat.zero_add input.length ▸ info_le_of_packetScan h
  | unwrap => exact info_le_of_fUnwrap h

end Sys2Proof.Machine
end

section
/-! SUPPORT. How a job fails: every way from BUSY to ERROR is the fault action of 60_exceptions.md R380. -/

namespace Sys2Proof.Machine

/-- The fault action took the block from `s` to `t`, with a real error code (60_exceptions.md R380, R381). -/
def Faulted (s t : State) : Prop :=
  ∃ code info, code ≠ .none ∧ t = jobFault s code info

theorem faulted_finishJob {s : State} {r : UnitResult} (hr : ∀ info, r ≠ .err .none info)
    (he : (finishJob s r).state = .error) : Faulted s (finishJob s r) := by
  rcases finishJob_cases s r with ⟨_, _, _, e⟩ | ⟨_, _, _, e⟩ | ⟨code, info, rfl, e⟩
  · rw [e] at he
    cases he
  · exact ⟨.outOverflow, _, by decide, e⟩
  · exact ⟨code, _, by rintro rfl; exact hr info rfl, e⟩

theorem faulted_of_exec {i : Instr} {s t : State} (hb : s.state = .busy) (h : exec i s = .next t)
    (he : t.state = .error) : Faulted s t := by
  cases execMove_of_exec h with
  | start code hc ht =>
    rw [ht, startJob_of_busy _ _ hb, hb] at he
    cases he
  | halt v hi hj ht =>
    rw [ht] at he ⊢
    exact faulted_finishJob (by simp) he
  | goOn v w hj hk ht =>
    rw [ht] at he
    cases hb.symm.trans he
  | fault v code hj hc ht => exact ⟨code, v.pc, hc, ht⟩

theorem faulted_of_blockMove {s t : State} (hb : s.state = .busy) (h : BlockMove s t) (he : t.state = .error) :
    Faulted s t := by
  cases h with
  | idle hj ht =>
    rw [ht, hb] at he
    cases he
  | unitEnd u input hj ht =>
    rw [ht] at he ⊢
    exact faulted_finishJob (unitResult_ne_err_none s.params u input) he
  | vmExec v i hj hf hexec => exact faulted_of_exec hb hexec he
  | fetchFault v code hj hf ht => exact ⟨code, v.pc, vmFetch_error_ne_none hf, ht⟩

/-- While BUSY no access of the host ends in ERROR (10_state.md R32, 70_reset_and_hazards.md R410). -/
theorem accessMove_state_ne_error {move : HostMove} {s t : State} (hb : s.state = .busy) (h : AccessMove move s t) :
    t.state ≠ .error := by
  cases h with
  | read r d ht => simp [ht, hb]
  | badFunc w hnb => exact absurd hb hnb
  | func w hnb => exact absurd hb hnb
  | inLen w hnb => exact absurd hb hnb
  | inByte i x hnb => exact absurd hb hnb
  | reset hm ht =>
    rw [ht]
    rintro ⟨⟩

/-- A step from BUSY to ERROR is the fault action, at the state with the host's action taken off the list. -/
theorem faulted_of_step {s t : State} (hb : s.state = .busy) (h : step s = .next t) (he : t.state = .error) :
    ∃ rest, Faulted { s with host := rest } t := by
  cases stepMove_of_step h with
  | block rest hblock => exact ⟨rest, faulted_of_blockMove hb hblock he⟩
  | command w i rest hd hexec => exact ⟨rest, faulted_of_exec hb hexec he⟩
  | access move rest hh ha => exact absurd he (accessMove_state_ne_error (s := { s with host := rest }) hb ha)

end Sys2Proof.Machine
end

section
/-! The errors of a job (60_exceptions.md). -/

open Sys2Proof.Machine Sys2Proof.Safety

namespace Sys2Proof.Proofs

/-- Settles O16, unit by unit for the detail; no unit reports the code NONE. -/
theorem unitErrorPointsIntoTheInput : Obligations.UnitErrorPointsIntoTheInput := by
  intro prm u input code info h
  refine ⟨info_le_of_unitResult h, ?_⟩
  rintro rfl
  exact unitResult_ne_err_none prm u input info h

/-- Settles O17: such a step is the fault action, which writes and keeps what R380 lists. -/
theorem faultLeavesNoOutputAndKeepsFuncAndInLen : Obligations.FaultLeavesNoOutputAndKeepsFuncAndInLen := by
  intro s t hb hstep he
  obtain ⟨rest, code, info, hcode, rfl⟩ := faulted_of_step hb hstep he
  exact ⟨hcode, rfl, rfl, rfl, rfl, rfl, rfl⟩

end Sys2Proof.Proofs
end

section
/-! SUPPORT. What reset by the host leaves (70_reset_and_hazards.md R410, R412), and the parameters, which every move of
the host and of the block keeps. -/

namespace Sys2Proof.Machine

/-- Reset has one effect, whatever the block is doing (70_reset_and_hazards.md R410). -/
theorem step_reset (s : State) (rest : List HostMove) :
    step { s with host := .reset :: rest } = .next (resetBlock { s with host := rest }) :=
  step_of_other rfl

@[simp] theorem resetBlock_params (s : State) : (resetBlock s).params = s.params := rfl

@[simp] theorem finishJob_params (s : State) (r : UnitResult) : (finishJob s r).params = s.params := by
  obtain ⟨_, _, _, hparams, _⟩ := finishJob_keeps s r
  exact hparams

@[simp] theorem startJob_params (code : BitVec 3) (mk : List Byte → Job) (s : State) :
    (startJob code mk s).params = s.params := by
  rcases startJob_cases code mk s with ⟨_, e⟩ | ⟨_, _, e⟩ | ⟨_, _, e⟩
  · rw [e]
  · rw [e, jobFault_params]
  · rw [e]

theorem exec_keeps_params {i : Instr} {s t : State} (h : exec i s = .next t) : t.params = s.params := by
  cases execMove_of_exec h with
  | start code hc ht => rw [ht, startJob_params]
  | halt v hi hj ht => rw [ht, finishJob_params]
  | goOn v w hj hk ht => rw [ht]
  | fault v code hj hc ht => rw [ht, jobFault_params]

theorem accessMove_keeps_params {move : HostMove} {s t : State} (h : AccessMove move s t) : t.params = s.params := by
  cases h with
  | read r d ht => rw [ht]
  | badFunc w hb ht => rw [ht, jobFault_params]
  | func w hb ht => rw [ht]
  | inLen w hb ht => rw [ht]
  | inByte i x hb hi ht => rw [ht]
  | reset hm ht => rw [ht, resetBlock_params]

theorem blockMove_keeps_params {s t : State} (h : BlockMove s t) : t.params = s.params := by
  cases h with
  | idle hj ht => rw [ht]
  | unitEnd u input hj ht => rw [ht, finishJob_params]
  | vmExec v i hj hf he => exact exec_keeps_params he
  | fetchFault v code hj hf ht => rw [ht, jobFault_params]

/-- The action that a step takes off the host's list leaves the parameters too. -/
theorem stepMove_keeps_params {s t : State} (h : StepMove s t) : t.params = s.params := by
  cases h with
  | block rest hb => exact blockMove_keeps_params (s := { s with host := rest }) hb
  | command w i rest hd he => exact exec_keeps_params (s := { s with host := rest }) he
  | access move rest hh ha => exact accessMove_keeps_params (s := { s with host := rest }) ha

end Sys2Proof.Machine
end

section
/-! Reset, and the parameters across every step (70_reset_and_hazards.md). -/

open Sys2Proof.Machine

namespace Sys2Proof.Proofs

/-- Settles O59, by the cases of a step: the block's turn, a job command, an access of the host. -/
theorem stepKeepsTheParameters : Obligations.StepKeepsTheParameters := by
  intro s t hstep
  exact stepMove_keeps_params (stepMove_of_step hstep)

/-- Settles O7: such a step is the reset of the block, which writes the reset values and keeps the parameters. -/
theorem hostResetAbandonsAnyJob : Obligations.HostResetAbandonsAnyJob := by
  intro s rest
  exact ⟨_, step_reset s rest, rfl, rfl, rfl, rfl, rfl, rfl, rfl,
    fun i => ⟨get?_nil i, get?_nil i⟩, resetBlock_params _⟩

end Sys2Proof.Proofs
end
